-- ==== Sys2Proof/Word.lean ====
section
/-!
DEFINITION. The fixed-width vectors that stand on the unit's ports (`00_scope.md` R8, `10_state.md` R25, R26).
Bit 0 of every vector is its least significant bit.
Every integer inside a rule is a mathematical integer (R8), so no arithmetic is defined on these types here.
-/
namespace Sys2Proof

/-- The 16-bit command word (R50). -/
abbrev Word := BitVec 16

/-- One bit of a port; also the sign bit, 0 positive and 1 negative (R25). -/
abbrev Bit := BitVec 1

/-- The biased-exponent port, `EB_MAX` = 15 bits (R7, R25). -/
abbrev ExponentPort := BitVec 15

/-- The fraction port, `F_MAX` = 112 bits (R7, R25). -/
abbrev FractionPort := BitVec 112

/-- The bit-pattern port, `N_MAX` = 128 bits (R7, R26). -/
abbrev BitsPort := BitVec 128

/-- The port of the binary exponent `val_exp2`: 16 bits, signed, two's complement (R8, R26). -/
abbrev Exp2Port := BitVec 16

/-- One 8-bit character code of a string operand or a string result (R25, R57). -/
abbrev CharCode := BitVec 8

/-- A character string: a sequence of 8-bit codes, character 0 first (R25, R42). -/
abbrev Text := List CharCode

end Sys2Proof
end

