-- ==== Sys2Proof/Config.lean ====
section
/-!
DEFINITION. What is fixed for the hardware and not state: the four precision names, the shape of a registry row, the
build parameters of `00_scope.md` R7, and the two free values of the optional Arithmetic Layer.
-/
namespace Sys2Proof

/-- The four recognized precision names (R52, R81). -/
inductive Precision where
  | half
  | single
  | double
  | quad
  deriving DecidableEq, Repr

/-- One row of the Precision Registry (R6, R81): total width, exponent width, fraction width, bias, all-ones exponent,
fraction mask. The rows themselves are `Sys2Proof.Machine.registry`. -/
structure PrecisionConfig where
  n        : Nat
  eb       : Nat
  f        : Nat
  bias     : Nat
  expMax   : Nat
  fracMask : Nat
  deriving DecidableEq, Repr

/-- `HEX_OUT_CASE`: case of the hexadecimal digits FORMAT, ENCODE and DECODE produce (R7, R97). -/
inductive HexCase where
  | upper
  | lower
  deriving DecidableEq, Repr

/-- `NAN_SIGN(p)` and `NAN_FRAC(p)` for one precision (R7, R153). -/
structure NanPattern where
  sign : Bit
  frac : FractionPort
  deriving DecidableEq, Repr

/-- The build parameters of R7 that have a value: fixed when the unit is built, changed by no command and by no reset
(R251, R61). The widths R7 leaves OPEN are no parameters here: the model takes unbounded `Nat`, `Int` and `List`. -/
structure Build where
  /-- `HAS_ARITH`: the Arithmetic Layer is present. -/
  hasArith   : Bool
  nanHalf    : NanPattern
  nanSingle  : NanPattern
  nanDouble  : NanPattern
  nanQuad    : NanPattern
  hexOutCase : HexCase
  deriving DecidableEq, Repr

/-- The NaN pattern parameters of one precision. -/
def Build.nan (b : Build) : Precision → NanPattern
  | .half   => b.nanHalf
  | .single => b.nanSingle
  | .double => b.nanDouble
  | .quad   => b.nanQuad

/-- The values R7 gives this hardware: `HAS_ARITH = false`, `NAN_SIGN = 0`, `NAN_FRAC = 2^(F-1)`, upper-case digits. -/
def Build.thisHardware : Build where
  hasArith   := false
  nanHalf    := { sign := 0, frac := 0x200 }
  nanSingle  := { sign := 0, frac := 0x400000 }
  nanDouble  := { sign := 0, frac := 0x8000000000000 }
  nanQuad    := { sign := 0, frac := 0x8000000000000000000000000000 }
  hexOutCase := .upper

/-- The two operations of the Arithmetic Layer. -/
inductive ArithOp where
  | add
  | multiply
  deriving DecidableEq, Repr

/-- FREE VALUE. The host double a finite quad value `(-1)^sign * sig * 2^exp2` becomes in the Arithmetic Layer, as a
binary64 pattern. R202 marks the quad case as not settled and tells a model to draw it (D30, U11). It depends on
the operand only, since a response is a function of its command (R20). Log entry 10. -/
opaque Config.toHostQuad : (sign : Bit) → (sig : Nat) → (exp2 : Int) → BitVec 64

/-- FREE VALUE. The `in_sign` echo of an FP_ADD or FP_MULTIPLY whose host result is NaN: R205 re-encodes it with form
NAN and states no sign for that inner ENCODE. Log entry 11. -/
opaque Config.nanEchoSign : ArithOp → Precision → (va : Nat) → (vb : Nat) → Bit

end Sys2Proof
end

