-- ==== Sys2Proof/Syntax.lean ====
section
/-!
DEFINITION. The instructions: what one legal command word spells (`30_encoding.md` R50 to R53). One constructor per row
of the opcode table. Operands are no part of the word: they stand in the other fields of the command record (R50).
-/
namespace Sys2Proof

/-- The 3-bit precision code of a command word (R52), with the names of R62: codes 0 to 3 are the recognized names,
codes 4 to 7 stand for any other name. -/
inductive PrecCode where
  | half
  | single
  | double
  | quad
  | p4
  | p5
  | p6
  | p7
  deriving DecidableEq, Repr

/-- The two forms of a bit-pattern operand (R53, R56, R57). -/
inductive OperandForm where
  | int
  | str
  deriving DecidableEq, Repr

/-- The operations of the unit, one per operation form of the table in R53. -/
inductive Instr where
  | configFor (p : PrecCode)
  | pack (p : PrecCode)
  | unpackInt (p : PrecCode)
  | unpackStr (p : PrecCode)
  | formatInt (p : PrecCode)
  | formatStr (p : PrecCode)
  | classify (p : PrecCode)
  | roundRational (p : PrecCode)
  | roundPresplit (p : PrecCode)
  | encodeFinite (p : PrecCode)
  | encodeInf (p : PrecCode)
  | encodeNan (p : PrecCode)
  | encodeInvalid (p : PrecCode)
  | decodeInt (p : PrecCode)
  | decodeStr (p : PrecCode)
  /-- `a` is the form of operand a (`kind` bit 7), `b` that of operand b (bit 8) (R201). -/
  | fpAdd (p : PrecCode) (a b : OperandForm)
  | fpMultiply (p : PrecCode) (a b : OperandForm)
  deriving DecidableEq, Repr

/-- The precision code an instruction carries; every instruction carries one (R50). -/
def Instr.prec : Instr → PrecCode
  | .configFor p | .pack p | .unpackInt p | .unpackStr p | .formatInt p | .formatStr p | .classify p
  | .roundRational p | .roundPresplit p | .encodeFinite p | .encodeInf p | .encodeNan p | .encodeInvalid p
  | .decodeInt p | .decodeStr p | .fpAdd p _ _ | .fpMultiply p _ _ => p

/-- The instruction belongs to the optional Arithmetic Layer (R3, R51). -/
def Instr.isArith : Instr → Bool
  | .fpAdd _ _ _ | .fpMultiply _ _ _ => true
  | .configFor _ | .pack _ | .unpackInt _ | .unpackStr _ | .formatInt _ | .formatStr _ | .classify _
  | .roundRational _ | .roundPresplit _ | .encodeFinite _ | .encodeInf _ | .encodeNan _ | .encodeInvalid _
  | .decodeInt _ | .decodeStr _ => false

end Sys2Proof
end

