-- ==== Sys2Proof/WellFormed.lean ====
section
/-!
DEFINITION. The checks that data of the model must pass: a registry row (R82), the build parameters (R7), and an
instruction in a given build (R54).
-/
namespace Sys2Proof

/-- R82: `N = 1 + EB + F`, `bias = 2^(EB-1) - 1`, `exp_max = 2^EB - 1`, `frac_mask = 2^F - 1`, `N` a multiple of 4. -/
def PrecisionConfig.wf (c : PrecisionConfig) : Bool :=
  c.n == 1 + c.eb + c.f && c.bias == 2 ^ (c.eb - 1) - 1 && c.expMax == 2 ^ c.eb - 1 && c.fracMask == 2 ^ c.f - 1
    && c.n % 4 == 0

/-- R7's constraint on one precision's NaN pattern, `1 <= NAN_FRAC <= frac_mask`. -/
def NanPattern.wf (p : NanPattern) (fracMask : Nat) : Bool :=
  1 ≤ p.frac.toNat && p.frac.toNat ≤ fracMask

/-- R7's constraints on the build parameters: each precision's NaN pattern is a NaN of that precision. -/
def Build.wf (b : Build) : Bool :=
  b.nanHalf.wf (2 ^ 10 - 1) && b.nanSingle.wf (2 ^ 23 - 1) && b.nanDouble.wf (2 ^ 52 - 1) && b.nanQuad.wf (2 ^ 112 - 1)

/-- R54: an operation of the Arithmetic Layer is an instruction only of a build that has the layer. -/
def Instr.wf (b : Build) (i : Instr) : Bool :=
  !i.isArith || b.hasArith

end Sys2Proof
end

