-- ==== Sys2Proof/Decode.lean ====
section
/-!
DEFINITION. Reading a command word as an instruction, and writing an instruction as a word (`30_encoding.md` R50 to
R54). The word is presented whole (R41), so there is no byte order to undo. The decoder knows the optional
operations in every build; a build without them turns them away in their meanings (log entry 13).
-/
namespace Sys2Proof

/-- The `op` field, bits 15..12 (R50). -/
def opField (w : Word) : BitVec 4 := w.extractLsb' 12 4

/-- The `prec` field, bits 11..9 (R50). -/
def precField (w : Word) : BitVec 3 := w.extractLsb' 9 3

/-- The `kind` field, bits 8..7 (R50). -/
def kindField (w : Word) : BitVec 2 := w.extractLsb' 7 2

/-- The `rsv` field, bits 6..0 (R50). -/
def rsvField (w : Word) : BitVec 7 := w.extractLsb' 0 7

/-- R52. -/
def PrecCode.ofBits (b : BitVec 3) : PrecCode :=
  match b.toNat with
  | 0 => .half
  | 1 => .single
  | 2 => .double
  | 3 => .quad
  | 4 => .p4
  | 5 => .p5
  | 6 => .p6
  | _ => .p7

/-- R52. -/
def PrecCode.toBits : PrecCode → BitVec 3
  | .half   => 0
  | .single => 1
  | .double => 2
  | .quad   => 3
  | .p4     => 4
  | .p5     => 5
  | .p6     => 6
  | .p7     => 7

/-- R53: 0 INT, 1 STR. -/
def OperandForm.ofBit (b : Bool) : OperandForm := if b then .str else .int

/-- R53: 0 INT, 1 STR. -/
def OperandForm.toBit : OperandForm → BitVec 1
  | .int => 0
  | .str => 1

/-- Why a word spells no instruction, in the order R54 lists the reasons. -/
inductive DecodeError where
  /-- `rsv != 0`. -/
  | reservedBits
  /-- `op` is 0x0 or 0xB..0xF. -/
  | reservedOp
  /-- The `kind` is not listed for the `op` in R53. -/
  | reservedKind
  deriving DecidableEq, Repr

/-- The instruction a command word spells, or the reason it spells none (R51, R53, R54). Total on all words. -/
def decode (w : Word) : Except DecodeError Instr :=
  let p := PrecCode.ofBits (precField w)
  if rsvField w ≠ 0 then .error .reservedBits
  else match (opField w).toNat, (kindField w).toNat with
    | 0x1, 0 => .ok (.configFor p)
    | 0x2, 0 => .ok (.pack p)
    | 0x3, 0 => .ok (.unpackInt p)
    | 0x3, 1 => .ok (.unpackStr p)
    | 0x4, 0 => .ok (.formatInt p)
    | 0x4, 1 => .ok (.formatStr p)
    | 0x5, 0 => .ok (.classify p)
    | 0x6, 0 => .ok (.roundRational p)
    | 0x6, 1 => .ok (.roundPresplit p)
    | 0x7, 0 => .ok (.encodeFinite p)
    | 0x7, 1 => .ok (.encodeInf p)
    | 0x7, 2 => .ok (.encodeNan p)
    | 0x7, 3 => .ok (.encodeInvalid p)
    | 0x8, 0 => .ok (.decodeInt p)
    | 0x8, 1 => .ok (.decodeStr p)
    | 0x9, k => .ok (.fpAdd p (.ofBit (k.testBit 0)) (.ofBit (k.testBit 1)))
    | 0xA, k => .ok (.fpMultiply p (.ofBit (k.testBit 0)) (.ofBit (k.testBit 1)))
    | op, _ => if 1 ≤ op ∧ op ≤ 0xA then .error .reservedKind else .error .reservedOp

/-- R50: `word = (op << 12) | (prec << 9) | (kind << 7) | rsv`, with `rsv = 0`. -/
def wordOf (op : BitVec 4) (p : PrecCode) (kind : BitVec 2) : Word :=
  op ++ p.toBits ++ kind ++ 0#7

/-- The command word of an instruction (R51, R53, R201). -/
def encode : Instr → Word
  | .configFor p      => wordOf 0x1 p 0b00
  | .pack p           => wordOf 0x2 p 0b00
  | .unpackInt p      => wordOf 0x3 p 0b00
  | .unpackStr p      => wordOf 0x3 p 0b01
  | .formatInt p      => wordOf 0x4 p 0b00
  | .formatStr p      => wordOf 0x4 p 0b01
  | .classify p       => wordOf 0x5 p 0b00
  | .roundRational p  => wordOf 0x6 p 0b00
  | .roundPresplit p  => wordOf 0x6 p 0b01
  | .encodeFinite p   => wordOf 0x7 p 0b00
  | .encodeInf p      => wordOf 0x7 p 0b01
  | .encodeNan p      => wordOf 0x7 p 0b10
  | .encodeInvalid p  => wordOf 0x7 p 0b11
  | .decodeInt p      => wordOf 0x8 p 0b00
  | .decodeStr p      => wordOf 0x8 p 0b01
  | .fpAdd p a b      => wordOf 0x9 p (b.toBit ++ a.toBit)
  | .fpMultiply p a b => wordOf 0xA p (b.toBit ++ a.toBit)

/-- The instruction the decoder reads from a word numbered as the opcode table numbers it. Every row has 16 bits, the
whole command word; a number with a bit above bit 15 is no command word. -/
def decodeTableWord (nbits w : Nat) : Option Instr :=
  if 16 < nbits ∨ 2 ^ 16 ≤ w then none
  else (decode (BitVec.ofNat 16 w)).toOption

end Sys2Proof
end

