-- ==== Sys2Proof/Machine/State.lean ====
section
/-!
DEFINITION. The two records the unit is observed through (`10_state.md` R25, R26) and the machine's state, which is
those records as they stand on the ports, the commands the host has issued, and the build parameters. The unit itself
keeps nothing from one command to the next (R20 to R24, R30, R31, R33): there is no register, no program counter, no
flag and no memory to hold.
-/
namespace Sys2Proof.Machine

/-- The command record, the unit's only input (R25). The widths R7 leaves OPEN are unbounded (log entry 6). -/
structure Command where
  /-- Command word: `op`, `prec`, `kind`, reserved bits (R50). -/
  word     : Word
  sign     : Bit
  exponent : ExponentPort
  fraction : FractionPort
  /-- Raw integer operand, operand a. -/
  intIn    : Nat
  /-- Character-string operand, operand a. -/
  strIn    : Text
  /-- Raw integer operand b, of the Arithmetic Layer only. -/
  intInB   : Nat
  /-- Character-string operand b, of the Arithmetic Layer only. -/
  strInB   : Text
  /-- Decimal coefficient of ENCODE FINITE. -/
  coef     : Nat
  /-- Decimal exponent of ENCODE FINITE, signed. -/
  exp10    : Int
  /-- Numerator and denominator of ROUND_RNE RATIONAL. -/
  num      : Nat
  den      : Nat
  /-- Truncated integer part, guard, round and sticky of ROUND_RNE PRESPLIT. -/
  mIn      : BitVec 113
  gIn      : Bool
  rIn      : Bool
  sIn      : Bool
  deriving DecidableEq, Repr

/-- A command record with the given word and every operand field 0 or empty. -/
def Command.ofWord (w : Word) : Command where
  word := w
  sign := 0
  exponent := 0
  fraction := 0
  intIn := 0
  strIn := []
  intInB := 0
  strInB := []
  coef := 0
  exp10 := 0
  num := 0
  den := 0
  mIn := 0
  gIn := false
  rIn := false
  sIn := false

/-- The four error kinds that are statuses (R220). `InvalidDecimalLiteral` is none of them (R223). -/
inductive ErrorKind where
  /-- `prec >= 4` (R221). -/
  | unknownPrecision
  /-- A bit-pattern operand that is no pattern of the precision (R222). -/
  | malformedBits
  /-- The word spells no operation of this build (R224). -/
  | illegalCommand
  /-- An operand outside the domain of PACK, CLASSIFY or ROUND_RNE (R225). -/
  | operandRange
  deriving DecidableEq, Repr

/-- The classification, a closed set of five (R28). -/
inductive Class where
  | zero
  | subnormal
  | normal
  | infinity
  | nan
  deriving DecidableEq, Repr

/-- A BitFields triple as the `fields` group carries it (R26, R27). -/
structure BitFields where
  sign     : Bit
  exponent : ExponentPort
  fraction : FractionPort
  deriving DecidableEq, Repr

/-- `val_kind` (R26, R29). -/
inductive ValKind where
  | finite
  | infinite
  | nan
  deriving DecidableEq, Repr

/-- The `value` group: the exact value `(-1)^sign * sig * 2^exp2 = (-1)^sign * decCoef * 10^decExp10` (R29, R183). -/
structure ValueGroup where
  kind     : ValKind
  sign     : Bit
  sig      : BitVec 113
  /-- Signed: `exp2.toInt` is the exponent. -/
  exp2     : Exp2Port
  decCoef  : Nat
  decExp10 : Int
  deriving DecidableEq, Repr

/-- The `fmt` group (R26, R97). -/
structure FormatGroup where
  hexStr  : Text
  binStr  : Text
  signStr : Text
  expStr  : Text
  fracStr : Text
  deriving DecidableEq, Repr

/-- The `config` group: one row of the registry on its ports (R26, R80). -/
structure ConfigGroup where
  totalBits : BitVec 8
  expBits   : BitVec 4
  fracBits  : BitVec 7
  bias      : BitVec 15
  expMax    : BitVec 15
  fracMask  : BitVec 112
  deriving DecidableEq, Repr

/-- The groups of a CodecResult that ENCODE and DECODE share (R26, R160, R186). -/
structure CodecResult where
  fields : BitFields
  bits   : BitsPort
  cls    : Class
  value  : ValueGroup
  fmt    : FormatGroup
  deriving DecidableEq, Repr

/-- ENCODE's four operand forms, as `in_kind` echoes them (R53, R162). -/
inductive EncodeForm where
  | finite
  | inf
  | nan
  | invalid
  deriving DecidableEq, Repr

/-- The `echo` group (R162). `in_coef` and `in_exp10` are meaningful for form FINITE only: `none` otherwise. -/
structure EchoGroup where
  inSign      : Bit
  inKind      : EncodeForm
  inMagnitude : Option (Nat × Int)
  deriving DecidableEq, Repr

/-- The `aux` group of the rounding path (R161). -/
structure AuxGroup where
  preE       : Int
  preM       : BitVec 112
  g          : Bool
  r          : Bool
  s          : Bool
  roundCarry : Bool
  expCarry   : Bool
  deriving DecidableEq, Repr

/-- `reason` (R26, R223). -/
inductive Reason where
  | none
  | invalidDecimalLiteral
  deriving DecidableEq, Repr

/-- What ENCODE answers besides the echo. `aux = none` is `aux_valid = 0` (R161). -/
structure EncodeResult where
  result : CodecResult
  aux    : Option AuxGroup
  reason : Reason
  deriving DecidableEq, Repr

/-- The response record, the unit's only output, as the sum type R26 advises: one constructor per operation, so that a
field that is not meaningful does not exist (D33, U1). -/
inductive Response where
  /-- `status != OK`: nothing but the status is meaningful (R227). -/
  | error (kind : ErrorKind)
  /-- CONFIG_FOR (R80). -/
  | config (row : ConfigGroup)
  /-- PACK (R91). -/
  | packed (bits : BitsPort)
  /-- UNPACK (R96). -/
  | unpacked (fields : BitFields)
  /-- FORMAT (R98). -/
  | formatted (bits : BitsPort) (fmt : FormatGroup)
  /-- CLASSIFY (R121). -/
  | classified (cls : Class)
  /-- ROUND_RNE (R133). -/
  | rounded (mant : BitVec 112) (carry : Bool)
  /-- ENCODE (R163). -/
  | encoded (echo : EchoGroup) (enc : EncodeResult)
  /-- DECODE (R186). -/
  | decoded (result : CodecResult)
  /-- FP_ADD and FP_MULTIPLY (R205 to R208). -/
  | arith (echo : EchoGroup) (enc : EncodeResult) (exactMatch : Bool)
  deriving DecidableEq, Repr

/-- The machine. Only `resp` is written by an instruction; `cmd` and `pending` are the command side of the interface,
which `step` moves; nothing writes `build`. -/
structure State where
  /-- The build parameters (R7): configuration, held here so that one model stands for every build (log entry 1). -/
  build   : Build
  /-- The command record on the command port: the command being answered (R25). -/
  cmd     : Command
  /-- The commands the host has issued and the unit has not yet taken, in the host's order (R22; log entry 2). -/
  pending : List Command
  /-- The response record on the response port; `none` until the first command has been answered (R32, R251). -/
  resp    : Option Response
  deriving DecidableEq, Repr

/-- The machine right after reset, for the build R7 describes: no command issued, no response (R32, R250, R251). The
command port's contents before the first command are a DESIGN CHOICE: all zeros (log entry 3). -/
def State.reset : State where
  build := Build.thisHardware
  cmd := Command.ofWord 0
  pending := []
  resp := none

/-- Reasons to stop with a fault: none. Every command ends in a response (R255), and an error is a status on that
response (R227), so no rule stops the unit. Nobody raises a fault; safe and unsafe do not arise. -/
inductive Fault where
  deriving DecidableEq, Repr

/-- Reasons the model gives no meaning. -/
inductive Refusal where
  /-- An instruction whose meaning is not written yet; raised by `exec` alone, and by no arm of it now. Safe: no claim
  about such an instruction can be proved. -/
  | notModelled (mnemonic : String)
  deriving DecidableEq, Repr

end Sys2Proof.Machine
end

