-- ==== Sys2Proof/Machine/Registry.lean ====
section
/-!
DEFINITION. The Precision Registry (`40_registry.md`): the constant table, its lookup by precision code, and the
constants derived from a row.
-/
namespace Sys2Proof.Machine

/-- The constant table of R81 (R6). -/
def registry : Precision → PrecisionConfig
  | .half   => { n := 16, eb := 5, f := 10, bias := 15, expMax := 31, fracMask := 0x3FF }
  | .single => { n := 32, eb := 8, f := 23, bias := 127, expMax := 255, fracMask := 0x7FFFFF }
  | .double => { n := 64, eb := 11, f := 52, bias := 1023, expMax := 2047, fracMask := 0xFFFFFFFFFFFFF }
  | .quad   => { n := 128, eb := 15, f := 112, bias := 16383, expMax := 32767,
                 fracMask := 0xFFFFFFFFFFFFFFFFFFFFFFFFFFFF }

/-- The lookup: the precision a code names, `none` for codes 4 to 7 (R52, R83). -/
def precisionOf : PrecCode → Option Precision
  | .half   => some .half
  | .single => some .single
  | .double => some .double
  | .quad   => some .quad
  | .p4     => none
  | .p5     => none
  | .p6     => none
  | .p7     => none

/-- `e_min = 1 - bias`, the smallest unbiased exponent of a normal number (R84). -/
def eMin (c : PrecisionConfig) : Int := 1 - c.bias

/-- `e_max = exp_max - 1 - bias`, the largest unbiased exponent of a normal number (R84). -/
def eMax (c : PrecisionConfig) : Int := c.expMax - 1 - c.bias

/-- The encoder's overflow threshold on the unbiased exponent, `exp_max - bias` (R84). -/
def overflowAt (c : PrecisionConfig) : Int := c.expMax - c.bias

end Sys2Proof.Machine
end

