-- ==== Sys2Proof/Machine/Operands.lean ====
section
/-!
DEFINITION. The operand forms of the command record: a bit pattern as an integer or as a string (`30_encoding.md` R56,
R57; `41_packer.md` R93 to R95), the decimal magnitude of ENCODE (R58, `00_scope.md` R12), and the non-negative
rationals the rules compute with.
-/
namespace Sys2Proof.Machine

/-- A non-negative rational `num / den`, not necessarily in lowest terms; `den` is positive wherever a rule uses one. -/
structure Frac where
  num : Nat
  den : Nat
  deriving DecidableEq, Repr

/-- `x * 2^k` for an integer `k`, exactly (R8). -/
def Frac.scale2 (x : Frac) (k : Int) : Frac :=
  { num := x.num * 2 ^ k.toNat, den := x.den * 2 ^ (-k).toNat }

/-- `x - 1` for `x >= 1`, exactly. -/
def Frac.minusOne (x : Frac) : Frac :=
  { num := x.num - x.den, den := x.den }

/-- `dec(coef, exp10) = coef * 10^exp10` (R12). -/
def dec (coef : Nat) (exp10 : Int) : Frac :=
  { num := coef * 10 ^ exp10.toNat, den := 10 ^ (-exp10).toNat }

/-- The number of binary digits of `n` (R10). -/
def bitLen (n : Nat) : Nat := if n = 0 then 0 else n.log2 + 1

/-- `floor_log2(x)` for `x > 0`, by R10's integer procedure. -/
def floorLog2 (x : Frac) : Int :=
  let d : Int := bitLen x.num - bitLen x.den
  if x.den * 2 ^ d.toNat ≤ x.num * 2 ^ (-d).toNat then d else d - 1

/-- The ASCII code of the digit `d`, for `d < 2` a binary digit (R57). -/
def digitCode (d : Nat) : CharCode := BitVec.ofNat 8 (0x30 + d)

/-- The value of a binary digit character, `none` for any other character (R94). -/
def binDigit? (c : CharCode) : Option Nat :=
  if c = 0x30 then some 0 else if c = 0x31 then some 1 else none

/-- The value of a hexadecimal digit character of either case, `none` for any other character (R57, R95). -/
def hexDigit? (c : CharCode) : Option Nat :=
  if 0x30 ≤ c.toNat ∧ c.toNat ≤ 0x39 then some (c.toNat - 0x30)
  else if 0x41 ≤ c.toNat ∧ c.toNat ≤ 0x46 then some (c.toNat - 0x41 + 10)
  else if 0x61 ≤ c.toNat ∧ c.toNat ≤ 0x66 then some (c.toNat - 0x61 + 10)
  else none

/-- The digits of a string read most significant first in base `b`, starting from `acc` (R42); `none` if a character is
no digit. -/
def readDigits (b : Nat) (digit? : CharCode → Option Nat) : Nat → Text → Option Nat
  | acc, []      => some acc
  | acc, c :: cs =>
    match digit? c with
    | none   => none
    | some d => readDigits b digit? (acc * b + d) cs

/-- The digits after a `0x` or `0X` prefix; `none` for a string without one, which is read as binary (R57). -/
def hexDigitsOf? : Text → Option Text
  | c0 :: c1 :: digits => if c0 = 0x30 ∧ (c1 = 0x78 ∨ c1 = 0x58) then some digits else none
  | _                  => none

/-- R94: a binary string has exactly `N` characters, each `0` or `1`. -/
def readBinary (c : PrecisionConfig) (text : Text) : Except ErrorKind Nat :=
  if text.length ≠ c.n then .error .malformedBits
  else match readDigits 2 binDigit? 0 text with
    | none   => .error .malformedBits
    | some v => .ok v

/-- R95: a hexadecimal string has at least one digit, and only its value is bounded. -/
def readHex (c : PrecisionConfig) (digits : Text) : Except ErrorKind Nat :=
  if digits = [] then .error .malformedBits
  else match readDigits 16 hexDigit? 0 digits with
    | none   => .error .malformedBits
    | some v => if v < 2 ^ c.n then .ok v else .error .malformedBits

/-- R56: the INT form is accepted when it is at most `2^N - 1`; nothing is truncated. -/
def readInt (c : PrecisionConfig) (v : Nat) : Except ErrorKind Nat :=
  if v < 2 ^ c.n then .ok v else .error .malformedBits

/-- R57: the STR form, dispatched on its prefix. -/
def readStr (c : PrecisionConfig) (text : Text) : Except ErrorKind Nat :=
  match hexDigitsOf? text with
  | some digits => readHex c digits
  | none        => readBinary c text

/-- `read_pattern(form, operand, cfg)` (R93). -/
def readPattern (c : PrecisionConfig) (form : OperandForm) (int : Nat) (str : Text) : Except ErrorKind Nat :=
  match form with
  | .int => readInt c int
  | .str => readStr c str

/-- R58: the decimal operand that presents the native binary number `m * 2^e` exactly. -/
def nativeDecimal (m : Nat) (e : Int) : Nat × Int :=
  if 0 ≤ e then (m * 2 ^ e.toNat, 0) else (m * 5 ^ (-e).toNat, e)

/-- What ENCODE converts: the operand forms of R53 with the operands each reads (R58). -/
inductive EncodeOperand where
  | finite (sign : Bit) (coef : Nat) (exp10 : Int)
  | inf (sign : Bit)
  | nan
  | invalid
  deriving DecidableEq, Repr

end Sys2Proof.Machine
end

