-- ==== Sys2Proof/Machine/Flags.lean ====
section
/-!
DEFINITION. The unit has no flag, condition code or sticky bit (`10_state.md` R23), so nothing here is state. This file
holds what tells, per response, what a flag would have told: the classification (`42_classifier.md`), and the Rounding
Engine's guard, round and sticky bits with its carry-out (`43_rounding.md`).
-/
namespace Sys2Proof.Machine

/-- `classify(exponent, fraction, exp_max)` (R120), its tests in the order of the rule. -/
def classifyFields (expMax exponent fraction : Nat) : Class :=
  if exponent = expMax ∧ fraction = 0 then .infinity
  else if exponent = expMax ∧ fraction ≠ 0 then .nan
  else if exponent = 0 ∧ fraction = 0 then .zero
  else if exponent = 0 ∧ fraction ≠ 0 then .subnormal
  else .normal

/-- A scaled mantissa split into its integer part and its guard, round and sticky bits (R130). -/
structure Split where
  m : Nat
  g : Bool
  r : Bool
  s : Bool
  deriving DecidableEq, Repr

/-- `grs(num/den)` by two steps of long division (R130). -/
def grs (y : Frac) : Split :=
  let t1 := y.num % y.den
  let g := decide (y.den ≤ 2 * t1)
  let t2 := 2 * t1 - g.toNat * y.den
  let r := decide (y.den ≤ 2 * t2)
  let t3 := 2 * t2 - r.toNat * y.den
  { m := y.num / y.den, g := g, r := r, s := decide (t3 ≠ 0) }

/-- `round_up(m, G, R, S)` (R131). -/
def roundUp (y : Split) : Bool :=
  (y.g && (y.r || y.s)) || (y.g && !y.r && !y.s && decide (y.m % 2 = 1))

/-- `rne(m, G, R, S, F)`: the rounded mantissa and the carry-out (R132). -/
def rne (y : Split) (f : Nat) : Nat × Bool :=
  if roundUp y = false then (y.m, false)
  else if y.m + 1 = 2 ^ f then (0, true)
  else (y.m + 1, false)

end Sys2Proof.Machine
end

