-- ==== Sys2Proof/Machine/Ops.lean ====
section
/-!
DEFINITION. The named operations every meaning is written over: putting a response on the response port, ending a
command with an error, and selecting the precision. The unit has no memory and no registers, so there is no read and
no write of one (R30, R40).
-/
namespace Sys2Proof.Machine

/-- `resp <- r`: the response replaces whatever stood on the response port (R26, R44). -/
def State.answer (s : State) (r : Response) : State := { s with resp := some r }

/-- `fail k`: the one way an operation ends in an error (R9, R227). Nothing is saved and no mode changes: the response
carries the status, and the unit is ready for the next command. -/
def State.fail (s : State) (k : ErrorKind) : State := s.answer (.error k)

/-- The unit takes the host's oldest issued command `c`, leaving `rest` issued (R22, R44). -/
def State.take (s : State) (c : Command) (rest : List Command) : State := { s with cmd := c, pending := rest }

/-- The lookup every operation begins with: an unrecognized precision fails the command before any operand is looked at
(R55 step 2, R83); otherwise the operation's own rule answers. -/
def withPrecision (p : PrecCode) (s : State) (op : Precision → Response) : Host.Outcome State Fault Refusal :=
  match precisionOf p with
  | none   => .next (s.fail .unknownPrecision)
  | some q => .next (s.answer (op q))

/-- R54: in a build without the Arithmetic Layer its words are illegal, before their precision is looked at (R226). -/
def withArith (s : State) (op : Host.Outcome State Fault Refusal) : Host.Outcome State Fault Refusal :=
  if s.build.hasArith then op else .next (s.fail .illegalCommand)

/-- An operation on a bit-pattern operand: `fail MalformedBits`, or the rest of the operation on the pattern (R93). -/
def onPattern (v : Except ErrorKind Nat) (op : Nat → Response) : Response :=
  match v with
  | .error k => .error k
  | .ok v    => op v

end Sys2Proof.Machine
end

