-- ==== Sys2Proof/Machine/Packer.lean ====
section
/-!
DEFINITION. The Bit Packer/Unpacker and its operations PACK, UNPACK and FORMAT (`41_packer.md`).
-/
namespace Sys2Proof.Machine

/-- `pack(sign, exponent, mantissa, cfg)` exactly as R90 writes it: the fraction is masked, nothing else is. With
`unpackFields` it keeps R99's laws (a) to (c). -/
def packBits (c : PrecisionConfig) (sign exponent mantissa : Nat) : Nat :=
  (sign <<< (c.n - 1)) ||| (exponent <<< c.f) ||| (mantissa &&& c.fracMask)

/-- A BitFields triple as natural numbers, before it stands on the ports. -/
structure Fields where
  sign     : Nat
  exponent : Nat
  fraction : Nat
  deriving DecidableEq, Repr

/-- `unpack_fields(v, cfg)` (R92, R99). -/
def unpackFields (c : PrecisionConfig) (v : Nat) : Fields where
  sign := v / 2 ^ (c.n - 1)
  exponent := v / 2 ^ c.f % 2 ^ c.eb
  fraction := v % 2 ^ c.f

/-- The triple on the `fields` ports (R26). -/
def Fields.toPorts (t : Fields) : BitFields where
  sign := BitVec.ofNat 1 t.sign
  exponent := BitVec.ofNat 15 t.exponent
  fraction := BitVec.ofNat 112 t.fraction

/-- `zext_128` of a pattern (R8, R26). -/
def bitsPort (v : Nat) : BitsPort := BitVec.ofNat 128 v

/-- The character of a hexadecimal digit on output (R57, R97). -/
def hexChar (h : HexCase) (d : Nat) : CharCode :=
  if d < 10 then digitCode d
  else match h with
    | .upper => BitVec.ofNat 8 (0x41 + (d - 10))
    | .lower => BitVec.ofNat 8 (0x61 + (d - 10))

/-- `bin_str`: character `i` is the digit of bit `N-1-i` (R42, R97). -/
def binText (c : PrecisionConfig) (v : Nat) : Text :=
  (List.range c.n).map fun i => digitCode (v.testBit (c.n - 1 - i)).toNat

/-- `hex_str`: character `j` is the digit of bits `N-1-4j .. N-4-4j`; `N/4` characters, no prefix (R42, R97). -/
def hexText (h : HexCase) (c : PrecisionConfig) (v : Nat) : Text :=
  (List.range (c.n / 4)).map fun j => hexChar h (v / 2 ^ (c.n - 4 - 4 * j) % 16)

/-- `format(v, cfg)`: the strings of a pattern, the three substrings sliced from `bin_str` (R97). It keeps R99's
laws (d) and (e). -/
def formatGroup (h : HexCase) (c : PrecisionConfig) (v : Nat) : FormatGroup where
  hexStr := hexText h c v
  binStr := binText c v
  signStr := (binText c v).take 1
  expStr := ((binText c v).drop 1).take c.eb
  fracStr := ((binText c v).drop (c.eb + 1)).take c.f

/-- The domain check PACK and CLASSIFY make at the command boundary (R91, R121, R225). -/
def outOfFields (c : PrecisionConfig) (cmd : Command) : Bool :=
  decide (c.expMax < cmd.exponent.toNat) || decide (c.fracMask < cmd.fraction.toNat)

/-- PACK's own rule (R91). -/
def packResponse (c : PrecisionConfig) (cmd : Command) : Response :=
  if outOfFields c cmd then .error .operandRange
  else .packed (bitsPort (packBits c cmd.sign.toNat cmd.exponent.toNat cmd.fraction.toNat))

/-- UNPACK's own rule on a pattern (R96). -/
def unpackResponse (c : PrecisionConfig) (v : Nat) : Response :=
  .unpacked (unpackFields c v).toPorts

/-- FORMAT's own rule on a pattern (R98). -/
def formatResponse (h : HexCase) (c : PrecisionConfig) (v : Nat) : Response :=
  .formatted (bitsPort v) (formatGroup h c v)

/-- PACK (R91). -/
def execPack (p : PrecCode) (s : State) : Host.Outcome State Fault Refusal :=
  withPrecision p s fun q => packResponse (registry q) s.cmd

/-- UNPACK, form INT (R96). -/
def execUnpackInt (p : PrecCode) (s : State) : Host.Outcome State Fault Refusal :=
  withPrecision p s fun q =>
    onPattern (readPattern (registry q) .int s.cmd.intIn s.cmd.strIn) (unpackResponse (registry q))

/-- UNPACK, form STR (R96). -/
def execUnpackStr (p : PrecCode) (s : State) : Host.Outcome State Fault Refusal :=
  withPrecision p s fun q =>
    onPattern (readPattern (registry q) .str s.cmd.intIn s.cmd.strIn) (unpackResponse (registry q))

/-- FORMAT, form INT (R98). -/
def execFormatInt (p : PrecCode) (s : State) : Host.Outcome State Fault Refusal :=
  withPrecision p s fun q =>
    onPattern (readPattern (registry q) .int s.cmd.intIn s.cmd.strIn) (formatResponse s.build.hexOutCase (registry q))

/-- FORMAT, form STR (R98). -/
def execFormatStr (p : PrecCode) (s : State) : Host.Outcome State Fault Refusal :=
  withPrecision p s fun q =>
    onPattern (readPattern (registry q) .str s.cmd.intIn s.cmd.strIn) (formatResponse s.build.hexOutCase (registry q))

end Sys2Proof.Machine
end

