-- ==== Sys2Proof/Machine/Decoder.lean ====
section
/-!
DEFINITION. The Decoder and DECODE (`45_decoder.md`), and the CodecResult that ENCODE fills in the same way
(`44_encoder.md` R160).
-/
namespace Sys2Proof.Machine

/-- The abstract `Value` of R11. Every finite magnitude the unit or its host produces is dyadic, so it is held as
`sig * 2^exp2`, exactly. -/
inductive Value where
  | finite (sign : Bit) (sig : Nat) (exp2 : Int)
  | inf (sign : Bit)
  | nan
  deriving DecidableEq, Repr

/-- `value_of`: the value of a fields triple (R181, R182, R186). -/
def valueOf (c : PrecisionConfig) (t : Fields) : Value :=
  match classifyFields c.expMax t.exponent t.fraction with
  | .zero      => .finite (BitVec.ofNat 1 t.sign) 0 0
  | .subnormal => .finite (BitVec.ofNat 1 t.sign) t.fraction (1 - c.bias - c.f)
  | .normal    => .finite (BitVec.ofNat 1 t.sign) (2 ^ c.f + t.fraction) (t.exponent - c.bias - c.f)
  | .infinity  => .inf (BitVec.ofNat 1 t.sign)
  | .nan       => .nan

/-- Strips at most `fuel` factors of two from `m`: the rest, and how many were stripped (R183). -/
def stripTwos : (fuel : Nat) → (m : Nat) → Nat × Nat
  | 0,        m => (m, 0)
  | fuel + 1, m =>
    if m % 2 = 0 then
      let t := stripTwos fuel (m / 2)
      (t.1, t.2 + 1)
    else (m, 0)

/-- `(dec_coef, dec_exp10)` of `m * 2^e`, the shortest exact decimal (R183); both 0 for zero. -/
def shortestDecimal (m : Nat) (e : Int) : Nat × Int :=
  if m = 0 then (0, 0)
  else
    let t := stripTwos m.log2 m
    nativeDecimal t.1 (e + t.2)

/-- A Value on the `value` ports (R29). -/
def Value.toPorts : Value → ValueGroup
  | .finite s m e =>
    { kind := .finite, sign := s, sig := BitVec.ofNat 113 m, exp2 := BitVec.ofInt 16 e,
      decCoef := (shortestDecimal m e).1, decExp10 := (shortestDecimal m e).2 }
  | .inf s => { kind := .infinite, sign := s, sig := 0, exp2 := 0, decCoef := 0, decExp10 := 0 }
  | .nan   => { kind := .nan, sign := 0, sig := 0, exp2 := 0, decCoef := 0, decExp10 := 0 }

/-- The CodecResult of a triple and its pattern (R160, R186). -/
def codecResult (h : HexCase) (c : PrecisionConfig) (t : Fields) (v : Nat) : CodecResult where
  fields := t.toPorts
  bits := bitsPort v
  cls := classifyFields c.expMax t.exponent t.fraction
  value := (valueOf c t).toPorts
  fmt := formatGroup h c v

/-- What DECODE makes of a pattern (R186). -/
def decodePattern (h : HexCase) (c : PrecisionConfig) (v : Nat) : CodecResult :=
  codecResult h c (unpackFields c v) v

/-- DECODE's own rule on a pattern (R186). -/
def decodeResponse (h : HexCase) (c : PrecisionConfig) (v : Nat) : Response :=
  .decoded (decodePattern h c v)

/-- DECODE, form INT (R180). -/
def execDecodeInt (p : PrecCode) (s : State) : Host.Outcome State Fault Refusal :=
  withPrecision p s fun q =>
    onPattern (readPattern (registry q) .int s.cmd.intIn s.cmd.strIn) (decodeResponse s.build.hexOutCase (registry q))

/-- DECODE, form STR (R180). -/
def execDecodeStr (p : PrecCode) (s : State) : Host.Outcome State Fault Refusal :=
  withPrecision p s fun q =>
    onPattern (readPattern (registry q) .str s.cmd.intIn s.cmd.strIn) (decodeResponse s.build.hexOutCase (registry q))

end Sys2Proof.Machine
end

