-- ==== Sys2Proof/Machine/Encoder.lean ====
section
/-!
DEFINITION. The Encoder and ENCODE (`44_encoder.md`).
-/
namespace Sys2Proof.Machine

/-- What the rounding path computes of a magnitude: the unbiased exponent, the split scaled mantissa, the two carries,
and the resulting exponent and fraction fields (R155 to R159, R161). -/
structure Rounded where
  e          : Int
  split      : Split
  roundCarry : Bool
  expCarry   : Bool
  exponent   : Nat
  fraction   : Nat
  deriving DecidableEq, Repr

/-- The subnormal path (R157). `carried` is the exponent and fraction a carry-out ends in: ENCODE clamps to
`(0, frac_mask)`, the host's own rounding promotes to `(1, 0)` (R203). -/
def subnormalPath (c : PrecisionConfig) (carried : Nat × Nat) (x : Frac) (e : Int) : Rounded :=
  let y := grs (x.scale2 (c.f + c.bias - 1))
  let r := rne y c.f
  { e := e, split := y, roundCarry := r.2, expCarry := false,
    exponent := if r.2 then carried.1 else 0,
    fraction := if r.2 then carried.2 else r.1 }

/-- The normal path with its two overflow exits (R158, R159). -/
def normalPath (c : PrecisionConfig) (x : Frac) (e : Int) : Rounded :=
  let biased := (e + c.bias).toNat
  let y := grs ((x.scale2 (-e)).minusOne.scale2 c.f)
  if c.expMax ≤ biased then
    { e := e, split := y, roundCarry := false, expCarry := false, exponent := c.expMax, fraction := 0 }
  else
    let r := rne y c.f
    if r.2 = false then
      { e := e, split := y, roundCarry := false, expCarry := false, exponent := biased, fraction := r.1 }
    else if c.expMax ≤ biased + 1 then
      { e := e, split := y, roundCarry := true, expCarry := true, exponent := c.expMax, fraction := 0 }
    else
      { e := e, split := y, roundCarry := true, expCarry := true, exponent := biased + 1, fraction := 0 }

/-- The rounding path on a magnitude `x > 0`: the exponent (R155), then the path it selects (R156). -/
def roundMagnitude (c : PrecisionConfig) (carried : Nat × Nat) (x : Frac) : Rounded :=
  let e := floorLog2 x
  if e < 1 - c.bias then subnormalPath c carried x e else normalPath c x e

/-- The `aux` group of the rounding path (R161). -/
def Rounded.toAux (r : Rounded) : AuxGroup where
  preE := r.e
  preM := BitVec.ofNat 112 r.split.m
  g := r.split.g
  r := r.split.r
  s := r.split.s
  roundCarry := r.roundCarry
  expCarry := r.expCarry

/-- `finish(s, e, f)`: pack the fields and decode them back (R160, R163). -/
def finish (h : HexCase) (c : PrecisionConfig) (sign exponent fraction : Nat) : CodecResult :=
  codecResult h c { sign := sign, exponent := exponent, fraction := fraction } (packBits c sign exponent fraction)

/-- The NaN fields of forms NAN and INVALID (R153, R154). -/
def finishNan (b : Build) (q : Precision) : CodecResult :=
  finish b.hexOutCase (registry q) (b.nan q).sign.toNat (registry q).expMax (b.nan q).frac.toNat

/-- The whole of ENCODE after the decode step, but for the echo (R163). It keeps R168's laws. -/
def encodeOperand (b : Build) (q : Precision) : EncodeOperand → EncodeResult
  | .nan => { result := finishNan b q, aux := none, reason := .none }
  | .invalid => { result := finishNan b q, aux := none, reason := .invalidDecimalLiteral }
  | .inf sign =>
    { result := finish b.hexOutCase (registry q) sign.toNat (registry q).expMax 0, aux := none, reason := .none }
  | .finite sign coef exp10 =>
    if coef = 0 then
      { result := finish b.hexOutCase (registry q) sign.toNat 0 0, aux := none, reason := .none }
    else
      let r := roundMagnitude (registry q) (0, (registry q).fracMask) (dec coef exp10)
      { result := finish b.hexOutCase (registry q) sign.toNat r.exponent r.fraction, aux := some r.toAux,
        reason := .none }

/-- ENCODE, form FINITE (R150, R155 to R163). -/
def execEncodeFinite (p : PrecCode) (s : State) : Host.Outcome State Fault Refusal :=
  withPrecision p s fun q =>
    .encoded { inSign := s.cmd.sign, inKind := .finite, inMagnitude := some (s.cmd.coef, s.cmd.exp10) }
      (encodeOperand s.build q (.finite s.cmd.sign s.cmd.coef s.cmd.exp10))

/-- ENCODE, form INF (R152). -/
def execEncodeInf (p : PrecCode) (s : State) : Host.Outcome State Fault Refusal :=
  withPrecision p s fun q =>
    .encoded { inSign := s.cmd.sign, inKind := .inf, inMagnitude := none } (encodeOperand s.build q (.inf s.cmd.sign))

/-- ENCODE, form NAN (R153). The sign is echoed and otherwise ignored (R162). -/
def execEncodeNan (p : PrecCode) (s : State) : Host.Outcome State Fault Refusal :=
  withPrecision p s fun q =>
    .encoded { inSign := s.cmd.sign, inKind := .nan, inMagnitude := none } (encodeOperand s.build q .nan)

/-- ENCODE, form INVALID: an OK response with a reason, not a failure (R154, R223). -/
def execEncodeInvalid (p : PrecCode) (s : State) : Host.Outcome State Fault Refusal :=
  withPrecision p s fun q =>
    .encoded { inSign := s.cmd.sign, inKind := .invalid, inMagnitude := none } (encodeOperand s.build q .invalid)

end Sys2Proof.Machine
end

