-- ==== Sys2Proof/Machine/Arith.lean ====
section
/-!
DEFINITION. The Arithmetic Layer, FP_ADD and FP_MULTIPLY (`46_arith.md`): present only in a build with `HAS_ARITH`. It
composes the Decoder, the host's double-precision arithmetic and the Encoder (R200). That arithmetic is binary64 with
round-to-nearest-even (R203, R204, marked in the spec as general knowledge: log entry 9).
-/
namespace Sys2Proof.Machine

/-- `rn64(s, x)` for `x > 0`: rounding to binary64, where a carry out of the subnormals gives the smallest normal (R203). -/
def rn64 (sign : Bit) (x : Frac) : Value :=
  let r := roundMagnitude (registry .double) (1, 0) x
  valueOf (registry .double) { sign := sign.toNat, exponent := r.exponent, fraction := r.fraction }

/-- `sig * 2^exp2` as a rational. -/
def dyadic (sig : Nat) (exp2 : Int) : Frac := Frac.scale2 { num := sig, den := 1 } exp2

/-- `to_host(V, p)`: the identity at half, single and double and on infinities and NaN; a finite quad value becomes a
host double the spec does not settle, a free value (R202; log entry 10). -/
def toHost (q : Precision) (v : Value) : Value :=
  match q, v with
  | .quad, .finite s m e => valueOf (registry .double) (unpackFields (registry .double) (Config.toHostQuad s m e).toNat)
  | _,     v             => v

/-- `(-1)^s * n`. -/
def signed (s : Bit) (n : Nat) : Int := if s = 0 then n else -n

/-- `host_add` (R204): the exact sum rounded once; opposite zeros and exact cancellation give `+0`. -/
def hostAdd : Value → Value → Value
  | .nan, _ => .nan
  | _, .nan => .nan
  | .inf s, .inf t => if s = t then .inf s else .nan
  | .inf s, .finite _ _ _ => .inf s
  | .finite _ _ _, .inf t => .inf t
  | .finite s m e, .finite t n k =>
    let low := min e k
    let sum := signed s (m * 2 ^ (e - low).toNat) + signed t (n * 2 ^ (k - low).toNat)
    if sum = 0 then .finite (if s = t then s else 0) 0 0
    else rn64 (if sum < 0 then 1 else 0) (dyadic sum.natAbs low)

/-- `host_mul` (R204): the exact product rounded once; the sign is the exclusive-or of the operands' signs. -/
def hostMul : Value → Value → Value
  | .nan, _ => .nan
  | _, .nan => .nan
  | .inf s, .inf t => .inf (s ^^^ t)
  | .inf s, .finite t n _ => if n = 0 then .nan else .inf (s ^^^ t)
  | .finite s m _, .inf t => if m = 0 then .nan else .inf (s ^^^ t)
  | .finite s m e, .finite t n k =>
    if m * n = 0 then .finite (s ^^^ t) 0 0 else rn64 (s ^^^ t) (dyadic (m * n) (e + k))

/-- The host's operation. -/
def hostOp : ArithOp → Value → Value → Value
  | .add      => hostAdd
  | .multiply => hostMul

/-- R205: the operand form and the exact decimal with which a host result is encoded. -/
def hostOperand : Value → EncodeOperand
  | .nan          => .nan
  | .inf s        => .inf s
  | .finite s m e => .finite s (shortestDecimal m e).1 (shortestDecimal m e).2

/-- The two Values stand for the same real number, for finite ones (R11). -/
def sameReal (s : Bit) (m : Nat) (e : Int) (t : Bit) (n : Nat) (k : Int) : Bool :=
  let low := min e k
  decide (signed s (m * 2 ^ (e - low).toNat) = signed t (n * 2 ^ (k - low).toNat))

/-- `exact_match` of the re-encoded value and the host's result: a host's equality test (R206). -/
def exactMatch : Value → Value → Bool
  | .inf s, .inf t => decide (s = t)
  | .finite s m e, .finite t n k => sameReal s m e t n k
  | _, _ => false

/-- The echo of the inner ENCODE (R162, R205). For a NaN result its sign is a free value (log entry 11). -/
def hostEcho (op : ArithOp) (q : Precision) (va vb : Nat) : Value → EchoGroup
  | .nan          => { inSign := Config.nanEchoSign op q va vb, inKind := .nan, inMagnitude := none }
  | .inf s        => { inSign := s, inKind := .inf, inMagnitude := none }
  | .finite s m e => { inSign := s, inKind := .finite, inMagnitude := some (shortestDecimal m e) }

/-- The value of a triple that stands on the ports. -/
def valueOfPorts (c : PrecisionConfig) (t : BitFields) : Value :=
  valueOf c { sign := t.sign.toNat, exponent := t.exponent.toNat, fraction := t.fraction.toNat }

/-- FP_ADD's and FP_MULTIPLY's own rule on two patterns (R207, R208). -/
def arithResponse (op : ArithOp) (b : Build) (q : Precision) (va vb : Nat) : Response :=
  let c := registry q
  let host := hostOp op (toHost q (valueOf c (unpackFields c va))) (toHost q (valueOf c (unpackFields c vb)))
  let enc := encodeOperand b q (hostOperand host)
  .arith (hostEcho op q va vb host) enc (exactMatch (valueOfPorts c enc.result.fields) host)

/-- The operation on the operands of the command record, either of which may be malformed (R207). -/
def arithOn (op : ArithOp) (fa fb : OperandForm) (s : State) (q : Precision) : Response :=
  onPattern (readPattern (registry q) fa s.cmd.intIn s.cmd.strIn) fun va =>
    onPattern (readPattern (registry q) fb s.cmd.intInB s.cmd.strInB) fun vb =>
      arithResponse op s.build q va vb

/-- FP_ADD (R207). -/
def execFpAdd (p : PrecCode) (a b : OperandForm) (s : State) : Host.Outcome State Fault Refusal :=
  withArith s (withPrecision p s (arithOn .add a b s))

/-- FP_MULTIPLY (R208). -/
def execFpMultiply (p : PrecCode) (a b : OperandForm) (s : State) : Host.Outcome State Fault Refusal :=
  withArith s (withPrecision p s (arithOn .multiply a b s))

end Sys2Proof.Machine
end

