-- ==== Sys2Proof/Machine/Classifier.lean ====
section
/-!
DEFINITION. CLASSIFY (`42_classifier.md` R121).
-/
namespace Sys2Proof.Machine

/-- CLASSIFY's own rule (R121). -/
def classifyResponse (c : PrecisionConfig) (cmd : Command) : Response :=
  if outOfFields c cmd then .error .operandRange
  else .classified (classifyFields c.expMax cmd.exponent.toNat cmd.fraction.toNat)

/-- CLASSIFY (R121). -/
def execClassify (p : PrecCode) (s : State) : Host.Outcome State Fault Refusal :=
  withPrecision p s fun q => classifyResponse (registry q) s.cmd

end Sys2Proof.Machine
end

