-- ==== Sys2Proof/Machine/ConfigFor.lean ====
section
/-!
DEFINITION. CONFIG_FOR (`40_registry.md` R80).
-/
namespace Sys2Proof.Machine

/-- A registry row on the `config` ports (R26, R80). -/
def configGroup (c : PrecisionConfig) : ConfigGroup where
  totalBits := BitVec.ofNat 8 c.n
  expBits := BitVec.ofNat 4 c.eb
  fracBits := BitVec.ofNat 7 c.f
  bias := BitVec.ofNat 15 c.bias
  expMax := BitVec.ofNat 15 c.expMax
  fracMask := BitVec.ofNat 112 c.fracMask

/-- CONFIG_FOR (R80). -/
def execConfigFor (p : PrecCode) (s : State) : Host.Outcome State Fault Refusal :=
  withPrecision p s fun q => .config (configGroup (registry q))

end Sys2Proof.Machine
end

