-- ==== Sys2Proof/Machine/Rounding.lean ====
section
/-!
DEFINITION. ROUND_RNE (`43_rounding.md` R133): the Rounding Engine on operands of the command record.
-/
namespace Sys2Proof.Machine

/-- The part of ROUND_RNE both forms share: the precondition of R132, then `rne` (R133). -/
def roundResponse (c : PrecisionConfig) (y : Split) : Response :=
  if c.fracMask < y.m then .error .operandRange
  else .rounded (BitVec.ofNat 112 (rne y c.f).1) (rne y c.f).2

/-- Form RATIONAL: the unit splits `num/den` itself; a zero denominator is refused (R133). -/
def roundRationalResponse (c : PrecisionConfig) (cmd : Command) : Response :=
  if cmd.den = 0 then .error .operandRange
  else roundResponse c (grs { num := cmd.num, den := cmd.den })

/-- Form PRESPLIT: the host's integer part and bits are taken at face value (R133). -/
def roundPresplitResponse (c : PrecisionConfig) (cmd : Command) : Response :=
  roundResponse c { m := cmd.mIn.toNat, g := cmd.gIn, r := cmd.rIn, s := cmd.sIn }

/-- ROUND_RNE, form RATIONAL (R133). -/
def execRoundRational (p : PrecCode) (s : State) : Host.Outcome State Fault Refusal :=
  withPrecision p s fun q => roundRationalResponse (registry q) s.cmd

/-- ROUND_RNE, form PRESPLIT (R133). -/
def execRoundPresplit (p : PrecCode) (s : State) : Host.Outcome State Fault Refusal :=
  withPrecision p s fun q => roundPresplitResponse (registry q) s.cmd

end Sys2Proof.Machine
end

