-- ==== Sys2Proof/Machine/Dispatch.lean ====
section
/-!
DEFINITION. One arm per instruction.
-/
namespace Sys2Proof.Machine

/-- The meaning of an instruction: the command on the command port is answered on the response port. -/
def exec (i : Instr) (s : State) : Host.Outcome State Fault Refusal :=
  match i with
  | .configFor p => Sys2Proof.Machine.execConfigFor p s
  | .pack p => Sys2Proof.Machine.execPack p s
  | .unpackInt p => Sys2Proof.Machine.execUnpackInt p s
  | .unpackStr p => Sys2Proof.Machine.execUnpackStr p s
  | .formatInt p => Sys2Proof.Machine.execFormatInt p s
  | .formatStr p => Sys2Proof.Machine.execFormatStr p s
  | .classify p => Sys2Proof.Machine.execClassify p s
  | .roundRational p => Sys2Proof.Machine.execRoundRational p s
  | .roundPresplit p => Sys2Proof.Machine.execRoundPresplit p s
  | .encodeFinite p => Sys2Proof.Machine.execEncodeFinite p s
  | .encodeInf p => Sys2Proof.Machine.execEncodeInf p s
  | .encodeNan p => Sys2Proof.Machine.execEncodeNan p s
  | .encodeInvalid p => Sys2Proof.Machine.execEncodeInvalid p s
  | .decodeInt p => Sys2Proof.Machine.execDecodeInt p s
  | .decodeStr p => Sys2Proof.Machine.execDecodeStr p s
  | .fpAdd p a b => Sys2Proof.Machine.execFpAdd p a b s
  | .fpMultiply p a b => Sys2Proof.Machine.execFpMultiply p a b s

end Sys2Proof.Machine
end

