-- ==== Sys2Proof/Machine/Step.lean ====
section
/-!
DEFINITION. One step of the machine: one command (`70_reset_and_hazards.md` R254), answered in the order of R55.
-/
namespace Sys2Proof.Machine

/-- The unit takes the oldest issued command; a word that spells no instruction is answered `ERR_ILLEGAL_COMMAND`
(R54, R55 step 1), any other is executed. With no command issued the unit begins nothing on its own (R252). -/
def step (s : State) : Host.Outcome State Fault Refusal :=
  match s.pending with
  | [] => .next s
  | c :: rest =>
    match decode c.word with
    | .error _ => .next ((s.take c rest).fail .illegalCommand)
    | .ok i    => exec i (s.take c rest)

/-- `s` with the table word `w` as the word of the command the unit takes next. The operand fields of a command that is
already issued are kept; where none is issued they are 0 or empty. -/
def State.withFetchWord (s : State) (nbits w : Nat) : State :=
  { s with
    pending :=
      { s.pending.headD (Command.ofWord 0) with word := BitVec.ofNat 16 (w % 2 ^ nbits) } :: s.pending.tail }

end Sys2Proof.Machine
end

