-- ==== Sys2Proof/Machine/Assembler.lean ====
section
/-!
DEFINITION. The host's side of a command: the command lines of `30_encoding.md` R62 as data, the command record each
one writes, and the two pseudo-instructions of R63. The unit reads none of this.
-/
namespace Sys2Proof.Machine

/-- A bit-pattern operand as a command line writes it: `#v` or `"text"` (R62). -/
inductive PatternOperand where
  | int (v : Nat)
  | str (text : Text)
  deriving DecidableEq, Repr

/-- A command line (R62); the operands select the form. -/
inductive AsmLine where
  | configFor (p : PrecCode)
  | pack (p : PrecCode) (sign : Bit) (exponent : ExponentPort) (fraction : FractionPort)
  | unpack (p : PrecCode) (a : PatternOperand)
  | format (p : PrecCode) (a : PatternOperand)
  | decode (p : PrecCode) (a : PatternOperand)
  | classify (p : PrecCode) (exponent : ExponentPort) (fraction : FractionPort)
  | roundRational (p : PrecCode) (num den : Nat)
  | roundPresplit (p : PrecCode) (m : BitVec 113) (g r s : Bool)
  | encodeFinite (p : PrecCode) (sign : Bit) (coef : Nat) (exp10 : Int)
  | encodeInf (p : PrecCode) (sign : Bit)
  | encodeNan (p : PrecCode)
  | encodeInvalid (p : PrecCode)
  | fpAdd (p : PrecCode) (a b : PatternOperand)
  | fpMultiply (p : PrecCode) (a b : PatternOperand)
  deriving DecidableEq, Repr

/-- The form an operand selects (R62). -/
def PatternOperand.form : PatternOperand → OperandForm
  | .int _ => .int
  | .str _ => .str

/-- The instruction a command line names (R62). -/
def AsmLine.instr : AsmLine → Instr
  | .configFor p             => .configFor p
  | .pack p _ _ _            => .pack p
  | .unpack p (.int _)       => .unpackInt p
  | .unpack p (.str _)       => .unpackStr p
  | .format p (.int _)       => .formatInt p
  | .format p (.str _)       => .formatStr p
  | .decode p (.int _)       => .decodeInt p
  | .decode p (.str _)       => .decodeStr p
  | .classify p _ _          => .classify p
  | .roundRational p _ _     => .roundRational p
  | .roundPresplit p _ _ _ _ => .roundPresplit p
  | .encodeFinite p _ _ _    => .encodeFinite p
  | .encodeInf p _           => .encodeInf p
  | .encodeNan p             => .encodeNan p
  | .encodeInvalid p         => .encodeInvalid p
  | .fpAdd p a b             => .fpAdd p a.form b.form
  | .fpMultiply p a b        => .fpMultiply p a.form b.form

/-- Operand a on its port. -/
def Command.withA (c : Command) : PatternOperand → Command
  | .int v => { c with intIn := v }
  | .str t => { c with strIn := t }

/-- Operand b on its port. -/
def Command.withB (c : Command) : PatternOperand → Command
  | .int v => { c with intInB := v }
  | .str t => { c with strInB := t }

/-- The command record a command line writes: its word, its operands, and 0 or empty in every field it does not name. -/
def assemble (l : AsmLine) : Command :=
  let c := Command.ofWord (encode l.instr)
  match l with
  | .configFor _             => c
  | .pack _ s e f            => { c with sign := s, exponent := e, fraction := f }
  | .unpack _ a              => c.withA a
  | .format _ a              => c.withA a
  | .decode _ a              => c.withA a
  | .classify _ e f          => { c with exponent := e, fraction := f }
  | .roundRational _ n d     => { c with num := n, den := d }
  | .roundPresplit _ m g r s => { c with mIn := m, gIn := g, rIn := r, sIn := s }
  | .encodeFinite _ s k x    => { c with sign := s, coef := k, exp10 := x }
  | .encodeInf _ s           => { c with sign := s }
  | .encodeNan _             => c
  | .encodeInvalid _         => c
  | .fpAdd _ a b             => (c.withA a).withB b
  | .fpMultiply _ a b        => (c.withA a).withB b

/-- What the host of R58 may have: a finite number `(-1)^sign * coef * 10^exp10`, a native binary number
`(-1)^sign * m * 2^e`, an infinity, a NaN, or a string that is no decimal literal. -/
inductive HostNumber where
  | decimal (sign : Bit) (coef : Nat) (exp10 : Int)
  | native (sign : Bit) (m : Nat) (e : Int)
  | inf (sign : Bit)
  | nan
  | notALiteral
  deriving DecidableEq, Repr

/-- `TO_IEEE754.p value` (R63). -/
def toIeee754 (p : PrecCode) : HostNumber → AsmLine
  | .decimal s k x => .encodeFinite p s k x
  | .native s m e  => .encodeFinite p s (nativeDecimal m e).1 (nativeDecimal m e).2
  | .inf s         => .encodeInf p s
  | .nan           => .encodeNan p
  | .notALiteral   => .encodeInvalid p

/-- `FROM_IEEE754.p bits` (R63). -/
def fromIeee754 (p : PrecCode) (a : PatternOperand) : AsmLine := .decode p a

/-- The host issues a program: a list of commands, after those it has already issued (R22). -/
def State.issue (s : State) (cs : List Command) : State := { s with pending := s.pending ++ cs }

end Sys2Proof.Machine
end

