-- ==== Sys2Proof/Machine/Ports.lean ====
section
/-!
DEFINITION. The response record seen from the host: the numeric codes on the ports (R26, R28, R29, R220), and the table
of R26 that says which field is meaningful for which operation, as one accessor a group (`none`: not meaningful).
-/
namespace Sys2Proof.Machine

/-- `status` of an error (R220). -/
def ErrorKind.code : ErrorKind → BitVec 4
  | .unknownPrecision => 1
  | .malformedBits    => 2
  | .illegalCommand   => 3
  | .operandRange     => 4

/-- `cls` (R28). -/
def Class.code : Class → BitVec 3
  | .zero      => 0
  | .subnormal => 1
  | .normal    => 2
  | .infinity  => 3
  | .nan       => 4

/-- `val_kind` (R26, R29). -/
def ValKind.code : ValKind → BitVec 2
  | .finite   => 0
  | .infinite => 1
  | .nan      => 2

/-- `in_kind`: the command's `kind` bits (R53, R162). -/
def EncodeForm.code : EncodeForm → BitVec 2
  | .finite  => 0
  | .inf     => 1
  | .nan     => 2
  | .invalid => 3

/-- `reason` (R26). -/
def Reason.code : Reason → BitVec 2
  | .none                  => 0
  | .invalidDecimalLiteral => 1

/-- `status`, always meaningful (R26). -/
def Response.status : Response → BitVec 4
  | .error k => k.code
  | .config _ | .packed _ | .unpacked _ | .formatted _ _ | .classified _ | .rounded _ _ | .encoded _ _ | .decoded _
  | .arith _ _ _ => 0

/-- `total_bits` to `frac_mask`: CONFIG_FOR. -/
def Response.config? : Response → Option ConfigGroup
  | .config g => some g
  | .error _ | .packed _ | .unpacked _ | .formatted _ _ | .classified _ | .rounded _ _ | .encoded _ _ | .decoded _
  | .arith _ _ _ => none

/-- The CodecResult groups together: ENCODE, DECODE, FP_* (R160, R186, R205). -/
def Response.codec? : Response → Option CodecResult
  | .encoded _ e => some e.result
  | .decoded r   => some r
  | .arith _ e _ => some e.result
  | .error _ | .config _ | .packed _ | .unpacked _ | .formatted _ _ | .classified _ | .rounded _ _ => none

/-- `sign`, `exponent`, `fraction`: UNPACK, ENCODE, DECODE, FP_*. -/
def Response.fields? : Response → Option BitFields
  | .unpacked f    => some f
  | .encoded _ e   => some e.result.fields
  | .decoded r     => some r.fields
  | .arith _ e _   => some e.result.fields
  | .error _ | .config _ | .packed _ | .formatted _ _ | .classified _ | .rounded _ _ => none

/-- `bits`: PACK, FORMAT, ENCODE, DECODE, FP_*. -/
def Response.bits? : Response → Option BitsPort
  | .packed b      => some b
  | .formatted b _ => some b
  | .encoded _ e   => some e.result.bits
  | .decoded r     => some r.bits
  | .arith _ e _   => some e.result.bits
  | .error _ | .config _ | .unpacked _ | .classified _ | .rounded _ _ => none

/-- `cls`: CLASSIFY, ENCODE, DECODE, FP_*. -/
def Response.cls? : Response → Option Class
  | .classified c => some c
  | .encoded _ e  => some e.result.cls
  | .decoded r    => some r.cls
  | .arith _ e _  => some e.result.cls
  | .error _ | .config _ | .packed _ | .unpacked _ | .formatted _ _ | .rounded _ _ => none

/-- The `value` group: ENCODE, DECODE, FP_*. -/
def Response.value? : Response → Option ValueGroup
  | .encoded _ e => some e.result.value
  | .decoded r   => some r.value
  | .arith _ e _ => some e.result.value
  | .error _ | .config _ | .packed _ | .unpacked _ | .formatted _ _ | .classified _ | .rounded _ _ => none

/-- The `fmt` group: FORMAT, ENCODE, DECODE, FP_*. -/
def Response.fmt? : Response → Option FormatGroup
  | .formatted _ f => some f
  | .encoded _ e   => some e.result.fmt
  | .decoded r     => some r.fmt
  | .arith _ e _   => some e.result.fmt
  | .error _ | .config _ | .packed _ | .unpacked _ | .classified _ | .rounded _ _ => none

/-- `rnd_mant` and `rnd_carry`: ROUND_RNE. -/
def Response.round? : Response → Option (BitVec 112 × Bool)
  | .rounded m c => some (m, c)
  | .error _ | .config _ | .packed _ | .unpacked _ | .formatted _ _ | .classified _ | .encoded _ _ | .decoded _
  | .arith _ _ _ => none

/-- The `echo` group: ENCODE, and FP_* (R205). -/
def Response.echo? : Response → Option EchoGroup
  | .encoded e _ => some e
  | .arith e _ _ => some e
  | .error _ | .config _ | .packed _ | .unpacked _ | .formatted _ _ | .classified _ | .rounded _ _ | .decoded _ => none

/-- `aux_valid`: ENCODE, and FP_* (R205). -/
def Response.auxValid? : Response → Option Bool
  | .encoded _ e => some e.aux.isSome
  | .arith _ e _ => some e.aux.isSome
  | .error _ | .config _ | .packed _ | .unpacked _ | .formatted _ _ | .classified _ | .rounded _ _ | .decoded _ => none

/-- The rest of the `aux` group: ENCODE and FP_* with `aux_valid = 1`. -/
def Response.aux? : Response → Option AuxGroup
  | .encoded _ e => e.aux
  | .arith _ e _ => e.aux
  | .error _ | .config _ | .packed _ | .unpacked _ | .formatted _ _ | .classified _ | .rounded _ _ | .decoded _ => none

/-- `reason`: ENCODE, and FP_* (R205). -/
def Response.reason? : Response → Option Reason
  | .encoded _ e => some e.reason
  | .arith _ e _ => some e.reason
  | .error _ | .config _ | .packed _ | .unpacked _ | .formatted _ _ | .classified _ | .rounded _ _ | .decoded _ => none

/-- `exact_match`: FP_ADD, FP_MULTIPLY. -/
def Response.exactMatch? : Response → Option Bool
  | .arith _ _ m => some m
  | .error _ | .config _ | .packed _ | .unpacked _ | .formatted _ _ | .classified _ | .rounded _ _ | .encoded _ _
  | .decoded _ => none

end Sys2Proof.Machine
end

