-- ==== Sys2Proof/Safety.lean ====
section
/-!
DEFINITION. The terms claims are stated in: what a safe run is, the invariant of the machine, which operand fields an
instruction reads, which words are illegal, and the rational numbers that the model's records stand for.
-/
namespace Sys2Proof.Machine

/-- `k` steps from `s` end in a state: no fault, no refusal on the way (R255). -/
def SafeFor (k : Nat) (s : State) : Prop := ∃ t, Host.Core.run Sys2Proof.core k s = .next t

/-- R54's list of the illegal words, by arithmetic on the word. -/
def IllegalWord (hasArith : Bool) (w : Word) : Prop :=
  let op := w.toNat / 2 ^ 12
  let kind := w.toNat / 2 ^ 7 % 2 ^ 2
  let rsv := w.toNat % 2 ^ 7
  rsv ≠ 0 ∨ op = 0 ∨ 0xB ≤ op ∨ ((op = 0x9 ∨ op = 0xA) ∧ hasArith = false)
    ∨ ((op = 0x1 ∨ op = 0x2 ∨ op = 0x5) ∧ kind ≠ 0)
    ∨ ((op = 0x3 ∨ op = 0x4 ∨ op = 0x6 ∨ op = 0x8) ∧ 2 ≤ kind)

/-- The command with every field that R25 does not let instruction `i` read set to 0 or empty. -/
def onlyRead (i : Instr) (c : Command) : Command :=
  let z := Command.ofWord c.word
  let a (form : OperandForm) (d : Command) : Command :=
    match form with
    | .int => { d with intIn := c.intIn }
    | .str => { d with strIn := c.strIn }
  let b (form : OperandForm) (d : Command) : Command :=
    match form with
    | .int => { d with intInB := c.intInB }
    | .str => { d with strInB := c.strInB }
  match i with
  | .configFor _     => z
  | .pack _          => { z with sign := c.sign, exponent := c.exponent, fraction := c.fraction }
  | .unpackInt _     => a .int z
  | .unpackStr _     => a .str z
  | .formatInt _     => a .int z
  | .formatStr _     => a .str z
  | .classify _      => { z with exponent := c.exponent, fraction := c.fraction }
  | .roundRational _ => { z with num := c.num, den := c.den }
  | .roundPresplit _ => { z with mIn := c.mIn, gIn := c.gIn, rIn := c.rIn, sIn := c.sIn }
  | .encodeFinite _  => { z with sign := c.sign, coef := c.coef, exp10 := c.exp10 }
  | .encodeInf _     => { z with sign := c.sign }
  | .encodeNan _     => { z with sign := c.sign }
  | .encodeInvalid _ => { z with sign := c.sign }
  | .decodeInt _     => a .int z
  | .decodeStr _     => a .str z
  | .fpAdd _ f g      => b g (a f z)
  | .fpMultiply _ f g => b g (a f z)

/-- The errors an instruction of the build can answer with besides `ERR_UNKNOWN_PRECISION`, by the table of R220. -/
def mayAnswer (i : Instr) : ErrorKind → Prop
  | .unknownPrecision => True
  | .malformedBits =>
    match i with
    | .unpackInt _ | .unpackStr _ | .formatInt _ | .formatStr _ | .decodeInt _ | .decodeStr _ | .fpAdd _ _ _
    | .fpMultiply _ _ _ => True
    | .configFor _ | .pack _ | .classify _ | .roundRational _ | .roundPresplit _ | .encodeFinite _ | .encodeInf _
    | .encodeNan _ | .encodeInvalid _ => False
  | .operandRange =>
    match i with
    | .pack _ | .classify _ | .roundRational _ | .roundPresplit _ => True
    | .configFor _ | .unpackInt _ | .unpackStr _ | .formatInt _ | .formatStr _ | .encodeFinite _ | .encodeInf _
    | .encodeNan _ | .encodeInvalid _ | .decodeInt _ | .decodeStr _ | .fpAdd _ _ _ | .fpMultiply _ _ _ => False
  | .illegalCommand => False

/-! ### The numbers the records stand for -/

/-- The rational a `Frac` stands for. -/
def Frac.rat (x : Frac) : ℚ := x.num / x.den

/-- `coef * 10^exp10` (R12). -/
def decRat (coef : Nat) (exp10 : Int) : ℚ := coef * (10 : ℚ) ^ exp10

/-- The magnitude a `value` group stands for, `val_sig * 2^val_exp2` (R29). -/
def ValueGroup.magnitude (v : ValueGroup) : ℚ := v.sig.toNat * (2 : ℚ) ^ v.exp2.toInt

/-- The magnitude of a finite fields pair by the formulas of R181: `(f / 2^F) * 2^(1-bias)` with exponent 0, else
`(1 + f / 2^F) * 2^(e-bias)`. -/
def fieldsMagnitude (c : PrecisionConfig) (e f : Nat) : ℚ :=
  if e = 0 then (f / 2 ^ c.f : ℚ) * (2 : ℚ) ^ (1 - c.bias : ℤ)
  else (1 + f / 2 ^ c.f : ℚ) * (2 : ℚ) ^ (e - c.bias : ℤ)

/-- The real number a finite value group stands for, sign included (R11). -/
def ValueGroup.real (v : ValueGroup) : ℚ := (-1) ^ v.sign.toNat * v.magnitude

/-- `n` is the integer nearest to `y`, the even one of two equally near (R135). -/
def NearestEven (y : ℚ) (n : Nat) : Prop :=
  |y - n| ≤ 1 / 2 ∧ (|y - n| = 1 / 2 → n % 2 = 0)

/-- `(m, g, r, s)` is the split of `y` by the definition of R130: `m = floor(y)`, and with `d = y - m`, `g = floor(2d)`,
`r = floor(4d) mod 2`, and `s` says whether `4d` is no integer. -/
def IsSplit (y : ℚ) (m : Nat) (g r s : Bool) : Prop :=
  (m : ℤ) = ⌊y⌋ ∧ (g.toNat : ℤ) = ⌊2 * (y - m)⌋ ∧ (r.toNat : ℤ) = ⌊4 * (y - m)⌋ % 2
    ∧ (s = true ↔ 4 * (y - m) ≠ ⌊4 * (y - m)⌋)

/-- The round-up decision as R131 words it. -/
def RoundsUp (m : Nat) (g r s : Bool) : Prop :=
  (g = true ∧ (r = true ∨ s = true)) ∨ (g = true ∧ r = false ∧ s = false ∧ m % 2 = 1)

/-- The finite pair `(e, f)` of precision `c` is a representable value nearest to `x`, and if another representable
value is equally near then `f` is even (R165). -/
def NearestValue (c : PrecisionConfig) (x : ℚ) (e f : Nat) : Prop :=
  ∀ e' f' : Nat, e' < c.expMax → f' ≤ c.fracMask →
    |x - fieldsMagnitude c e f| ≤ |x - fieldsMagnitude c e' f'|
    ∧ (|x - fieldsMagnitude c e f| = |x - fieldsMagnitude c e' f'| →
        fieldsMagnitude c e f = fieldsMagnitude c e' f' ∨ f % 2 = 0)

/-- `2^(1-bias)`, the smallest normal value (R84). -/
def minNormal (c : PrecisionConfig) : ℚ := (2 : ℚ) ^ (1 - c.bias : ℤ)

/-- `2^(-bias-F)`, half the smallest subnormal value (R164). -/
def halfMinSubnormal (c : PrecisionConfig) : ℚ := (2 : ℚ) ^ (-(c.bias : ℤ) - c.f)

/-- `(2^(F+1) - 1) * 2^(-bias-F)`, the lower end of the clamp interval (R166). -/
def clampFrom (c : PrecisionConfig) : ℚ := (2 ^ (c.f + 1) - 1 : ℚ) * (2 : ℚ) ^ (-(c.bias : ℤ) - c.f)

/-- `(2^(F+2) - 1) * 2^(bias-F-1)`, from which on a magnitude encodes as infinity (R164). -/
def infinityFrom (c : PrecisionConfig) : ℚ := (2 ^ (c.f + 2) - 1 : ℚ) * (2 : ℚ) ^ ((c.bias : ℤ) - c.f - 1)

/-! ### Digit strings -/

/-- `c` is the character of the binary digit `d` (R57, R94). -/
def IsBinDigit (c : CharCode) (d : Nat) : Prop := d < 2 ∧ c.toNat = 0x30 + d

/-- `c` is a character of the hexadecimal digit `d`, of either case (R57, R95). -/
def IsHexDigit (c : CharCode) (d : Nat) : Prop :=
  (d < 10 ∧ c.toNat = 0x30 + d) ∨ (10 ≤ d ∧ d < 16 ∧ (c.toNat = 0x41 + (d - 10) ∨ c.toNat = 0x61 + (d - 10)))

/-- The value of a digit sequence, most significant first (R42). -/
def positional (base : Nat) (ds : List Nat) : Nat := Nat.ofDigits base ds.reverse

/-- The string is a pattern of the precision, of value `v`: hexadecimal after `0x` or `0X` with at least one digit and a
value below `2^N` (R95), or else `N` binary digits (R94); the prefix alone tells the two apart (R57). -/
def IsPatternText (c : PrecisionConfig) (text : Text) (v : Nat) : Prop :=
  (∃ x digits ds, text = 0x30 :: x :: digits ∧ (x = 0x78 ∨ x = 0x58) ∧ digits ≠ []
    ∧ List.Forall₂ IsHexDigit digits ds ∧ v = positional 16 ds ∧ v ≤ 2 ^ c.n - 1)
  ∨ (¬ ∃ x digits, text = 0x30 :: x :: digits ∧ (x = 0x78 ∨ x = 0x58)) ∧ text.length = c.n
    ∧ ∃ ds, List.Forall₂ IsBinDigit text ds ∧ v = positional 2 ds

/-- The operand, in its form, is the pattern `v` of the precision (R93). -/
def IsPattern (c : PrecisionConfig) (form : OperandForm) (int : Nat) (text : Text) (v : Nat) : Prop :=
  match form with
  | .int => v = int ∧ int ≤ 2 ^ c.n - 1
  | .str => IsPatternText c text v

/-- The strings of the pattern `v`, character by character (R97): the binary digits of bits `N-1` to `0`, the hexadecimal
digits in the case `h` without a prefix, and the three substrings by their lengths. -/
def StringsFit (h : HexCase) (c : PrecisionConfig) (v : Nat) (g : FormatGroup) : Prop :=
  g.binStr.length = c.n
  ∧ (∀ k, k < c.n → g.binStr[k]? = some (if v / 2 ^ (c.n - 1 - k) % 2 = 1 then 0x31 else 0x30))
  ∧ g.hexStr.length = c.n / 4
  ∧ (∀ j, j < c.n / 4 → ∃ ch, g.hexStr[j]? = some ch ∧ IsHexDigit ch (v / 2 ^ (c.n - 4 - 4 * j) % 16)
      ∧ (h = .upper → ch.toNat < 0x61) ∧ (h = .lower → ch.toNat < 0x41 ∨ 0x61 ≤ ch.toNat))
  ∧ g.binStr = g.signStr ++ g.expStr ++ g.fracStr
  ∧ g.signStr.length = 1 ∧ g.expStr.length = c.eb ∧ g.fracStr.length = c.f

/-- The laws of the packer that R99 lists, for one row: (a) and (b) `pack` and `unpack_fields` invert each other, (c)
`unpack_fields` is a bijection onto the triples of the precision, (d) both strings of `format` read back as the pattern, (e)
the binary string is its three substrings. -/
structure PackerLaws (h : HexCase) (c : PrecisionConfig) : Prop where
  pack_unpack : ∀ v, v < 2 ^ c.n →
    packBits c (unpackFields c v).sign (unpackFields c v).exponent (unpackFields c v).fraction = v
  unpack_pack : ∀ s e f, s ≤ 1 → e ≤ c.expMax → f ≤ c.fracMask →
    unpackFields c (packBits c s e f) = { sign := s, exponent := e, fraction := f }
  unpack_bijective : Set.BijOn (unpackFields c) {v | v < 2 ^ c.n}
    {t | t.sign ≤ 1 ∧ t.exponent ≤ c.expMax ∧ t.fraction ≤ c.fracMask}
  read_binStr : ∀ v n, v < 2 ^ c.n → readPattern c .str n (formatGroup h c v).binStr = .ok v
  read_hexStr : ∀ v n, v < 2 ^ c.n → readPattern c .str n (0x30 :: 0x78 :: (formatGroup h c v).hexStr) = .ok v
  binStr_split : ∀ v, (formatGroup h c v).binStr =
    (formatGroup h c v).signStr ++ (formatGroup h c v).expStr ++ (formatGroup h c v).fracStr

/-! ### The invariant -/

/-- R27: the triple is one of the precision's. -/
def FieldsFit (c : PrecisionConfig) (t : BitFields) : Prop :=
  t.exponent.toNat ≤ c.expMax ∧ t.fraction.toNat ≤ c.fracMask

/-- The pattern of a triple, `sign * 2^(N-1) + exponent * 2^F + fraction` (R90 within its contract). -/
def patternOf (c : PrecisionConfig) (t : BitFields) : Nat :=
  t.sign.toNat * 2 ^ (c.n - 1) + t.exponent.toNat * 2 ^ c.f + t.fraction.toNat

/-- The CodecResult is the one DECODE gives for its own `bits`, which are a pattern of the precision (R160). -/
def CodecFits (h : HexCase) (c : PrecisionConfig) (r : CodecResult) : Prop :=
  r.bits.toNat < 2 ^ c.n ∧ FieldsFit c r.fields ∧ r = decodePattern h c r.bits.toNat

/-- The `value` group of a CodecResult is the one R181 gives its fields and class; infinity and NaN carry zeros (D34). -/
def ValueFits (c : PrecisionConfig) (r : CodecResult) : Prop :=
  let e := r.fields.exponent.toNat
  let f := r.fields.fraction.toNat
  match r.cls with
  | .zero      => e = 0 ∧ f = 0 ∧ r.value.kind = .finite ∧ r.value.sign = r.fields.sign ∧ r.value.magnitude = 0
  | .subnormal => e = 0 ∧ f ≠ 0 ∧ r.value.kind = .finite ∧ r.value.sign = r.fields.sign
      ∧ r.value.magnitude = (f / 2 ^ c.f : ℚ) * (2 : ℚ) ^ (1 - c.bias : ℤ)
  | .normal    => 1 ≤ e ∧ e < c.expMax ∧ r.value.kind = .finite ∧ r.value.sign = r.fields.sign
      ∧ r.value.magnitude = (1 + f / 2 ^ c.f : ℚ) * (2 : ℚ) ^ (e - c.bias : ℤ)
  | .infinity  => e = c.expMax ∧ f = 0
      ∧ r.value = { kind := .infinite, sign := r.fields.sign, sig := 0, exp2 := 0, decCoef := 0, decExp10 := 0 }
  | .nan       => e = c.expMax ∧ f ≠ 0
      ∧ r.value = { kind := .nan, sign := 0, sig := 0, exp2 := 0, decCoef := 0, decExp10 := 0 }

/-- The pair `val_sig`, `val_exp2` of a CodecResult is the one R182 gives its fields and class, not reduced. -/
def PairFits (c : PrecisionConfig) (r : CodecResult) : Prop :=
  match r.cls with
  | .subnormal => r.value.sig.toNat = r.fields.fraction.toNat ∧ r.value.exp2.toInt = 1 - (c.bias : ℤ) - c.f
  | .normal    => r.value.sig.toNat = 2 ^ c.f + r.fields.fraction.toNat
      ∧ r.value.exp2.toInt = (r.fields.exponent.toNat : ℤ) - c.bias - c.f
  | .zero | .infinity | .nan => r.value.sig = 0 ∧ r.value.exp2 = 0

/-- The class is one of a finite number. -/
def Class.isFinite (k : Class) : Prop := k = .zero ∨ k = .subnormal ∨ k = .normal

/-- `m` is the ENCODE of the same magnitude as `p` with sign 1 in place of 0: the pattern is `2^(N-1)` higher, and nothing but
what bears the sign differs (R168). -/
def SignFlipped (c : PrecisionConfig) (p m : EncodeResult) : Prop :=
  m.result.bits.toNat = p.result.bits.toNat + 2 ^ (c.n - 1)
  ∧ p.result.fields.sign = 0 ∧ m.result.fields = { p.result.fields with sign := 1 }
  ∧ m.result.cls = p.result.cls ∧ m.result.value = { p.result.value with sign := 1 }
  ∧ m.result.fmt.expStr = p.result.fmt.expStr ∧ m.result.fmt.fracStr = p.result.fmt.fracStr
  ∧ m.aux = p.aux ∧ m.reason = p.reason

/-- The laws of the encoder that R168 lists, for one build and precision: (a) round trip, (b) fixed points, (c) sign symmetry,
(d) monotonicity, (e) the class by the form, (f) the three bits tell whether the conversion was exact. -/
structure EncoderLaws (b : Build) (q : Precision) : Prop where
  round_trip : ∀ o, decodePattern b.hexOutCase (registry q) (encodeOperand b q o).result.bits.toNat
    = (encodeOperand b q o).result
  fixed_finite : ∀ v, v < 2 ^ (registry q).n →
    let r := decodePattern b.hexOutCase (registry q) v
    let e := encodeOperand b q (.finite r.value.sign r.value.decCoef r.value.decExp10)
    r.cls.isFinite → e.result = r ∧ ∀ a, e.aux = some a → a.g = false ∧ a.r = false ∧ a.s = false ∧ a.roundCarry = false
  fixed_infinity : ∀ v, v < 2 ^ (registry q).n →
    let r := decodePattern b.hexOutCase (registry q) v
    r.cls = .infinity → (encodeOperand b q (.inf r.value.sign)).result = r
  sign_finite : ∀ k x, SignFlipped (registry q) (encodeOperand b q (.finite 0 k x)) (encodeOperand b q (.finite 1 k x))
  sign_infinity : SignFlipped (registry q) (encodeOperand b q (.inf 0)) (encodeOperand b q (.inf 1))
  monotone : ∀ k x l y, decRat k x ≤ decRat l y →
    (encodeOperand b q (.finite 0 k x)).result.bits.toNat ≤ (encodeOperand b q (.finite 0 l y)).result.bits.toNat
  cls_number : (∀ s k x, (encodeOperand b q (.finite s k x)).result.cls ≠ .nan)
    ∧ ∀ s, (encodeOperand b q (.inf s)).result.cls ≠ .nan
  cls_nan : (encodeOperand b q .nan).result.cls = .nan ∧ (encodeOperand b q .invalid).result.cls = .nan
  exact_bits : ∀ s k x, k ≠ 0 → (encodeOperand b q (.finite s k x)).result.cls ≠ .infinity →
    ∃ a, (encodeOperand b q (.finite s k x)).aux = some a
      ∧ ((a.g = false ∧ a.r = false ∧ a.s = false) ↔
          (encodeOperand b q (.finite s k x)).result.value.magnitude = decRat k x)

/-- A response is one of precision `q`: nothing on a port is wider than the precision, and a CodecResult is consistent
with its pattern (R26, R27, R160). -/
def ResponseFits (b : Build) (q : Precision) : Response → Prop
  | .error _       => True
  | .config g      => g.totalBits.toNat = (registry q).n ∧ g.expBits.toNat = (registry q).eb
      ∧ g.fracBits.toNat = (registry q).f ∧ g.bias.toNat = (registry q).bias
      ∧ g.expMax.toNat = (registry q).expMax ∧ g.fracMask.toNat = (registry q).fracMask
  | .packed v      => v.toNat < 2 ^ (registry q).n
  | .unpacked t    => FieldsFit (registry q) t
  | .formatted v g => v.toNat < 2 ^ (registry q).n ∧ g = formatGroup b.hexOutCase (registry q) v.toNat
  | .classified _  => True
  | .rounded m k   => m.toNat ≤ (registry q).fracMask ∧ (k = true → m.toNat = 0)
  | .encoded _ e   => CodecFits b.hexOutCase (registry q) e.result
      ∧ ∀ a, e.aux = some a → a.preM.toNat ≤ (registry q).fracMask
  | .decoded r     => CodecFits b.hexOutCase (registry q) r
  | .arith _ e _   => CodecFits b.hexOutCase (registry q) e.result
      ∧ ∀ a, e.aux = some a → a.preM.toNat ≤ (registry q).fracMask

/-- The machine's invariant: the build parameters meet R7's constraints, and the response on the port is an error or a
response of the precision that the command on the command port names. -/
def Inv (s : State) : Prop :=
  s.build.wf = true ∧ ∀ r, s.resp = some r →
    (∃ k, r = .error k) ∨ ∃ q, precisionOf (PrecCode.ofBits (precField s.cmd.word)) = some q ∧ ResponseFits s.build q r

end Sys2Proof.Machine
end

