-- ==== Sys2Proof/Certificates/Slice0/Obligations.lean ====
section
/-!
DEFINITION. The statements. Every precision is `q`, named by the instruction's code `p`; `registry q` is its row.
`s.answer r` is `s` with `r` on the response port and nothing else changed, so an equation `exec i s = .next (s.answer r)`
says that the instruction completes, what it answers, and that it changes nothing else (its frame).
-/

open Sys2Proof Sys2Proof.Machine

/-! ### Encoding and decoding -/

/-- R50 to R53: reading back the word of an instruction gives the instruction, with its precision code and operand forms,
and a word that reads as an instruction is that instruction's word. -/
def Obligations.DecodeAndEncodeAgree : Prop :=
  (∀ i : Instr, decode (encode i) = .ok i) ∧ ∀ (w : Word) (i : Instr), decode w = .ok i → encode i = w

/-- R53: the whole words the rule gives as examples, and one word of each other family, read as what they stand for. -/
def Obligations.SpecWordsDecode : Prop :=
  decode 0x7200 = .ok (.encodeFinite .single) ∧ decode 0x8200 = .ok (.decodeInt .single)
    ∧ decode 0x8480 = .ok (.decodeStr .double) ∧ decode 0x1600 = .ok (.configFor .quad)
    ∧ decode 0x2000 = .ok (.pack .half) ∧ decode 0x6280 = .ok (.roundPresplit .single)
    ∧ decode 0x7100 = .ok (.encodeNan .half) ∧ decode 0x5A00 = .ok (.classify .p5)
    ∧ decode 0x3080 = .ok (.unpackStr .half) ∧ decode 0x4600 = .ok (.formatInt .quad)
    ∧ decode 0x9280 = .ok (.fpAdd .single .str .int) ∧ decode 0xA500 = .ok (.fpMultiply .double .int .str)

/-- R62, R63: a command line writes the word of the instruction it names and each of its operands on the port of that
operand; so do the two pseudo-instructions. Lines are data here, not text (the model's choice, log entry 15). -/
def Obligations.CommandLinesNameTheirInstruction : Prop :=
  (∀ l : AsmLine, decode (assemble l).word = .ok l.instr)
    ∧ (∀ (p : PrecCode) (a b : PatternOperand), (AsmLine.fpAdd p a b).instr = .fpAdd p a.form b.form
        ∧ (AsmLine.fpMultiply p a b).instr = .fpMultiply p a.form b.form)
    ∧ (∀ (p : PrecCode) (v : Nat) (t : Text), (AsmLine.unpack p (.int v)).instr = .unpackInt p
        ∧ (AsmLine.unpack p (.str t)).instr = .unpackStr p ∧ (AsmLine.format p (.int v)).instr = .formatInt p
        ∧ (AsmLine.format p (.str t)).instr = .formatStr p ∧ (AsmLine.decode p (.int v)).instr = .decodeInt p
        ∧ (AsmLine.decode p (.str t)).instr = .decodeStr p)
    ∧ (∀ p s e f, (assemble (.pack p s e f)).sign = s ∧ (assemble (.pack p s e f)).exponent = e
        ∧ (assemble (.pack p s e f)).fraction = f)
    ∧ (∀ p e f, (assemble (.classify p e f)).exponent = e ∧ (assemble (.classify p e f)).fraction = f)
    ∧ (∀ p n d, (assemble (.roundRational p n d)).num = n ∧ (assemble (.roundRational p n d)).den = d)
    ∧ (∀ p m g r t, (assemble (.roundPresplit p m g r t)).mIn = m ∧ (assemble (.roundPresplit p m g r t)).gIn = g
        ∧ (assemble (.roundPresplit p m g r t)).rIn = r ∧ (assemble (.roundPresplit p m g r t)).sIn = t)
    ∧ (∀ p s k x, (assemble (.encodeFinite p s k x)).sign = s ∧ (assemble (.encodeFinite p s k x)).coef = k
        ∧ (assemble (.encodeFinite p s k x)).exp10 = x)
    ∧ (∀ p s, (assemble (.encodeInf p s)).sign = s)
    ∧ (∀ p v, ∀ l ∈ [AsmLine.unpack p (.int v), .format p (.int v), .decode p (.int v)], (assemble l).intIn = v)
    ∧ (∀ p t, ∀ l ∈ [AsmLine.unpack p (.str t), .format p (.str t), .decode p (.str t)], (assemble l).strIn = t)
    ∧ (∀ p v b, ∀ l ∈ [AsmLine.fpAdd p (.int v) b, .fpMultiply p (.int v) b], (assemble l).intIn = v)
    ∧ (∀ p t b, ∀ l ∈ [AsmLine.fpAdd p (.str t) b, .fpMultiply p (.str t) b], (assemble l).strIn = t)
    ∧ (∀ p a v, ∀ l ∈ [AsmLine.fpAdd p a (.int v), .fpMultiply p a (.int v)], (assemble l).intInB = v)
    ∧ (∀ p a t, ∀ l ∈ [AsmLine.fpAdd p a (.str t), .fpMultiply p a (.str t)], (assemble l).strInB = t)
    ∧ (∀ p a, fromIeee754 p a = .decode p a)
    ∧ (∀ p s k x, toIeee754 p (.decimal s k x) = .encodeFinite p s k x) ∧ (∀ p s, toIeee754 p (.inf s) = .encodeInf p s)
    ∧ (∀ p, toIeee754 p .nan = .encodeNan p) ∧ (∀ p, toIeee754 p .notALiteral = .encodeInvalid p)
    ∧ (∀ (p : PrecCode) (sign : Bit) (m : Nat) (e : Int), ∃ coef exp10,
        toIeee754 p (.native sign m e) = .encodeFinite p sign coef exp10 ∧ decRat coef exp10 = m * (2 : ℚ) ^ e)

/-! ### The step and the errors every instruction shares -/

/-- R54: the command on top is answered `ERR_ILLEGAL_COMMAND` exactly when its word is illegal in this build. -/
def Obligations.IllegalCommandExactlyForIllegalWords : Prop :=
  ∀ (s : State) (c : Command) (rest : List Command), s.pending = c :: rest →
    (step s = .next ({ s with cmd := c, pending := rest }.fail .illegalCommand) ↔ IllegalWord s.build.hasArith c.word)

/-- A step takes the oldest issued command and runs what its word spells. With no command issued the unit begins
nothing on its own (the model's choice, log entry 2). -/
def Obligations.StepRunsTheDecodedInstruction : Prop :=
  (∀ (s : State) (c : Command) (rest : List Command) (i : Instr), s.pending = c :: rest → decode c.word = .ok i →
      step s = exec i { s with cmd := c, pending := rest })
    ∧ ∀ s : State, s.pending = [] → step s = .next s

/-- R83, R221: every instruction of the build fails with `UnknownPrecision` exactly when its precision code is not one of
the four names. -/
def Obligations.UnknownPrecisionForEveryInstruction : Prop :=
  ∀ (i : Instr) (s : State), i.wf s.build = true →
    (exec i s = .next (s.fail .unknownPrecision) ↔ 4 ≤ i.prec.toBits.toNat)

/-- Every command is answered: a step on an issued command always gives a next state, with a response, and touches
nothing but the two ports and the list of issued commands. -/
def Obligations.EveryCommandIsAnswered : Prop :=
  ∀ (s : State) (c : Command) (rest : List Command), s.pending = c :: rest →
    ∃ r, step s = .next { s with cmd := c, pending := rest, resp := some r }

/-- R20: nothing persists from one command to the next: two units of one build, whatever they answered before and whatever
waits behind, answer the same command alike. -/
def Obligations.ResponseIsAFunctionOfTheCommand : Prop :=
  ∀ (s t : State) (c : Command) (rs rt : List Command), s.build = t.build → s.pending = c :: rs → t.pending = c :: rt →
    ∃ r, step s = .next { s with cmd := c, pending := rs, resp := some r }
      ∧ step t = .next { t with cmd := c, pending := rt, resp := some r }

/-- A program of commands leaves what its last command alone leaves: no earlier command, failed or not, has influence. That
the issued commands are a list is the model's choice (log entry 2). -/
def Obligations.ProgramLeavesOnlyItsLastResponse : Prop :=
  ∀ (cs : List Command) (c : Command) (s : State),
    Host.Core.run Sys2Proof.core (cs.length + 1) { s with pending := cs ++ [c] } = step { s with pending := [c] }

/-- No run of any length stops with a fault or a refusal. -/
def Obligations.NoRunStops : Prop := ∀ (k : Nat) (s : State), SafeFor k s

/-- An instruction writes the response port and nothing else. -/
def Obligations.InstructionsWriteOnlyTheResponse : Prop :=
  ∀ (i : Instr) (s t : State), exec i s = .next t →
    t.build = s.build ∧ t.cmd = s.cmd ∧ t.pending = s.pending ∧ ∃ r, t.resp = some r

/-- R25: a field an instruction does not read is ignored. -/
def Obligations.UnreadOperandsAreIgnored : Prop :=
  ∀ (i : Instr) (s : State), ∃ r, exec i s = .next (s.answer r)
    ∧ exec i { s with cmd := onlyRead i s.cmd } = .next ({ s with cmd := onlyRead i s.cmd }.answer r)

/-- The table of R220: which errors an instruction of the build can answer with. -/
def Obligations.ErrorsAreThoseOfTheTable : Prop :=
  ∀ (i : Instr) (s t : State) (k : ErrorKind), i.wf s.build = true → exec i s = .next t → t.resp = some (.error k) →
    mayAnswer i k

/-- R28, R220: the closed sets of statuses and classes, and their numbers. -/
def Obligations.StatusAndClassCodes : Prop :=
  (∀ r : Response, r.status = 0 ↔ ¬ ∃ k, r = .error k)
    ∧ (Response.error .unknownPrecision).status = 1 ∧ (Response.error .malformedBits).status = 2
    ∧ (Response.error .illegalCommand).status = 3 ∧ (Response.error .operandRange).status = 4
    ∧ Class.code .zero = 0 ∧ Class.code .subnormal = 1 ∧ Class.code .normal = 2 ∧ Class.code .infinity = 3
    ∧ Class.code .nan = 4
    ∧ (∀ k : Machine.Class, k = .zero ∨ k = .subnormal ∨ k = .normal ∨ k = .infinity ∨ k = .nan)
    ∧ (∀ k : ErrorKind, k.code.toNat ≤ 4) ∧ ∀ r : Response, r.status.toNat ≤ 4

/-! ### Reset and the invariant -/

/-- After reset no response is meaningful and no command is issued; the build is the one R7 describes. -/
def Obligations.ResetHasNoResponse : Prop :=
  State.reset.resp = none ∧ State.reset.pending = [] ∧ State.reset.build.hasArith = false
    ∧ State.reset.build.hexOutCase = .upper
    ∧ ∀ q : Precision, (State.reset.build.nan q).sign = 0 ∧ (State.reset.build.nan q).frac.toNat = 2 ^ ((registry q).f - 1)

/-- The invariant holds after reset. -/
def Obligations.InvariantAtReset : Prop := Inv State.reset

/-- Every step keeps the invariant: whatever stands on the response port is an error or a response that fits the
precision of its command, and every CodecResult is the decoding of its own pattern. -/
def Obligations.InvariantKeptByEveryStep : Prop := ∀ s t : State, Inv s → step s = .next t → Inv t

/-! ### Registry and CONFIG_FOR -/

/-- R81: the rows of the registry, which precision code each has, and the relations its columns keep. -/
def Obligations.RegistryTable : Prop :=
  precisionOf (PrecCode.ofBits 0) = some .half ∧ precisionOf (PrecCode.ofBits 1) = some .single
    ∧ precisionOf (PrecCode.ofBits 2) = some .double ∧ precisionOf (PrecCode.ofBits 3) = some .quad
    ∧ (∀ b : BitVec 3, 4 ≤ b.toNat → precisionOf (PrecCode.ofBits b) = none) ∧
  registry .half = ⟨16, 5, 10, 15, 31, 0x3FF⟩ ∧ registry .single = ⟨32, 8, 23, 127, 255, 0x7FFFFF⟩
    ∧ registry .double = ⟨64, 11, 52, 1023, 2047, 0xFFFFFFFFFFFFF⟩
    ∧ registry .quad = ⟨128, 15, 112, 16383, 32767, 0xFFFFFFFFFFFFFFFFFFFFFFFFFFFF⟩
    ∧ ∀ q : Precision, (registry q).wf = true ∧ (registry q).expMax = 2 * (registry q).bias + 1
        ∧ 2 ^ (registry q).n = 2 * 2 ^ (registry q).eb * 2 ^ (registry q).f

/-- The word of CONFIG_FOR, its six fields for a recognized precision, each in full, and its failure for any other. -/
def Obligations.ConfigForReturnsTheRow : Prop :=
  ∀ (s : State) (p : PrecCode), (encode (.configFor p)).toNat = 0x1000 + p.toBits.toNat * 2 ^ 9
    ∧ (4 ≤ p.toBits.toNat → exec (.configFor p) s = .next (s.fail .unknownPrecision))
    ∧ ∀ q : Precision, precisionOf p = some q →
      ∃ g, exec (.configFor p) s = .next (s.answer (.config g))
        ∧ g.totalBits.toNat = (registry q).n ∧ g.expBits.toNat = (registry q).eb ∧ g.fracBits.toNat = (registry q).f
        ∧ g.bias.toNat = (registry q).bias ∧ g.expMax.toNat = (registry q).expMax
        ∧ g.fracMask.toNat = (registry q).fracMask

/-! ### Packer -/

/-- PACK on a triple of the precision answers its pattern `sign * 2^(N-1) + exponent * 2^F + fraction`; on any other
triple it is refused. -/
def Obligations.PackAssemblesThePattern : Prop :=
  ∀ (s : State) (p : PrecCode) (q : Precision), precisionOf p = some q →
    (s.cmd.exponent.toNat ≤ (registry q).expMax ∧ s.cmd.fraction.toNat ≤ (registry q).fracMask →
      ∃ b, exec (.pack p) s = .next (s.answer (.packed b))
        ∧ b.toNat = s.cmd.sign.toNat * 2 ^ ((registry q).n - 1) + s.cmd.exponent.toNat * 2 ^ (registry q).f
            + s.cmd.fraction.toNat)
    ∧ ((registry q).expMax < s.cmd.exponent.toNat ∨ (registry q).fracMask < s.cmd.fraction.toNat →
      exec (.pack p) s = .next (s.fail .operandRange))

/-- UNPACK in either form takes the pattern apart: the fields fit the precision and assemble to the pattern again. -/
def Obligations.UnpackTakesThePatternApart : Prop :=
  ∀ (s : State) (p : PrecCode) (q : Precision) (v : Nat), precisionOf p = some q →
    (s.cmd.intIn = v → v < 2 ^ (registry q).n →
      ∃ t, exec (.unpackInt p) s = .next (s.answer (.unpacked t)) ∧ FieldsFit (registry q) t
        ∧ patternOf (registry q) t = v)
    ∧ (readStr (registry q) s.cmd.strIn = .ok v →
      ∃ t, exec (.unpackStr p) s = .next (s.answer (.unpacked t)) ∧ FieldsFit (registry q) t
        ∧ patternOf (registry q) t = v)

/-- Packing a triple and unpacking the result gives the triple back. -/
def Obligations.UnpackInvertsPack : Prop :=
  ∀ (s : State) (p : PrecCode) (q : Precision) (b : BitsPort), precisionOf p = some q →
    exec (.pack p) s = .next (s.answer (.packed b)) →
    exec (.unpackInt p) { s with cmd := { s.cmd with intIn := b.toNat } } =
      .next ({ s with cmd := { s.cmd with intIn := b.toNat } }.answer
        (.unpacked { sign := s.cmd.sign, exponent := s.cmd.exponent, fraction := s.cmd.fraction }))

/-- R56: the INT form is accepted up to `2^N - 1`; above, every instruction that reads it fails and nothing is truncated. -/
def Obligations.WideIntegersAreMalformed : Prop :=
  ∀ (s : State) (p : PrecCode) (q : Precision), precisionOf p = some q →
    (2 ^ (registry q).n - 1 < s.cmd.intIn →
      exec (.unpackInt p) s = .next (s.fail .malformedBits) ∧ exec (.formatInt p) s = .next (s.fail .malformedBits)
        ∧ exec (.decodeInt p) s = .next (s.fail .malformedBits)
        ∧ (s.build.hasArith = true → ∀ form,
            exec (.fpAdd p .int form) s = .next (s.fail .malformedBits)
              ∧ exec (.fpMultiply p .int form) s = .next (s.fail .malformedBits)))
    ∧ (2 ^ (registry q).n - 1 < s.cmd.intInB → s.build.hasArith = true → ∀ form,
        exec (.fpAdd p form .int) s = .next (s.fail .malformedBits)
          ∧ exec (.fpMultiply p form .int) s = .next (s.fail .malformedBits))
    ∧ (s.cmd.intIn ≤ 2 ^ (registry q).n - 1 → readPattern (registry q) .int s.cmd.intIn s.cmd.strIn = .ok s.cmd.intIn)

/-- R94: a string without a hexadecimal mark is read exactly when it has `N` characters, each a binary digit; its value
is positional, character 0 most significant. Any other is `MalformedBits`. -/
def Obligations.BinaryStringsAreExact : Prop :=
  ∀ (q : Precision) (text : Text),
    (¬ ∃ x ds, text = 0x30 :: x :: ds ∧ (x = 0x78 ∨ x = 0x58)) →
    (∀ v, readStr (registry q) text = .ok v ↔
      text.length = (registry q).n ∧ ∃ ds, List.Forall₂ IsBinDigit text ds ∧ v = positional 2 ds)
    ∧ ∀ k, readStr (registry q) text = .error k → k = .malformedBits

/-- R95: a string with a hexadecimal mark is read exactly when it has at least one digit, only hexadecimal digits of
either case, and a value below `2^N`. Any other is `MalformedBits`. -/
def Obligations.HexStringsAreBoundedByValue : Prop :=
  ∀ (q : Precision) (x : CharCode) (digits : Text), x = 0x78 ∨ x = 0x58 →
    (∀ v, readStr (registry q) (0x30 :: x :: digits) = .ok v ↔
      digits ≠ [] ∧ v ≤ 2 ^ (registry q).n - 1 ∧ ∃ ds, List.Forall₂ IsHexDigit digits ds ∧ v = positional 16 ds)
    ∧ ∀ k, readStr (registry q) (0x30 :: x :: digits) = .error k → k = .malformedBits

/-- R93, R222: which operands are patterns, in both forms; and every instruction that takes one fails with `MalformedBits`
on every other, whatever form it has and whichever of two operands it is. -/
def Obligations.UnreadableOperandsAreMalformed : Prop :=
  (∀ (q : Precision) (form : OperandForm) (n : Nat) (text : Text) (v : Nat),
      readPattern (registry q) form n text = .ok v ↔ IsPattern (registry q) form n text v)
    ∧ ∀ (s : State) (p : PrecCode) (q : Precision), precisionOf p = some q →
      let Fails := fun i : Instr => exec i s = .next (s.fail .malformedBits)
      let UnreadableA := fun form => ¬ ∃ v, IsPattern (registry q) form s.cmd.intIn s.cmd.strIn v
      let UnreadableB := fun form => ¬ ∃ v, IsPattern (registry q) form s.cmd.intInB s.cmd.strInB v
      (UnreadableA .int → Fails (.unpackInt p) ∧ Fails (.formatInt p) ∧ Fails (.decodeInt p))
        ∧ (UnreadableA .str → Fails (.unpackStr p) ∧ Fails (.formatStr p) ∧ Fails (.decodeStr p))
        ∧ (s.build.hasArith = true → ∀ a b, UnreadableA a ∨ UnreadableB b → Fails (.fpAdd p a b) ∧ Fails (.fpMultiply p a b))

/-- The laws of the packer that R99 lists, for every precision and both cases of digits. -/
def Obligations.PackerLawsHold : Prop := ∀ (h : HexCase) (q : Precision), PackerLaws h (registry q)

/-- R97: what FORMAT answers in either form: the pattern, its binary string, its hexadecimal string in the build's case,
and the three substrings. -/
def Obligations.FormatWritesTheStrings : Prop :=
  ∀ (s : State) (p : PrecCode) (q : Precision) (v : Nat), precisionOf p = some q →
    let Answers := fun i : Instr =>
      ∃ b g, exec i s = .next (s.answer (.formatted b g)) ∧ b.toNat = v ∧ StringsFit s.build.hexOutCase (registry q) v g
    (s.cmd.intIn = v → v < 2 ^ (registry q).n → Answers (.formatInt p))
      ∧ (readStr (registry q) s.cmd.strIn = .ok v → Answers (.formatStr p))

/-- Both strings FORMAT writes of a pattern are read as that pattern again, the hexadecimal one after `0x`. -/
def Obligations.FormattedStringsReadBack : Prop :=
  ∀ (s : State) (p : PrecCode) (q : Precision) (b : BitsPort) (g : FormatGroup), precisionOf p = some q →
    exec (.formatInt p) s = .next (s.answer (.formatted b g)) →
    readStr (registry q) g.binStr = .ok s.cmd.intIn ∧ readStr (registry q) (0x30 :: 0x78 :: g.hexStr) = .ok s.cmd.intIn

/-! ### Classifier -/

/-- R120, R121: the class of every pair of the precision, and the refusal of every other pair. -/
def Obligations.ClassifyByExponentAndFraction : Prop :=
  ∀ (s : State) (p : PrecCode) (q : Precision), precisionOf p = some q →
    let e := s.cmd.exponent.toNat
    let f := s.cmd.fraction.toNat
    (e ≤ (registry q).expMax ∧ f ≤ (registry q).fracMask →
      ∃ k, exec (.classify p) s = .next (s.answer (.classified k))
        ∧ (k = .infinity ↔ e = (registry q).expMax ∧ f = 0) ∧ (k = .nan ↔ e = (registry q).expMax ∧ f ≠ 0)
        ∧ (k = .zero ↔ e = 0 ∧ f = 0) ∧ (k = .subnormal ↔ e = 0 ∧ f ≠ 0)
        ∧ (k = .normal ↔ 1 ≤ e ∧ e ≤ (registry q).expMax - 1))
    ∧ ((registry q).expMax < e ∨ (registry q).fracMask < f → exec (.classify p) s = .next (s.fail .operandRange))

/-! ### Rounding Engine -/

/-- R130: the two-step long division computes the split the rule defines. -/
def Obligations.SplitIsFloorAndBits : Prop :=
  ∀ y : Frac, 0 < y.den → IsSplit y.rat (grs y).m (grs y).g (grs y).r (grs y).s

/-- ROUND_RNE RATIONAL rounds `num/den` to the nearest integer, ties to even; the answered pair stands for
`carry * 2^F + mant`, with the mantissa below `2^F`. -/
def Obligations.RoundRationalToNearestEven : Prop :=
  ∀ (s : State) (p : PrecCode) (q : Precision), precisionOf p = some q → s.cmd.den ≠ 0 →
    s.cmd.num / s.cmd.den ≤ (registry q).fracMask →
    ∃ m k, exec (.roundRational p) s = .next (s.answer (.rounded m k)) ∧ m.toNat ≤ (registry q).fracMask
      ∧ NearestEven (s.cmd.num / s.cmd.den : ℚ) (k.toNat * 2 ^ (registry q).f + m.toNat)

/-- R131, R132: the decision of ROUND_RNE PRESPLIT and its carry-out. -/
def Obligations.RoundPresplitDecision : Prop :=
  ∀ (s : State) (p : PrecCode) (q : Precision), precisionOf p = some q → s.cmd.mIn.toNat ≤ 2 ^ (registry q).f - 1 →
    let up := RoundsUp s.cmd.mIn.toNat s.cmd.gIn s.cmd.rIn s.cmd.sIn
    ∃ m k, exec (.roundPresplit p) s = .next (s.answer (.rounded m k))
      ∧ (¬ up → m.toNat = s.cmd.mIn.toNat ∧ k = false)
      ∧ (up → s.cmd.mIn.toNat + 1 = 2 ^ (registry q).f → m.toNat = 0 ∧ k = true)
      ∧ (up → s.cmd.mIn.toNat + 1 < 2 ^ (registry q).f → m.toNat = s.cmd.mIn.toNat + 1 ∧ k = false)

/-- ROUND_RNE refuses a zero denominator and an integer part above `frac_mask`. -/
def Obligations.RoundOutsideItsDomainIsRefused : Prop :=
  ∀ (s : State) (p : PrecCode) (q : Precision), precisionOf p = some q →
    (s.cmd.den = 0 → exec (.roundRational p) s = .next (s.fail .operandRange))
    ∧ ((registry q).fracMask < s.cmd.num / s.cmd.den → exec (.roundRational p) s = .next (s.fail .operandRange))
    ∧ ((registry q).fracMask < s.cmd.mIn.toNat → exec (.roundPresplit p) s = .next (s.fail .operandRange))

/-! ### Encoder -/

/-- R10: the procedure computes the unique binary exponent of a positive rational. -/
def Obligations.FloorLog2IsTheBinaryExponent : Prop :=
  ∀ (x : Frac) (e : ℤ), 0 < x.num → 0 < x.den → (floorLog2 x = e ↔ (2 : ℚ) ^ e ≤ x.rat ∧ x.rat < (2 : ℚ) ^ (e + 1))

/-- R151: FINITE with coefficient 0 gives the zero of the command's sign, with no rounding logic, and echoes the command. -/
def Obligations.EncodeZero : Prop :=
  ∀ (s : State) (p : PrecCode) (q : Precision), precisionOf p = some q → s.cmd.coef = 0 →
    ∃ enc, exec (.encodeFinite p) s = .next (s.answer (.encoded { inSign := s.cmd.sign, inKind := .finite, inMagnitude := some (s.cmd.coef, s.cmd.exp10) } enc))
      ∧ enc.result.fields = { sign := s.cmd.sign, exponent := 0, fraction := 0 }
      ∧ enc.result.bits.toNat = s.cmd.sign.toNat * 2 ^ ((registry q).n - 1)
      ∧ enc.result.cls = .zero ∧ enc.aux = none ∧ enc.reason = .none

/-- R152: form INF gives the infinity of the command's sign, and echoes the sign and the form. -/
def Obligations.EncodeInfinity : Prop :=
  ∀ (s : State) (p : PrecCode) (q : Precision), precisionOf p = some q →
    ∃ enc, exec (.encodeInf p) s = .next (s.answer (.encoded { inSign := s.cmd.sign, inKind := .inf, inMagnitude := none } enc))
      ∧ enc.result.fields.sign = s.cmd.sign ∧ enc.result.fields.exponent.toNat = (registry q).expMax
      ∧ enc.result.fields.fraction = 0 ∧ enc.result.cls = .infinity ∧ enc.aux = none ∧ enc.reason = .none
      ∧ enc.result.value.kind = .infinite ∧ enc.result.value.sign = s.cmd.sign

/-- R153: form NAN gives the build's NaN pattern, whatever the command's sign; its class is `nan`. The sign and the form are
echoed. -/
def Obligations.EncodeNan : Prop :=
  ∀ (s : State) (p : PrecCode) (q : Precision), precisionOf p = some q → s.build.wf = true →
    ∃ enc, exec (.encodeNan p) s = .next (s.answer (.encoded { inSign := s.cmd.sign, inKind := .nan, inMagnitude := none } enc))
      ∧ enc.result.fields.sign = (s.build.nan q).sign ∧ enc.result.fields.exponent.toNat = (registry q).expMax
      ∧ enc.result.fields.fraction = (s.build.nan q).frac
      ∧ enc.result.cls = .nan ∧ enc.result.value.kind = .nan ∧ enc.aux = none ∧ enc.reason = .none

/-- R154, R223: an invalid literal is an OK response: the CodecResult of form NAN with the reason code, which no other form
gives. -/
def Obligations.InvalidLiteralIsAnnotatedNan : Prop :=
  ∀ (s : State) (p : PrecCode) (q : Precision), precisionOf p = some q → s.build.wf = true →
    let echo : EchoGroup := { inSign := s.cmd.sign, inKind := .invalid, inMagnitude := none }
    ∃ echo' enc enc', exec (.encodeInvalid p) s = .next (s.answer (.encoded echo enc))
      ∧ exec (.encodeNan p) s = .next (s.answer (.encoded echo' enc'))
      ∧ (Response.encoded echo enc).status = 0 ∧ enc.result = enc'.result ∧ enc.result.cls = .nan
      ∧ enc.aux = none ∧ enc.reason = .invalidDecimalLiteral
      ∧ ∀ i, i = .encodeFinite p ∨ i = .encodeInf p ∨ i = .encodeNan p →
          ∃ echo enc, exec i s = .next (s.answer (.encoded echo enc)) ∧ enc.reason = .none

/-- Correct rounding: below the overflow threshold and outside the clamp interval, ENCODE FINITE answers a
representable value nearest to the operand, the one with the even fraction of two equally near. -/
def Obligations.EncodeRoundsToNearestValue : Prop :=
  ∀ (s : State) (p : PrecCode) (q : Precision), precisionOf p = some q → s.cmd.coef ≠ 0 →
    let x := decRat s.cmd.coef s.cmd.exp10
    x < infinityFrom (registry q) → ¬ (clampFrom (registry q) ≤ x ∧ x < minNormal (registry q)) →
    ∃ echo enc, exec (.encodeFinite p) s = .next (s.answer (.encoded echo enc))
      ∧ enc.result.fields.sign = s.cmd.sign ∧ enc.result.fields.exponent.toNat < (registry q).expMax
      ∧ enc.result.value.kind = .finite
      ∧ enc.result.value.magnitude
          = fieldsMagnitude (registry q) enc.result.fields.exponent.toNat enc.result.fields.fraction.toNat
      ∧ NearestValue (registry q) x enc.result.fields.exponent.toNat enc.result.fields.fraction.toNat

/-- R157's clamp, and where it acts: the subnormal path carries out exactly in the clamp interval, and there the result is
the largest subnormal. -/
def Obligations.EncodeClampsInTheInterval : Prop :=
  ∀ (s : State) (p : PrecCode) (q : Precision), precisionOf p = some q → s.cmd.coef ≠ 0 →
    let x := decRat s.cmd.coef s.cmd.exp10
    ∃ echo enc a, exec (.encodeFinite p) s = .next (s.answer (.encoded echo enc)) ∧ enc.aux = some a
      ∧ ((clampFrom (registry q) ≤ x ∧ x < minNormal (registry q)) ↔ (a.roundCarry = true ∧ a.expCarry = false))
      ∧ ((clampFrom (registry q) ≤ x ∧ x < minNormal (registry q)) →
          enc.result.fields.sign = s.cmd.sign ∧ enc.result.fields.exponent = 0
            ∧ enc.result.fields.fraction.toNat = (registry q).fracMask ∧ enc.result.cls = .subnormal)

/-- The class of the result by the magnitude of the operand, and the fields where the class settles them. -/
def Obligations.EncodeClassByMagnitude : Prop :=
  ∀ (s : State) (p : PrecCode) (q : Precision), precisionOf p = some q → s.cmd.coef ≠ 0 →
    let x := decRat s.cmd.coef s.cmd.exp10
    ∃ echo enc, exec (.encodeFinite p) s = .next (s.answer (.encoded echo enc))
      ∧ enc.result.fields.sign = s.cmd.sign
      ∧ (x ≤ halfMinSubnormal (registry q) →
          enc.result.cls = .zero ∧ enc.result.fields.exponent = 0 ∧ enc.result.fields.fraction = 0)
      ∧ (halfMinSubnormal (registry q) < x → x < minNormal (registry q) →
          enc.result.cls = .subnormal ∧ enc.result.fields.exponent = 0)
      ∧ (minNormal (registry q) ≤ x → x < infinityFrom (registry q) → enc.result.cls = .normal)
      ∧ (infinityFrom (registry q) ≤ x → enc.result.cls = .infinity
          ∧ enc.result.fields.exponent.toNat = (registry q).expMax ∧ enc.result.fields.fraction = 0)

/-- R161, R162: the echo and the rounding metadata of the rounding path. -/
def Obligations.EncodeReportsItsRounding : Prop :=
  ∀ (s : State) (p : PrecCode) (q : Precision), precisionOf p = some q → s.cmd.coef ≠ 0 →
    let x := decRat s.cmd.coef s.cmd.exp10
    let c := registry q
    ∃ enc a, exec (.encodeFinite p) s = .next (s.answer (.encoded
        { inSign := s.cmd.sign, inKind := .finite, inMagnitude := some (s.cmd.coef, s.cmd.exp10) } enc))
      ∧ enc.reason = .none ∧ enc.aux = some a
      ∧ (2 : ℚ) ^ a.preE ≤ x ∧ x < (2 : ℚ) ^ (a.preE + 1)
      ∧ IsSplit (if a.preE < 1 - c.bias then x * (2 : ℚ) ^ (c.f + c.bias - 1 : ℤ) else (x / (2 : ℚ) ^ a.preE - 1) * 2 ^ c.f)
          a.preM.toNat a.g a.r a.s
      ∧ (a.roundCarry = true ↔
          a.preE + c.bias < c.expMax ∧ RoundsUp a.preM.toNat a.g a.r a.s ∧ a.preM.toNat + 1 = 2 ^ c.f)
      ∧ (a.expCarry = true ↔ a.roundCarry = true ∧ 1 - (c.bias : ℤ) ≤ a.preE)

/-- The three bits are all 0 exactly when the conversion was exact, for a result that is not infinity. -/
def Obligations.EncodeBitsTellExactness : Prop :=
  ∀ (s : State) (p : PrecCode) (q : Precision), precisionOf p = some q → s.cmd.coef ≠ 0 →
    ∃ echo enc a, exec (.encodeFinite p) s = .next (s.answer (.encoded echo enc)) ∧ enc.aux = some a
      ∧ (enc.result.cls ≠ .infinity →
          ((a.g = false ∧ a.r = false ∧ a.s = false) ↔
            enc.result.value.magnitude = decRat s.cmd.coef s.cmd.exp10))

/-- Encode, then decode: DECODE of the answered pattern answers the same CodecResult, for every form of ENCODE. -/
def Obligations.EncodeThenDecode : Prop :=
  ∀ (s : State) (p : PrecCode) (q : Precision) (i : Instr), precisionOf p = some q → s.build.wf = true →
    i = .encodeFinite p ∨ i = .encodeInf p ∨ i = .encodeNan p ∨ i = .encodeInvalid p →
    ∃ echo enc, exec i s = .next (s.answer (.encoded echo enc))
      ∧ exec (.decodeInt p) { s with cmd := { s.cmd with intIn := enc.result.bits.toNat } } =
          .next ({ s with cmd := { s.cmd with intIn := enc.result.bits.toNat } }.answer (.decoded enc.result))

/-- Decode, then encode: the decimal value DECODE answers for a finite pattern encodes to that pattern, unrounded. -/
def Obligations.DecodeThenEncode : Prop :=
  ∀ (s : State) (p : PrecCode) (q : Precision) (r : CodecResult), precisionOf p = some q →
    exec (.decodeInt p) s = .next (s.answer (.decoded r)) → r.cls.isFinite →
    let s' := { s with cmd := { s.cmd with sign := r.value.sign, coef := r.value.decCoef, exp10 := r.value.decExp10 } }
    ∃ echo enc, exec (.encodeFinite p) s' = .next (s'.answer (.encoded echo enc)) ∧ enc.result = r
      ∧ ∀ a, enc.aux = some a → a.g = false ∧ a.r = false ∧ a.s = false ∧ a.roundCarry = false

/-- The sign is carried apart from the magnitude: with sign 1 the pattern is `2^(N-1)` higher and nothing but the
sign-bearing fields differs, for forms FINITE and INF. -/
def Obligations.EncodeSignSymmetry : Prop :=
  ∀ (s : State) (p : PrecCode) (q : Precision) (i : Instr), precisionOf p = some q →
    i = .encodeFinite p ∨ i = .encodeInf p →
    let sp := { s with cmd := { s.cmd with sign := 0 } }
    let sn := { s with cmd := { s.cmd with sign := 1 } }
    ∃ echo enc echo' enc', exec i sp = .next (sp.answer (.encoded echo enc))
      ∧ exec i sn = .next (sn.answer (.encoded echo' enc'))
      ∧ enc'.result.bits.toNat = enc.result.bits.toNat + 2 ^ ((registry q).n - 1)
      ∧ enc'.result.fields = { enc.result.fields with sign := 1 } ∧ enc.result.fields.sign = 0
      ∧ enc'.result.cls = enc.result.cls ∧ enc'.result.value = { enc.result.value with sign := 1 }
      ∧ enc'.result.fmt.expStr = enc.result.fmt.expStr ∧ enc'.result.fmt.fracStr = enc.result.fmt.fracStr
      ∧ enc'.aux = enc.aux ∧ enc'.reason = enc.reason ∧ echo' = { echo with inSign := 1 }

/-- Monotonicity: of two non-negative operands the greater never encodes to the smaller pattern. -/
def Obligations.EncodeIsMonotone : Prop :=
  ∀ (s t : State) (p : PrecCode) (q : Precision), precisionOf p = some q → s.cmd.sign = 0 → t.cmd.sign = 0 →
    decRat s.cmd.coef s.cmd.exp10 ≤ decRat t.cmd.coef t.cmd.exp10 →
    ∃ echo enc echo' enc', exec (.encodeFinite p) s = .next (s.answer (.encoded echo enc))
      ∧ exec (.encodeFinite p) t = .next (t.answer (.encoded echo' enc'))
      ∧ enc.result.bits.toNat ≤ enc'.result.bits.toNat

/-- The laws of the encoder that R168 lists, for every well-formed build and every precision. -/
def Obligations.EncoderLawsHold : Prop := ∀ (b : Build) (q : Precision), b.wf = true → EncoderLaws b q

/-! ### Decoder -/

/-- R181, R184: DECODE in either form answers every pattern of the precision, with its fields and the value the rule
gives its class. -/
def Obligations.DecodeGivesTheValue : Prop :=
  ∀ (s : State) (p : PrecCode) (q : Precision) (v : Nat), precisionOf p = some q →
    let Answers := fun i : Instr =>
      ∃ r, exec i s = .next (s.answer (.decoded r)) ∧ r.bits.toNat = v ∧ FieldsFit (registry q) r.fields
        ∧ patternOf (registry q) r.fields = v ∧ ValueFits (registry q) r
    (s.cmd.intIn = v → v < 2 ^ (registry q).n → Answers (.decodeInt p))
      ∧ (readStr (registry q) s.cmd.strIn = .ok v → Answers (.decodeStr p))

/-- The decimal of a decoded value is exact and shortest: no exponent above 0, and no trailing zero below 0. -/
def Obligations.DecodedDecimalIsExactAndShortest : Prop :=
  ∀ (s : State) (p : PrecCode) (q : Precision), precisionOf p = some q → s.cmd.intIn < 2 ^ (registry q).n →
    ∃ r, exec (.decodeInt p) s = .next (s.answer (.decoded r))
      ∧ decRat r.value.decCoef r.value.decExp10 = r.value.magnitude ∧ r.value.decExp10 ≤ 0
      ∧ (r.value.decExp10 < 0 → r.value.decCoef % 10 ≠ 0)
      ∧ (r.cls = .zero ∨ r.cls = .infinity ∨ r.cls = .nan → r.value.decCoef = 0 ∧ r.value.decExp10 = 0)

/-- R182's pair `val_sig`, `val_exp2` for every class, and its ranges: the significand is below `2^(F+1)`, and the exponent of
a non-zero finite value lies between `1 - bias - F` and `exp_max - 1 - bias - F`. -/
def Obligations.DecodedValueRanges : Prop :=
  ∀ (s : State) (p : PrecCode) (q : Precision) (v : Nat), precisionOf p = some q →
    let Answers := fun i : Instr =>
      ∃ r, exec i s = .next (s.answer (.decoded r)) ∧ PairFits (registry q) r ∧ r.value.sig.toNat < 2 ^ ((registry q).f + 1)
        ∧ (r.cls = .subnormal ∨ r.cls = .normal → r.value.sig.toNat ≠ 0
            ∧ 1 - ((registry q).bias : ℤ) - (registry q).f ≤ r.value.exp2.toInt
            ∧ r.value.exp2.toInt ≤ (registry q).expMax - 1 - ((registry q).bias : ℤ) - (registry q).f)
    (s.cmd.intIn = v → v < 2 ^ (registry q).n → Answers (.decodeInt p))
      ∧ (readStr (registry q) s.cmd.strIn = .ok v → Answers (.decodeStr p))

/-- Every CodecResult that any instruction answers, ENCODE, DECODE, FP_ADD and FP_MULTIPLY alike: its fields assemble to its
pattern, its value and the value's pair are those of its fields and class, and its strings are those of its pattern. -/
def Obligations.CodecResultsCarryTheirValueAndStrings : Prop :=
  ∀ (i : Instr) (s t : State) (q : Precision) (r : CodecResult), s.build.wf = true → precisionOf i.prec = some q →
    exec i s = .next t → t.resp.bind Response.codec? = some r →
    r.bits.toNat < 2 ^ (registry q).n ∧ FieldsFit (registry q) r.fields ∧ patternOf (registry q) r.fields = r.bits.toNat
      ∧ ValueFits (registry q) r ∧ PairFits (registry q) r
      ∧ StringsFit s.build.hexOutCase (registry q) r.bits.toNat r.fmt

/-- Of two patterns with sign 0 that are not NaN, the order as integers is the order of the magnitudes. -/
def Obligations.PatternOrderIsValueOrder : Prop :=
  ∀ (s t : State) (p : PrecCode) (q : Precision), precisionOf p = some q →
    s.cmd.intIn < t.cmd.intIn → t.cmd.intIn < 2 ^ ((registry q).n - 1) →
    ∃ r r', exec (.decodeInt p) s = .next (s.answer (.decoded r)) ∧ exec (.decodeInt p) t = .next (t.answer (.decoded r'))
      ∧ (r'.cls.isFinite → r.cls.isFinite ∧ r.value.magnitude < r'.value.magnitude)
      ∧ (r'.cls = .infinity → r.cls.isFinite)

/-! ### Arithmetic Layer -/

/-- R54, R207: in a build without the Arithmetic Layer its instructions are illegal, whatever their precision. -/
def Obligations.ArithmeticAbsentIsIllegal : Prop :=
  ∀ (s : State) (p : PrecCode) (a b : OperandForm), s.build.hasArith = false →
    exec (.fpAdd p a b) s = .next (s.fail .illegalCommand)
      ∧ exec (.fpMultiply p a b) s = .next (s.fail .illegalCommand)

/-- In a build with the layer, both instructions answer on readable operands, at every precision: a CodecResult that fits
its pattern, no reason, and `exact_match` only with a result that is no NaN. That they complete at quad, on a free host operand,
is the model's choice (log entry 10: the spec lets a model refuse or draw); that `exact_match` is 0 with a NaN is the spec's
general knowledge of a host (log entry 9). -/
def Obligations.ArithmeticAnswers : Prop :=
  ∀ (s : State) (p : PrecCode) (q : Precision) (a b : OperandForm) (va vb : Nat) (i : Instr), precisionOf p = some q →
    s.build.hasArith = true → s.build.wf = true →
    readPattern (registry q) a s.cmd.intIn s.cmd.strIn = .ok va →
    readPattern (registry q) b s.cmd.intInB s.cmd.strInB = .ok vb →
    i = .fpAdd p a b ∨ i = .fpMultiply p a b →
    ∃ echo enc m, exec i s = .next (s.answer (.arith echo enc m)) ∧ CodecFits s.build.hexOutCase (registry q) enc.result
      ∧ enc.reason = .none ∧ (m = true → enc.result.cls ≠ .nan)

/-- The special results of FP_ADD: NaN, infinities, and a sum that is zero. The clauses with a finite operand leave out
quad, where the host's operand is a free value (log entry 10). -/
def Obligations.AddSpecialResults : Prop :=
  ∀ (s : State) (p : PrecCode) (q : Precision) (a b : OperandForm) (va vb : Nat), precisionOf p = some q →
    s.build.hasArith = true → s.build.wf = true →
    readPattern (registry q) a s.cmd.intIn s.cmd.strIn = .ok va →
    readPattern (registry q) b s.cmd.intInB s.cmd.strInB = .ok vb →
    let A := decodePattern s.build.hexOutCase (registry q) va
    let B := decodePattern s.build.hexOutCase (registry q) vb
    ∃ echo enc m, exec (.fpAdd p a b) s = .next (s.answer (.arith echo enc m))
      ∧ (A.cls = .nan ∨ B.cls = .nan → enc.result.cls = .nan ∧ m = false)
      ∧ (A.cls = .infinity → B.cls = .infinity → A.fields.sign ≠ B.fields.sign → enc.result.cls = .nan ∧ m = false)
      ∧ (A.cls = .infinity → B.cls = .infinity → A.fields.sign = B.fields.sign →
          enc.result.cls = .infinity ∧ enc.result.fields.sign = A.fields.sign ∧ m = true)
      ∧ (q ≠ .quad → A.cls = .infinity → B.cls.isFinite →
          enc.result.cls = .infinity ∧ enc.result.fields.sign = A.fields.sign ∧ m = true)
      ∧ (q ≠ .quad → A.cls.isFinite → B.cls = .infinity →
          enc.result.cls = .infinity ∧ enc.result.fields.sign = B.fields.sign ∧ m = true)
      ∧ (q ≠ .quad → A.cls.isFinite → B.cls.isFinite → A.value.real + B.value.real = 0 →
          enc.result.cls = .zero ∧ m = true
            ∧ enc.result.fields.sign = if A.fields.sign = B.fields.sign then A.fields.sign else 0)

/-- The special results of FP_MULTIPLY: NaN, infinities, and zeros, each with the exclusive-or of the signs. -/
def Obligations.MultiplySpecialResults : Prop :=
  ∀ (s : State) (p : PrecCode) (q : Precision) (a b : OperandForm) (va vb : Nat), precisionOf p = some q →
    s.build.hasArith = true → s.build.wf = true →
    readPattern (registry q) a s.cmd.intIn s.cmd.strIn = .ok va →
    readPattern (registry q) b s.cmd.intInB s.cmd.strInB = .ok vb →
    let A := decodePattern s.build.hexOutCase (registry q) va
    let B := decodePattern s.build.hexOutCase (registry q) vb
    ∃ echo enc m, exec (.fpMultiply p a b) s = .next (s.answer (.arith echo enc m))
      ∧ (A.cls = .nan ∨ B.cls = .nan → enc.result.cls = .nan ∧ m = false)
      ∧ (A.cls = .infinity → B.cls = .infinity →
          enc.result.cls = .infinity ∧ enc.result.fields.sign = A.fields.sign ^^^ B.fields.sign ∧ m = true)
      ∧ (q ≠ .quad → A.cls = .infinity → B.cls = .zero → enc.result.cls = .nan ∧ m = false)
      ∧ (q ≠ .quad → A.cls = .zero → B.cls = .infinity → enc.result.cls = .nan ∧ m = false)
      ∧ (q ≠ .quad → A.cls = .infinity → B.cls = .subnormal ∨ B.cls = .normal →
          enc.result.cls = .infinity ∧ enc.result.fields.sign = A.fields.sign ^^^ B.fields.sign ∧ m = true)
      ∧ (q ≠ .quad → A.cls = .subnormal ∨ A.cls = .normal → B.cls = .infinity →
          enc.result.cls = .infinity ∧ enc.result.fields.sign = A.fields.sign ^^^ B.fields.sign ∧ m = true)
      ∧ (q ≠ .quad → A.cls.isFinite → B.cls.isFinite → A.value.real * B.value.real = 0 →
          enc.result.cls = .zero ∧ enc.result.fields.sign = A.fields.sign ^^^ B.fields.sign ∧ m = true)

/-- At double the layer returns the host's own result: the exact sum or product of two finite operands, where it is not
zero, rounded once to the nearest double, or infinity from the overflow threshold on; `exact_match` is 1. The host's binary64
is the spec's own assumption (log entry 9). -/
def Obligations.DoubleArithmeticRoundsOnce : Prop :=
  ∀ (s : State) (a b : OperandForm) (va vb : Nat) (op : ArithOp),
    s.build.hasArith = true → s.build.wf = true →
    readPattern (registry .double) a s.cmd.intIn s.cmd.strIn = .ok va →
    readPattern (registry .double) b s.cmd.intInB s.cmd.strInB = .ok vb →
    let A := decodePattern s.build.hexOutCase (registry .double) va
    let B := decodePattern s.build.hexOutCase (registry .double) vb
    let x : ℚ := match op with | .add => A.value.real + B.value.real | .multiply => A.value.real * B.value.real
    let i : Instr := match op with | .add => .fpAdd .double a b | .multiply => .fpMultiply .double a b
    A.cls.isFinite → B.cls.isFinite → x ≠ 0 →
    ∃ echo enc, exec i s = .next (s.answer (.arith echo enc true))
      ∧ enc.result.fields.sign = (if x < 0 then 1 else 0)
      ∧ (|x| < infinityFrom (registry .double) → enc.result.fields.exponent.toNat < (registry .double).expMax
          ∧ NearestValue (registry .double) |x| enc.result.fields.exponent.toNat enc.result.fields.fraction.toNat)
      ∧ (infinityFrom (registry .double) ≤ |x| → enc.result.cls = .infinity)

/-- At half, single and double: the exact sum or product of two finite operands, where it is not zero, is rounded once to
a nearest double, and what the instruction answers is the ENCODE of that double's exact value, with `exact_match` saying
whether that second rounding changed it. The host's binary64 is the spec's own assumption (log entry 9). -/
def Obligations.ArithmeticEncodesTheHostResult : Prop :=
  ∀ (s : State) (p : PrecCode) (q : Precision) (a b : OperandForm) (va vb : Nat) (op : ArithOp), precisionOf p = some q →
    q ≠ .quad → s.build.hasArith = true → s.build.wf = true →
    readPattern (registry q) a s.cmd.intIn s.cmd.strIn = .ok va →
    readPattern (registry q) b s.cmd.intInB s.cmd.strInB = .ok vb →
    let A := decodePattern s.build.hexOutCase (registry q) va
    let B := decodePattern s.build.hexOutCase (registry q) vb
    let x : ℚ := match op with | .add => A.value.real + B.value.real | .multiply => A.value.real * B.value.real
    let i : Instr := match op with | .add => .fpAdd p a b | .multiply => .fpMultiply p a b
    A.cls.isFinite → B.cls.isFinite → x ≠ 0 → |x| < infinityFrom (registry .double) →
    ∃ (e f sig : Nat) (exp2 : ℤ) (echo : EchoGroup) (enc : EncodeResult) (m : Bool),
      e < (registry .double).expMax ∧ f ≤ (registry .double).fracMask ∧ NearestValue (registry .double) |x| e f
      ∧ sig * (2 : ℚ) ^ exp2 = fieldsMagnitude (registry .double) e f
      ∧ exec i s = .next (s.answer (.arith echo enc m))
      ∧ enc = encodeOperand s.build q
          (.finite (if x < 0 then 1 else 0) (shortestDecimal sig exp2).1 (shortestDecimal sig exp2).2)
      ∧ (m = true ↔ enc.result.cls.isFinite ∧ enc.result.value.magnitude = fieldsMagnitude (registry .double) e f)
end

