-- ==== Sys2Proof/Laws/Registry.lean ====
section
/-!
SUPPORT. Facts of every registry row, stated once over a row so that no proof computes with the four tables (R82, R84).
-/
namespace Sys2Proof.Machine

/-- What later proofs use of a registry row. -/
structure RowFacts (c : PrecisionConfig) : Prop where
  n_eq : c.n = 1 + c.eb + c.f
  fracMask_eq : c.fracMask + 1 = 2 ^ c.f
  expMax_eq : c.expMax + 1 = 2 ^ c.eb
  bias_eq : c.expMax = 2 * c.bias + 1
  bias_ge : 15 ≤ c.bias
  f_ge : 10 ≤ c.f
  f_le : c.f ≤ 112
  eb_le : c.eb ≤ 15
  n_le : c.n ≤ 128
  n_ge : 16 ≤ c.n
  n_mod : c.n % 4 = 0
  f_lt_bias : c.f ≤ c.bias
  bias_le : c.bias ≤ 16383

theorem registry_facts (q : Precision) : RowFacts (registry q) := by
  cases q <;> constructor <;> decide

/-- Lookup of a recognized code never fails (R52). -/
theorem precisionOf_isSome (p : PrecCode) : (precisionOf p).isSome ↔ p.toBits.toNat < 4 := by
  cases p <;> decide

theorem precisionOf_eq_none (p : PrecCode) : precisionOf p = none ↔ 4 ≤ p.toBits.toNat := by
  cases p <;> decide

variable {c : PrecisionConfig}

theorem RowFacts.expMax_ge (h : RowFacts c) : 31 ≤ c.expMax := by have := h.bias_eq; have := h.bias_ge; omega

theorem RowFacts.fracMask_lt (h : RowFacts c) : c.fracMask < 2 ^ c.f := by have := h.fracMask_eq; omega

theorem RowFacts.expMax_lt (h : RowFacts c) : c.expMax < 2 ^ c.eb := by have := h.expMax_eq; omega

theorem RowFacts.two_pow_n (h : RowFacts c) : 2 ^ c.n = 2 * (2 ^ c.eb * 2 ^ c.f) := by
  rw [h.n_eq, Nat.pow_add, Nat.pow_add, Nat.pow_one, Nat.mul_assoc]

theorem RowFacts.two_pow_n_pred (h : RowFacts c) : 2 ^ (c.n - 1) = 2 ^ c.eb * 2 ^ c.f := by
  rw [h.n_eq, show 1 + c.eb + c.f - 1 = c.eb + c.f by omega, Nat.pow_add]

theorem RowFacts.pow_eb_le (h : RowFacts c) : 2 ^ c.eb ≤ 2 ^ 15 := Nat.pow_le_pow_right (by decide) h.eb_le

theorem RowFacts.pow_f_le (h : RowFacts c) : 2 ^ c.f ≤ 2 ^ 112 := Nat.pow_le_pow_right (by decide) h.f_le

theorem RowFacts.pow_n_le (h : RowFacts c) : 2 ^ c.n ≤ 2 ^ 128 := Nat.pow_le_pow_right (by decide) h.n_le

end Sys2Proof.Machine
end

