-- ==== Sys2Proof/Laws/Packer.lean ====
section
/-!
SUPPORT. The packer within its contract (R90, R92, R99), over natural numbers, and the ports that carry its results.
-/
namespace Sys2Proof.Machine

/-- The triple is one of the precision's (R27). -/
structure Fields.Fit (c : PrecisionConfig) (t : Fields) : Prop where
  sign_le : t.sign ≤ 1
  exponent_le : t.exponent ≤ c.expMax
  fraction_le : t.fraction ≤ c.fracMask

/-- The pattern of a triple (R90). -/
def Fields.pattern (c : PrecisionConfig) (t : Fields) : Nat :=
  t.sign * 2 ^ (c.n - 1) + t.exponent * 2 ^ c.f + t.fraction

variable {c : PrecisionConfig}

theorem Fields.pattern_low_lt (h : RowFacts c) {t : Fields} (ht : t.Fit c) :
    t.exponent * 2 ^ c.f + t.fraction < 2 ^ (c.n - 1) := by
  rw [h.two_pow_n_pred]
  have he : t.exponent + 1 ≤ 2 ^ c.eb := by have := h.expMax_eq; have := ht.exponent_le; omega
  have hf : t.fraction < 2 ^ c.f := lt_of_le_of_lt ht.fraction_le h.fracMask_lt
  calc t.exponent * 2 ^ c.f + t.fraction < (t.exponent + 1) * 2 ^ c.f := by rw [Nat.add_one_mul]; omega
    _ ≤ 2 ^ c.eb * 2 ^ c.f := Nat.mul_le_mul_right _ he

theorem Fields.pattern_lt (h : RowFacts c) {t : Fields} (ht : t.Fit c) : t.pattern c < 2 ^ c.n := by
  have hl := Fields.pattern_low_lt h ht
  have hn : 2 ^ c.n = 2 * 2 ^ (c.n - 1) := by rw [h.two_pow_n, h.two_pow_n_pred]
  have hs : t.sign * 2 ^ (c.n - 1) ≤ 1 * 2 ^ (c.n - 1) := Nat.mul_le_mul_right _ ht.sign_le
  unfold Fields.pattern
  omega

/-- Within the contract the three terms of `pack` are disjoint (R90). -/
theorem packBits_eq (h : RowFacts c) {t : Fields} (ht : t.Fit c) :
    packBits c t.sign t.exponent t.fraction = t.pattern c := by
  have hf : t.fraction < 2 ^ c.f := lt_of_le_of_lt ht.fraction_le h.fracMask_lt
  have hm : c.fracMask = 2 ^ c.f - 1 := by have := h.fracMask_eq; omega
  unfold packBits Fields.pattern
  rw [hm, Nat.and_two_pow_sub_one_eq_mod, Nat.mod_eq_of_lt hf, Nat.or_assoc, ← Nat.shiftLeft_add_eq_or_of_lt hf,
    Nat.shiftLeft_eq t.exponent]
  rw [← Nat.shiftLeft_add_eq_or_of_lt (Fields.pattern_low_lt h ht), Nat.shiftLeft_eq, Nat.add_assoc]

/-- Unpacking a pattern of the precision gives a triple of the precision, of that pattern (R92). -/
theorem unpackFields_fit (h : RowFacts c) {v : Nat} (hv : v < 2 ^ c.n) : (unpackFields c v).Fit c where
  sign_le := by
    have hn : 2 ^ c.n = 2 * 2 ^ (c.n - 1) := by rw [h.two_pow_n, h.two_pow_n_pred]
    rw [hn] at hv
    exact Nat.lt_succ_iff.mp (Nat.div_lt_of_lt_mul (by rw [Nat.mul_comm]; exact hv))
  exponent_le := by
    have : v / 2 ^ c.f % 2 ^ c.eb < 2 ^ c.eb := Nat.mod_lt _ (by positivity)
    have := h.expMax_eq
    show v / 2 ^ c.f % 2 ^ c.eb ≤ c.expMax
    omega
  fraction_le := by
    have : v % 2 ^ c.f < 2 ^ c.f := Nat.mod_lt _ (by positivity)
    have := h.fracMask_eq
    show v % 2 ^ c.f ≤ c.fracMask
    omega

theorem unpackFields_pattern (h : RowFacts c) (v : Nat) : (unpackFields c v).pattern c = v := by
  have h1 : v / 2 ^ (c.n - 1) = v / 2 ^ c.f / 2 ^ c.eb := by
    rw [h.two_pow_n_pred, Nat.mul_comm, Nat.div_div_eq_div_mul]
  have h2 := Nat.div_add_mod (v / 2 ^ c.f) (2 ^ c.eb)
  have h3 := Nat.div_add_mod v (2 ^ c.f)
  show v / 2 ^ (c.n - 1) * 2 ^ (c.n - 1) + v / 2 ^ c.f % 2 ^ c.eb * 2 ^ c.f + v % 2 ^ c.f = v
  rw [h1, h.two_pow_n_pred]
  calc _ = 2 ^ c.f * (2 ^ c.eb * (v / 2 ^ c.f / 2 ^ c.eb) + v / 2 ^ c.f % 2 ^ c.eb) + v % 2 ^ c.f := by ring
    _ = v := by rw [h2, h3]

/-- The pattern of a triple of the precision unpacks to the triple (R99). -/
theorem unpackFields_of_pattern (h : RowFacts c) {t : Fields} (ht : t.Fit c) : unpackFields c (t.pattern c) = t := by
  have hl := Fields.pattern_low_lt h ht
  have hf : t.fraction < 2 ^ c.f := lt_of_le_of_lt ht.fraction_le h.fracMask_lt
  have he : t.exponent < 2 ^ c.eb := lt_of_le_of_lt ht.exponent_le h.expMax_lt
  have e1 : t.pattern c = 2 ^ (c.n - 1) * t.sign + (t.exponent * 2 ^ c.f + t.fraction) := by
    unfold Fields.pattern; ring
  have e2 : t.pattern c = 2 ^ c.f * (2 ^ c.eb * t.sign + t.exponent) + t.fraction := by
    unfold Fields.pattern; rw [h.two_pow_n_pred]; ring
  obtain ⟨s, e, f⟩ := t
  simp only [unpackFields, Fields.mk.injEq]
  refine ⟨?_, ?_, ?_⟩
  · rw [e1, Nat.mul_add_div (by positivity), Nat.div_eq_of_lt hl, Nat.add_zero]
  · rw [e2, Nat.mul_add_div (by positivity), Nat.div_eq_of_lt hf, Nat.add_zero, Nat.mul_add_mod, Nat.mod_eq_of_lt he]
  · rw [e2, Nat.mul_add_mod, Nat.mod_eq_of_lt hf]

/-- Nothing is lost on the `fields` ports (R210). -/
theorem Fields.toPorts_toNat (h : RowFacts c) {t : Fields} (ht : t.Fit c) :
    t.toPorts.sign.toNat = t.sign ∧ t.toPorts.exponent.toNat = t.exponent ∧ t.toPorts.fraction.toNat = t.fraction := by
  have he : t.exponent < 2 ^ 15 := lt_of_lt_of_le (lt_of_le_of_lt ht.exponent_le h.expMax_lt) h.pow_eb_le
  have hf : t.fraction < 2 ^ 112 := lt_of_lt_of_le (lt_of_le_of_lt ht.fraction_le h.fracMask_lt) h.pow_f_le
  have hs : t.sign < 2 ^ 1 := by have := ht.sign_le; omega
  simp only [Fields.toPorts, BitVec.toNat_ofNat]
  exact ⟨Nat.mod_eq_of_lt hs, Nat.mod_eq_of_lt he, Nat.mod_eq_of_lt hf⟩

/-- Nothing is lost on the `bits` port (R210). -/
theorem bitsPort_toNat (h : RowFacts c) {v : Nat} (hv : v < 2 ^ c.n) : (bitsPort v).toNat = v := by
  simp only [bitsPort, BitVec.toNat_ofNat]
  exact Nat.mod_eq_of_lt (lt_of_lt_of_le hv h.pow_n_le)

/-- A triple that stands on the ports, as natural numbers. -/
def Fields.ofPorts (t : BitFields) : Fields := ⟨t.sign.toNat, t.exponent.toNat, t.fraction.toNat⟩

theorem Fields.ofPorts_toPorts (h : RowFacts c) {t : Fields} (ht : t.Fit c) : Fields.ofPorts t.toPorts = t := by
  obtain ⟨h1, h2, h3⟩ := Fields.toPorts_toNat h ht
  simp only [Fields.ofPorts, h1, h2, h3]

end Sys2Proof.Machine
end

