-- ==== Sys2Proof/Laws/Rational.lean ====
section
/-!
SUPPORT. What the operations on `Frac` compute, as rational numbers: scaling, the decimal magnitude, the binary exponent,
and the rounding decision of the split.
-/
namespace Sys2Proof.Machine

theorem Frac.rat_pos {x : Frac} (hn : 0 < x.num) (hd : 0 < x.den) : 0 < x.rat := by
  unfold Frac.rat; positivity

/-- `2^k` for an integer `k`, as the quotient the code forms. -/
theorem two_zpow_eq (k : ℤ) : (2 : ℚ) ^ k = 2 ^ k.toNat / 2 ^ (-k).toNat := by
  rcases le_total 0 k with h | h
  · have h2 : (-k).toNat = 0 := by omega
    rw [h2, pow_zero, div_one]
    conv_lhs => rw [← Int.toNat_of_nonneg h]
    exact zpow_natCast _ _
  · have h2 : k.toNat = 0 := by omega
    rw [h2, pow_zero, one_div]
    have h3 : k = -((-k).toNat : ℤ) := by omega
    conv_lhs => rw [h3]
    rw [zpow_neg, zpow_natCast]

theorem ten_zpow_eq (k : ℤ) : (10 : ℚ) ^ k = 10 ^ k.toNat / 10 ^ (-k).toNat := by
  rcases le_total 0 k with h | h
  · have h2 : (-k).toNat = 0 := by omega
    rw [h2, pow_zero, div_one]
    conv_lhs => rw [← Int.toNat_of_nonneg h]
    exact zpow_natCast _ _
  · have h2 : k.toNat = 0 := by omega
    rw [h2, pow_zero, one_div]
    have h3 : k = -((-k).toNat : ℤ) := by omega
    conv_lhs => rw [h3]
    rw [zpow_neg, zpow_natCast]

theorem Frac.scale2_rat (x : Frac) (k : ℤ) : (x.scale2 k).rat = x.rat * (2 : ℚ) ^ k := by
  rw [two_zpow_eq]
  simp only [Frac.rat, Frac.scale2, Nat.cast_mul, Nat.cast_pow, Nat.cast_ofNat]
  rw [div_mul_div_comm]

theorem Frac.scale2_den_pos {x : Frac} (h : 0 < x.den) (k : ℤ) : 0 < (x.scale2 k).den := by
  simp only [Frac.scale2]; positivity

theorem Frac.scale2_num_pos {x : Frac} (h : 0 < x.num) (k : ℤ) : 0 < (x.scale2 k).num := by
  simp only [Frac.scale2]; positivity

theorem Frac.minusOne_rat {x : Frac} (hd : 0 < x.den) (h : 1 ≤ x.rat) : x.minusOne.rat = x.rat - 1 := by
  have hd' : (0 : ℚ) < x.den := by exact_mod_cast hd
  have hle : x.den ≤ x.num := by
    unfold Frac.rat at h
    rw [le_div_iff₀ hd', one_mul] at h
    exact_mod_cast h
  simp only [Frac.rat, Frac.minusOne, Nat.cast_sub hle]
  rw [sub_div, div_self hd'.ne']

theorem dec_rat (k : Nat) (e : ℤ) : (dec k e).rat = decRat k e := by
  simp only [decRat, ten_zpow_eq, dec, Frac.rat, Nat.cast_mul, Nat.cast_pow, Nat.cast_ofNat]
  rw [mul_div_assoc]

theorem dec_den_pos (k : Nat) (e : ℤ) : 0 < (dec k e).den := by
  simp only [dec]; positivity

theorem dec_num_pos {k : Nat} (h : k ≠ 0) (e : ℤ) : 0 < (dec k e).num := by
  simp only [dec]
  have := Nat.pos_of_ne_zero h
  positivity

/-- `bitLen` brackets its number (R10). -/
theorem bitLen_bounds {n : Nat} (h : 0 < n) : 2 ^ (bitLen n) ≤ 2 * n ∧ n < 2 ^ (bitLen n) := by
  have h0 : n ≠ 0 := h.ne'
  simp only [bitLen, if_neg h0]
  refine ⟨?_, Nat.lt_log2_self⟩
  rw [pow_succ, Nat.mul_comm]
  exact Nat.mul_le_mul_left 2 (Nat.log2_self_le h0)

/-- The bracket R10's integer procedure finds. -/
theorem floorLog2_spec {x : Frac} (hn : 0 < x.num) (hd : 0 < x.den) :
    (2 : ℚ) ^ floorLog2 x ≤ x.rat ∧ x.rat < (2 : ℚ) ^ (floorLog2 x + 1) := by
  obtain ⟨p, q⟩ := x
  simp only at hn hd
  have hp := bitLen_bounds hn
  have hq := bitLen_bounds hd
  have hpQ : (0 : ℚ) < p := by exact_mod_cast hn
  have hqQ : (0 : ℚ) < q := by exact_mod_cast hd
  have p1 : (2 : ℚ) ^ (bitLen p : ℤ) ≤ 2 * p := by rw [zpow_natCast]; exact_mod_cast hp.1
  have p2 : (p : ℚ) < (2 : ℚ) ^ (bitLen p : ℤ) := by rw [zpow_natCast]; exact_mod_cast hp.2
  have q1 : (2 : ℚ) ^ (bitLen q : ℤ) ≤ 2 * q := by rw [zpow_natCast]; exact_mod_cast hq.1
  have q2 : (q : ℚ) < (2 : ℚ) ^ (bitLen q : ℤ) := by rw [zpow_natCast]; exact_mod_cast hq.2
  set d : ℤ := bitLen p - bitLen q with hdd
  have hsplit : (2 : ℚ) ^ (bitLen p : ℤ) = (2 : ℚ) ^ d * (2 : ℚ) ^ (bitLen q : ℤ) := by
    rw [← zpow_add₀ (by norm_num : (2 : ℚ) ≠ 0)]; congr 1; omega
  have h2d : (0 : ℚ) < (2 : ℚ) ^ d := by positivity
  have hcond : (q * 2 ^ d.toNat ≤ p * 2 ^ (-d).toNat) ↔ (2 : ℚ) ^ d ≤ p / q := by
    rw [le_div_iff₀ hqQ, two_zpow_eq, div_mul_eq_mul_div, div_le_iff₀ (by positivity), mul_comm]
    exact_mod_cast Iff.rfl
  have hup : (p : ℚ) / q < (2 : ℚ) ^ (d + 1) := by
    rw [div_lt_iff₀ hqQ, zpow_add₀ (by norm_num : (2 : ℚ) ≠ 0), zpow_one]
    calc (p : ℚ) < (2 : ℚ) ^ d * (2 : ℚ) ^ (bitLen q : ℤ) := by rw [← hsplit]; exact p2
      _ ≤ (2 : ℚ) ^ d * (2 * q) := by gcongr
      _ = _ := by ring
  have hlow : (2 : ℚ) ^ (d - 1) ≤ p / q := by
    rw [le_div_iff₀ hqQ, zpow_sub₀ (by norm_num : (2 : ℚ) ≠ 0), zpow_one]
    have : (2 : ℚ) ^ d * q ≤ 2 * p := by
      calc (2 : ℚ) ^ d * q ≤ (2 : ℚ) ^ d * (2 : ℚ) ^ (bitLen q : ℤ) := by gcongr
        _ ≤ 2 * p := by rw [← hsplit]; exact p1
    linarith
  have hfl : floorLog2 ⟨p, q⟩ = if q * 2 ^ d.toNat ≤ p * 2 ^ (-d).toNat then d else d - 1 := rfl
  show (2 : ℚ) ^ floorLog2 ⟨p, q⟩ ≤ p / q ∧ (p : ℚ) / q < (2 : ℚ) ^ (floorLog2 ⟨p, q⟩ + 1)
  rw [hfl]
  split
  · next hc => exact ⟨hcond.mp hc, hup⟩
  · next hc =>
    refine ⟨hlow, ?_⟩
    rw [sub_add_cancel]
    exact not_le.mp (fun hh => hc (hcond.mpr hh))

/-! ### The split -/

/-- The remainder of a fraction over its integer part. -/
theorem Frac.rat_eq_floor_add {y : Frac} (hd : 0 < y.den) :
    y.rat = (grs y).m + (y.num % y.den : ℕ) / y.den := by
  have hd' : (y.den : ℚ) ≠ 0 := by exact_mod_cast hd.ne'
  have h : (y.num : ℚ) = y.den * (y.num / y.den : ℕ) + (y.num % y.den : ℕ) := by
    exact_mod_cast (Nat.div_add_mod y.num y.den).symm
  show (y.num : ℚ) / y.den = (y.num / y.den : ℕ) + (y.num % y.den : ℕ) / y.den
  rw [eq_comm, h]
  field_simp

theorem grs_m_le {y : Frac} (hd : 0 < y.den) : ((grs y).m : ℚ) ≤ y.rat ∧ y.rat < (grs y).m + 1 := by
  have hd' : (0 : ℚ) < y.den := by exact_mod_cast hd
  have hlt : ((y.num % y.den : ℕ) : ℚ) < y.den := by exact_mod_cast Nat.mod_lt _ hd
  rw [Frac.rat_eq_floor_add hd]
  constructor
  · have : (0 : ℚ) ≤ (y.num % y.den : ℕ) / y.den := by positivity
    linarith
  · have : ((y.num % y.den : ℕ) : ℚ) / y.den < 1 := by rw [div_lt_one hd']; exact hlt
    linarith

/-- The round-up decision on the remainder itself: more than half, or exactly half with an odd integer part (R131). -/
theorem roundUp_grs_nat {y : Frac} (hd : 0 < y.den) : roundUp (grs y) = true ↔
    y.den < 2 * (y.num % y.den) ∨ (y.den = 2 * (y.num % y.den) ∧ y.num / y.den % 2 = 1) := by
  have hm : ∀ b : Bool, roundUp (grs y) = b ↔ roundUp { grs y with m := y.num / y.den } = b := fun _ => Iff.rfl
  rw [hm]
  generalize y.num / y.den = m
  simp only [grs]
  generalize y.num % y.den = t
  by_cases h1 : y.den ≤ 2 * t
  · by_cases h2 : y.den ≤ 2 * (2 * t - y.den)
    · simp [roundUp, h1, h2]
      left; omega
    · simp [roundUp, h1, h2]
      omega
  · simp [roundUp, h1]
    omega

/-- The round-up decision on the rational (R131, R135). -/
theorem roundUp_grs {y : Frac} (hd : 0 < y.den) : roundUp (grs y) = true ↔
    1 / 2 < y.rat - (grs y).m ∨ (y.rat - (grs y).m = 1 / 2 ∧ (grs y).m % 2 = 1) := by
  have hd' : (0 : ℚ) < y.den := by exact_mod_cast hd
  rw [roundUp_grs_nat hd, Frac.rat_eq_floor_add hd, add_sub_cancel_left, div_lt_div_iff₀ (by norm_num) hd',
    div_eq_div_iff hd'.ne' (by norm_num)]
  have e1 : (y.den < 2 * (y.num % y.den)) ↔ (1 * (y.den : ℚ) < (y.num % y.den : ℕ) * 2) := by
    rw [one_mul, mul_comm]; exact_mod_cast Iff.rfl
  have e2 : (y.den = 2 * (y.num % y.den)) ↔ (((y.num % y.den : ℕ) : ℚ) * 2 = 1 * y.den) := by
    rw [one_mul, mul_comm, eq_comm]; exact_mod_cast Iff.rfl
  rw [e1, e2]
  exact Iff.rfl

/-- Nothing was discarded exactly when the three bits are 0 (R135). -/
theorem grs_exact {y : Frac} (hd : 0 < y.den) :
    ((grs y).g = false ∧ (grs y).r = false ∧ (grs y).s = false) ↔ y.rat = (grs y).m := by
  have hd' : (0 : ℚ) < y.den := by exact_mod_cast hd
  have hlt := Nat.mod_lt y.num hd
  have e : y.rat = (grs y).m ↔ y.num % y.den = 0 := by
    rw [Frac.rat_eq_floor_add hd, add_eq_left, div_eq_zero_iff]
    constructor
    · rintro (h | h)
      · exact_mod_cast h
      · exact absurd h hd'.ne'
    · intro h; left; exact_mod_cast h
  rw [e]
  simp only [grs, decide_eq_false_iff_not]
  generalize y.num % y.den = t at hlt
  constructor
  · rintro ⟨h1, h2, h3⟩
    simp only [h1, decide_false, Bool.toNat_false, Nat.zero_mul, Nat.sub_zero] at h2 h3
    simp only [h2, decide_false, Bool.toNat_false, Nat.zero_mul, Nat.sub_zero] at h3
    omega
  · rintro rfl
    have h1 : ¬ y.den ≤ 2 * 0 := by omega
    simp only [h1, decide_false, Bool.toNat_false, Nat.zero_mul, Nat.sub_zero]
    simp

/-! ### The Rounding Engine -/

/-- What `rne` stands for within its precondition: the integer part, plus 1 when it rounds up (R132). -/
theorem rne_value {y : Split} {f : Nat} (h : y.m + 1 ≤ 2 ^ f) :
    (rne y f).2.toNat * 2 ^ f + (rne y f).1 = y.m + (roundUp y).toNat ∧ (rne y f).1 < 2 ^ f
      ∧ ((rne y f).2 = true ↔ roundUp y = true ∧ y.m + 1 = 2 ^ f) := by
  unfold rne
  cases hu : roundUp y with
  | false => simp; omega
  | true =>
    by_cases hm : y.m + 1 = 2 ^ f
    · simp [hm]
    · simp [hm]; omega

end Sys2Proof.Machine
end

