-- ==== Sys2Proof/Laws/Value.lean ====
section
/-!
SUPPORT. The magnitude of a pattern as a function of its low `N-1` bits: it is strictly increasing across subnormals,
normals and the threshold pattern of infinity (R187), which is what rounding and order facts rest on.
-/
namespace Sys2Proof.Machine

/-- The magnitude of the pattern with exponent and fraction fields `k / 2^F` and `k % 2^F`; the pattern of infinity is
given the value `2^(bias+1)` a further normal number would have. -/
def patValue (c : PrecisionConfig) (k : Nat) : ℚ := fieldsMagnitude c (k / 2 ^ c.f) (k % 2 ^ c.f)

variable {c : PrecisionConfig}

theorem patValue_fields {e f : Nat} (hf : f < 2 ^ c.f) : patValue c (e * 2 ^ c.f + f) = fieldsMagnitude c e f := by
  have h1 : (e * 2 ^ c.f + f) / 2 ^ c.f = e := by
    rw [Nat.mul_comm, Nat.mul_add_div (by positivity), Nat.div_eq_of_lt hf, Nat.add_zero]
  have h2 : (e * 2 ^ c.f + f) % 2 ^ c.f = f := by
    rw [Nat.mul_comm, Nat.mul_add_mod, Nat.mod_eq_of_lt hf]
  rw [patValue, h1, h2]

/-- A normal pair as an integer significand (R182). -/
theorem fieldsMagnitude_normal {e f : Nat} (he : e ≠ 0) :
    fieldsMagnitude c e f = ((2 ^ c.f + f : ℕ) : ℚ) * (2 : ℚ) ^ ((e : ℤ) - c.bias - c.f) := by
  rw [fieldsMagnitude, if_neg he, zpow_sub₀ (by norm_num : (2 : ℚ) ≠ 0) _ (c.f : ℤ), zpow_natCast]
  push_cast
  field_simp

/-- A subnormal pair as an integer significand (R182). -/
theorem fieldsMagnitude_subnormal {f : Nat} :
    fieldsMagnitude c 0 f = (f : ℚ) * (2 : ℚ) ^ (1 - (c.bias : ℤ) - c.f) := by
  rw [fieldsMagnitude, if_pos rfl, zpow_sub₀ (by norm_num : (2 : ℚ) ≠ 0) _ (c.f : ℤ), zpow_natCast]
  field_simp

/-- On the patterns of one binade, both ends included, the magnitude is the significand times one power of two. -/
theorem patValue_band {j n : Nat} (h1 : n ≤ 2 * 2 ^ c.f) (h0 : j = 0 ∨ 2 ^ c.f ≤ n) :
    patValue c (j * 2 ^ c.f + n) = (n : ℚ) * (2 : ℚ) ^ ((j : ℤ) + 1 - c.bias - c.f) := by
  rcases Nat.lt_or_ge n (2 ^ c.f) with hlt | hge
  · have hj : j = 0 := by omega
    subst hj
    rw [patValue_fields hlt, fieldsMagnitude_subnormal]
    congr 2
  · rcases Nat.lt_or_ge n (2 * 2 ^ c.f) with hlt2 | hge2
    · have e1 : j * 2 ^ c.f + n = (j + 1) * 2 ^ c.f + (n - 2 ^ c.f) := by rw [Nat.add_one_mul]; omega
      rw [e1, patValue_fields (by omega), fieldsMagnitude_normal (by omega),
        show 2 ^ c.f + (n - 2 ^ c.f) = n by omega]
      congr 2
    · have e1 : j * 2 ^ c.f + n = (j + 2) * 2 ^ c.f + 0 := by rw [Nat.add_mul]; omega
      have e2 : n = 2 * 2 ^ c.f := by omega
      rw [e1, patValue_fields (by positivity), fieldsMagnitude_normal (by omega), e2, Nat.add_zero]
      have e3 : ((j + 2 : ℕ) : ℤ) - c.bias - c.f = ((j : ℤ) + 1 - c.bias - c.f) + 1 := by push_cast; ring
      rw [e3, zpow_add₀ (by norm_num : (2 : ℚ) ≠ 0), zpow_one]
      push_cast; ring

/-- Every pattern lies in a binade together with its successor. -/
theorem exists_band (c : PrecisionConfig) (k : Nat) :
    ∃ j n, k = j * 2 ^ c.f + n ∧ n + 1 ≤ 2 * 2 ^ c.f ∧ (j = 0 ∨ 2 ^ c.f ≤ n) := by
  have hp : 0 < 2 ^ c.f := by positivity
  have h1 := Nat.div_add_mod k (2 ^ c.f)
  have h2 := Nat.mod_lt k hp
  rcases Nat.eq_zero_or_pos (k / 2 ^ c.f) with h0 | h0
  · exact ⟨0, k % 2 ^ c.f, by rw [h0] at h1; omega, by omega, .inl rfl⟩
  · refine ⟨k / 2 ^ c.f - 1, 2 ^ c.f + k % 2 ^ c.f, ?_, by omega, .inr (by omega)⟩
    obtain ⟨i, hi⟩ : ∃ i, k / 2 ^ c.f = i + 1 := ⟨k / 2 ^ c.f - 1, by omega⟩
    rw [hi] at h1 ⊢
    rw [Nat.mul_comm, Nat.add_one_mul] at h1
    rw [Nat.add_sub_cancel]
    omega

theorem patValue_succ_lt (k : Nat) : patValue c k < patValue c (k + 1) := by
  obtain ⟨j, n, rfl, hn, h0⟩ := exists_band c k
  rw [Nat.add_assoc, patValue_band (by omega) h0, patValue_band hn (h0.imp_right (by omega))]
  have : (0 : ℚ) < (2 : ℚ) ^ ((j : ℤ) + 1 - c.bias - c.f) := by positivity
  push_cast
  nlinarith

/-- R187: the order of the patterns is the order of the magnitudes. -/
theorem patValue_strictMono : StrictMono (patValue c) :=
  strictMono_nat_of_lt_succ patValue_succ_lt

theorem patValue_zero : patValue c 0 = 0 := by
  have h := @patValue_band c 0 0 (by omega) (.inl rfl)
  simpa using h

theorem patValue_two_pow_f : patValue c (2 ^ c.f) = minNormal c := by
  have h := @patValue_band c 0 (2 ^ c.f) (by omega) (.inl rfl)
  rw [Nat.zero_mul, Nat.zero_add] at h
  rw [h, minNormal, zpow_sub₀ (by norm_num : (2 : ℚ) ≠ 0) _ (c.f : ℤ), zpow_natCast]
  push_cast
  rw [mul_div_assoc', mul_div_cancel_left₀ _ (by positivity)]

/-- The three thresholds are midpoints of neighbouring patterns. -/
theorem halfMinSubnormal_eq : halfMinSubnormal c = (patValue c 0 + patValue c 1) / 2 := by
  have h := @patValue_band c 0 1 (by have : 0 < 2 ^ c.f := by positivity
                                     omega) (.inl rfl)
  rw [Nat.zero_mul, Nat.zero_add] at h
  rw [patValue_zero, h, halfMinSubnormal]
  have e : ((0 : ℕ) : ℤ) + 1 - c.bias - c.f = (-(c.bias : ℤ) - c.f) + 1 := by push_cast; ring
  rw [e, zpow_add₀ (by norm_num : (2 : ℚ) ≠ 0), zpow_one]
  push_cast; ring

theorem clampFrom_eq : clampFrom c = (patValue c (2 ^ c.f - 1) + patValue c (2 ^ c.f)) / 2 := by
  have hp : 0 < 2 ^ c.f := by positivity
  have h1 := @patValue_band c 0 (2 ^ c.f - 1) (by omega) (.inl rfl)
  have h2 := @patValue_band c 0 (2 ^ c.f) (by omega) (.inl rfl)
  rw [Nat.zero_mul, Nat.zero_add] at h1 h2
  rw [h1, h2, clampFrom]
  have e : ((0 : ℕ) : ℤ) + 1 - c.bias - c.f = (-(c.bias : ℤ) - c.f) + 1 := by push_cast; ring
  rw [e, zpow_add₀ (by norm_num : (2 : ℚ) ≠ 0), zpow_one, Nat.cast_sub (by omega)]
  push_cast; ring

theorem infinityFrom_eq (h : RowFacts c) :
    infinityFrom c = (patValue c (c.expMax * 2 ^ c.f - 1) + patValue c (c.expMax * 2 ^ c.f)) / 2 := by
  have hp : 0 < 2 ^ c.f := by positivity
  have hb := h.bias_eq
  have hg := h.bias_ge
  obtain ⟨i, hi⟩ : ∃ i, c.expMax = i + 2 := ⟨c.expMax - 2, by omega⟩
  have e1 : c.expMax * 2 ^ c.f - 1 = i * 2 ^ c.f + (2 * 2 ^ c.f - 1) := by rw [hi, Nat.add_mul]; omega
  have e2 : c.expMax * 2 ^ c.f = i * 2 ^ c.f + 2 * 2 ^ c.f := by rw [hi, Nat.add_mul]
  rw [e1, e2, patValue_band (by omega) (.inr (by omega)), patValue_band (by omega) (.inr (by omega)), infinityFrom]
  have e3 : (i : ℤ) + 1 - c.bias - c.f = ((c.bias : ℤ) - c.f - 1) + 1 := by omega
  rw [e3, zpow_add₀ (by norm_num : (2 : ℚ) ≠ 0), zpow_one, Nat.cast_sub (by omega)]
  push_cast; ring

end Sys2Proof.Machine
end

