-- ==== Sys2Proof/Laws/Decoder.lean ====
section
/-!
SUPPORT. What DECODE makes of a pattern, and ENCODE's last step as DECODE of the pattern it packed (R160, R163); the
exact shortest decimal (R183).
-/
namespace Sys2Proof.Machine

variable {c : PrecisionConfig}

/-! ### Classes (R120) -/

theorem classifyFields_infinity {m e f : Nat} : classifyFields m e f = .infinity ↔ e = m ∧ f = 0 := by
  unfold classifyFields; split_ifs <;> simp_all

theorem classifyFields_nan {m e f : Nat} : classifyFields m e f = .nan ↔ e = m ∧ f ≠ 0 := by
  unfold classifyFields; split_ifs <;> simp_all

theorem classifyFields_zero {m e f : Nat} (hm : 0 < m) : classifyFields m e f = .zero ↔ e = 0 ∧ f = 0 := by
  unfold classifyFields; split_ifs <;> simp_all [hm.ne']

theorem classifyFields_subnormal {m e f : Nat} (hm : 0 < m) : classifyFields m e f = .subnormal ↔ e = 0 ∧ f ≠ 0 := by
  unfold classifyFields; split_ifs <;> simp_all [hm.ne']

theorem classifyFields_normal {m e f : Nat} : classifyFields m e f = .normal ↔ e ≠ m ∧ e ≠ 0 := by
  unfold classifyFields; split_ifs <;> simp_all

/-! ### The shortest exact decimal (R183) -/

theorem stripTwos_spec {fuel m : Nat} (hm : m ≠ 0) (hf : m.log2 ≤ fuel) :
    (stripTwos fuel m).1 * 2 ^ (stripTwos fuel m).2 = m ∧ (stripTwos fuel m).1 % 2 = 1 := by
  induction fuel generalizing m with
  | zero =>
    have h1 : m.log2 = 0 := by omega
    have h2 : m < 2 ^ (m.log2 + 1) := Nat.lt_log2_self
    rw [h1] at h2
    simp only [stripTwos, pow_zero, mul_one, true_and]
    omega
  | succ n ih =>
    simp only [stripTwos]
    split_ifs with h2
    · have h3 : m / 2 ≠ 0 := by omega
      have h4 : (m / 2).log2 ≤ n := by
        rw [Nat.log2_eq_log_two, Nat.log_div_base, ← Nat.log2_eq_log_two]; omega
      obtain ⟨i1, i2⟩ := ih h3 h4
      refine ⟨?_, i2⟩
      simp only [pow_succ, ← mul_assoc, i1]
      omega
    · exact ⟨by simp, by simp only []; omega⟩

/-- The decimal is exact, has no positive exponent, and with a negative one has no trailing zero. -/
theorem shortestDecimal_spec (m : Nat) (e : ℤ) :
    decRat (shortestDecimal m e).1 (shortestDecimal m e).2 = m * (2 : ℚ) ^ e
      ∧ (shortestDecimal m e).2 ≤ 0
      ∧ ((shortestDecimal m e).2 < 0 → (shortestDecimal m e).1 % 10 ≠ 0)
      ∧ ((shortestDecimal m e).1 = 0 ↔ m = 0) := by
  unfold shortestDecimal
  split_ifs with hm
  · subst hm; simp [decRat]
  obtain ⟨h1, h2⟩ := stripTwos_spec hm le_rfl
  generalize stripTwos m.log2 m = t at h1 h2
  obtain ⟨d, k⟩ := t
  simp only at h1 h2 ⊢
  have hd : d ≠ 0 := by omega
  have hmq : (m : ℚ) * (2 : ℚ) ^ e = d * (2 : ℚ) ^ (e + k) := by
    rw [← h1, Nat.cast_mul, Nat.cast_pow, Nat.cast_ofNat, zpow_add₀ (by norm_num : (2 : ℚ) ≠ 0), zpow_natCast]
    ring
  rw [hmq]
  unfold nativeDecimal
  split_ifs with h
  · refine ⟨?_, le_rfl, by simp, by simp [hd, hm]⟩
    simp only [decRat, zpow_zero, mul_one, Nat.cast_mul, Nat.cast_pow, Nat.cast_ofNat]
    conv_rhs => rw [← Int.toNat_of_nonneg h]
    rw [zpow_natCast]
  · refine ⟨?_, by simp only []; omega, fun _ => ?_, by simp [hd, hm]⟩
    · obtain ⟨n, hn⟩ : ∃ n : ℕ, e + k = -(n : ℤ) := ⟨(-(e + k)).toNat, by omega⟩
      have hn' : (-(e + k)).toNat = n := by omega
      simp only [decRat, hn', Nat.cast_mul, Nat.cast_pow, Nat.cast_ofNat]
      rw [hn, zpow_neg, zpow_neg, zpow_natCast, zpow_natCast, show (10 : ℚ) = 2 * 5 by norm_num, mul_pow]
      field_simp
    · have h5 : (d * 5 ^ (-(e + k)).toNat) % 2 = 1 := by
        rw [Nat.mul_mod, h2, Nat.pow_mod]; simp
      simp only []
      omega

/-! ### The CodecResult (R160, R186) -/

/-- ENCODE's last step is DECODE of the pattern it packed. -/
theorem finish_eq_decodePattern (h : RowFacts c) (hc : HexCase) {t : Fields} (ht : t.Fit c) :
    finish hc c t.sign t.exponent t.fraction = decodePattern hc c (t.pattern c) := by
  unfold finish decodePattern
  rw [packBits_eq h ht, unpackFields_of_pattern h ht]

/-- The plain fields of the CodecResult of a pattern. -/
theorem decodePattern_fields (h : RowFacts c) (hc : HexCase) {v : Nat} (hv : v < 2 ^ c.n) :
    (decodePattern hc c v).bits.toNat = v
      ∧ (decodePattern hc c v).fields.sign.toNat = (unpackFields c v).sign
      ∧ (decodePattern hc c v).fields.exponent.toNat = (unpackFields c v).exponent
      ∧ (decodePattern hc c v).fields.fraction.toNat = (unpackFields c v).fraction
      ∧ (decodePattern hc c v).cls = classifyFields c.expMax (unpackFields c v).exponent (unpackFields c v).fraction
      ∧ (decodePattern hc c v).value = (valueOf c (unpackFields c v)).toPorts := by
  obtain ⟨h1, h2, h3⟩ := Fields.toPorts_toNat h (unpackFields_fit h hv)
  exact ⟨bitsPort_toNat h hv, h1, h2, h3, rfl, rfl⟩

theorem decodePattern_fits (h : RowFacts c) (hc : HexCase) {v : Nat} (hv : v < 2 ^ c.n) :
    CodecFits hc c (decodePattern hc c v) ∧ patternOf c (decodePattern hc c v).fields = v := by
  obtain ⟨h0, h1, h2, h3, -, -⟩ := decodePattern_fields h hc hv
  have hf := unpackFields_fit h hv
  refine ⟨⟨by rw [h0]; exact hv, ⟨by rw [h2]; exact hf.exponent_le, by rw [h3]; exact hf.fraction_le⟩, by rw [h0]⟩, ?_⟩
  unfold patternOf
  rw [h1, h2, h3]
  exact unpackFields_pattern h v

/-- The significand on its port (R29). -/
theorem sigPort_toNat (h : RowFacts c) {f : Nat} (hf : f ≤ c.fracMask) :
    (BitVec.ofNat 113 f).toNat = f ∧ (BitVec.ofNat 113 (2 ^ c.f + f)).toNat = 2 ^ c.f + f := by
  have h1 := h.fracMask_lt
  have h2 := h.pow_f_le
  simp only [BitVec.toNat_ofNat]
  exact ⟨Nat.mod_eq_of_lt (by omega), Nat.mod_eq_of_lt (by omega)⟩

/-- The exponent of a significand on its port: 16 signed bits hold it at every precision (R182, R210). -/
theorem expPort_toInt (h : RowFacts c) {e : Nat} (he : e ≤ c.expMax) :
    (BitVec.ofInt 16 ((e : ℤ) - c.bias - c.f)).toInt = (e : ℤ) - c.bias - c.f := by
  have h1 := h.bias_eq
  have h2 := h.bias_le
  have h3 := h.f_le
  rw [BitVec.toInt_ofInt, Int.bmod_eq_of_le] <;> norm_num <;> omega

theorem expPort_subnormal_toInt (h : RowFacts c) :
    (BitVec.ofInt 16 (1 - (c.bias : ℤ) - c.f)).toInt = 1 - (c.bias : ℤ) - c.f := by
  have := expPort_toInt h (e := 1) (by have := h.expMax_ge; omega)
  exact_mod_cast this

/-- R181: the value of a triple of the precision, by its class. -/
theorem valueOf_fits (h : RowFacts c) {t : Fields} (ht : t.Fit c) (r : CodecResult) (hr : r.fields = t.toPorts)
    (hk : r.cls = classifyFields c.expMax t.exponent t.fraction) (hv : r.value = (valueOf c t).toPorts) :
    ValueFits c r := by
  obtain ⟨h1, h2, h3⟩ := Fields.toPorts_toNat h ht
  have hm : 0 < c.expMax := by have := h.expMax_ge; omega
  have h4 := sigPort_toNat h ht.fraction_le
  unfold ValueFits
  rw [hk, hv, hr, h2, h3]
  simp only [valueOf]
  cases hcls : classifyFields c.expMax t.exponent t.fraction with
  | zero =>
    obtain ⟨he, hf⟩ := (classifyFields_zero hm).mp hcls
    exact ⟨he, hf, rfl, rfl, by simp [ValueGroup.magnitude, Value.toPorts]⟩
  | subnormal =>
    obtain ⟨he, hf⟩ := (classifyFields_subnormal hm).mp hcls
    refine ⟨he, hf, rfl, rfl, ?_⟩
    have := @fieldsMagnitude_subnormal c t.fraction
    rw [fieldsMagnitude, if_pos rfl] at this
    rw [this]
    simp only [ValueGroup.magnitude, Value.toPorts, h4.1, expPort_subnormal_toInt h]
  | normal =>
    obtain ⟨he, hf⟩ := classifyFields_normal.mp hcls
    refine ⟨by omega, by have := ht.exponent_le; omega, rfl, rfl, ?_⟩
    have := @fieldsMagnitude_normal c t.exponent t.fraction hf
    rw [fieldsMagnitude, if_neg hf] at this
    rw [this]
    simp only [ValueGroup.magnitude, Value.toPorts, h4.2, expPort_toInt h ht.exponent_le]
  | infinity =>
    obtain ⟨he, hf⟩ := classifyFields_infinity.mp hcls
    exact ⟨he, hf, rfl⟩
  | nan =>
    obtain ⟨he, hf⟩ := classifyFields_nan.mp hcls
    exact ⟨he, hf, rfl⟩

theorem decodePattern_valueFits (h : RowFacts c) (hc : HexCase) {v : Nat} (hv : v < 2 ^ c.n) :
    ValueFits c (decodePattern hc c v) :=
  valueOf_fits h (unpackFields_fit h hv) _ rfl rfl rfl

/-- R182: the pair on the ports, by the class. -/
theorem decodePattern_pairFits (h : RowFacts c) (hc : HexCase) {v : Nat} (hv : v < 2 ^ c.n) :
    PairFits c (decodePattern hc c v) := by
  obtain ⟨-, -, h2, h3, hk, hval⟩ := decodePattern_fields h hc hv
  have hf := unpackFields_fit h hv
  have h4 := sigPort_toNat h hf.fraction_le
  unfold PairFits
  rw [hval, h2, h3, hk]
  unfold valueOf
  cases classifyFields c.expMax (unpackFields c v).exponent (unpackFields c v).fraction with
  | subnormal => exact ⟨h4.1, expPort_subnormal_toInt h⟩
  | normal => exact ⟨h4.2, expPort_toInt h hf.exponent_le⟩
  | zero => exact ⟨rfl, rfl⟩
  | infinity => exact ⟨rfl, rfl⟩
  | nan => exact ⟨rfl, rfl⟩

/-- The magnitude of a finite pattern is `patValue` of its low bits (R181). -/
theorem decodePattern_magnitude (h : RowFacts c) (hc : HexCase) {v : Nat} (hv : v < 2 ^ c.n)
    (hfin : (decodePattern hc c v).cls.isFinite) :
    (decodePattern hc c v).value.magnitude = patValue c (v % 2 ^ (c.n - 1)) := by
  obtain ⟨-, -, h2, h3, -, -⟩ := decodePattern_fields h hc hv
  have hvf := decodePattern_valueFits h hc hv
  have hft := unpackFields_fit h hv
  have hlow : v % 2 ^ (c.n - 1) = (unpackFields c v).exponent * 2 ^ c.f + (unpackFields c v).fraction := by
    have hp := unpackFields_pattern h v
    have hl := Fields.pattern_low_lt h hft
    conv_lhs => rw [← hp]
    rw [Fields.pattern, Nat.add_assoc, Nat.mul_comm, Nat.mul_add_mod, Nat.mod_eq_of_lt hl]
  rw [hlow, patValue_fields (lt_of_le_of_lt hft.fraction_le h.fracMask_lt), fieldsMagnitude]
  unfold ValueFits at hvf
  rw [h2, h3] at hvf
  rcases hfin with hk | hk | hk <;> rw [hk] at hvf
  · obtain ⟨he, hf, -, -, hm⟩ := hvf
    rw [hm, he, hf]; simp
  · obtain ⟨he, hf, -, -, hm⟩ := hvf
    rw [hm, he, if_pos rfl]
  · obtain ⟨he, hf, -, -, hm⟩ := hvf
    rw [hm, if_neg (by omega)]

end Sys2Proof.Machine
end

