-- ==== Sys2Proof/Laws/Encoder.lean ====
section
/-!
SUPPORT. Everything the rounding path can do, said once: it brackets the magnitude between a pattern and its successor,
decides by the midpoint, and ends in one of the two, in the carried pair, or in infinity (R155 to R159).
-/
namespace Sys2Proof.Machine

/-- What `roundMagnitude` answers for a magnitude `x` that lies between the patterns `k` and `k + 1`. -/
structure RoundSpec (c : PrecisionConfig) (carried : Nat × Nat) (x : ℚ) (r : Rounded) (k : Nat) : Prop where
  low : patValue c k ≤ x
  high : x < patValue c (k + 1)
  split_m : r.split.m = k % 2 ^ c.f
  up_iff : roundUp r.split = true ↔
    (patValue c k + patValue c (k + 1)) / 2 < x ∨ (x = (patValue c k + patValue c (k + 1)) / 2 ∧ k % 2 = 1)
  exact_iff : (r.split.g = false ∧ r.split.r = false ∧ r.split.s = false) ↔ x = patValue c k
  subnormal_iff : r.e < 1 - c.bias ↔ k < 2 ^ c.f
  biased : 1 - (c.bias : ℤ) ≤ r.e → r.e + c.bias = (k / 2 ^ c.f : ℕ)
  overflow : c.expMax * 2 ^ c.f ≤ k →
    r.exponent = c.expMax ∧ r.fraction = 0 ∧ r.roundCarry = false ∧ r.expCarry = false
  carry : k + 1 = 2 ^ c.f → roundUp r.split = true →
    r.exponent = carried.1 ∧ r.fraction = carried.2 ∧ r.roundCarry = true ∧ r.expCarry = false
  plain : k < c.expMax * 2 ^ c.f → ¬ (k + 1 = 2 ^ c.f ∧ roundUp r.split = true) →
    r.exponent * 2 ^ c.f + r.fraction = k + (roundUp r.split).toNat ∧ r.fraction < 2 ^ c.f
      ∧ (r.roundCarry = true ↔ roundUp r.split = true ∧ (k + 1) % 2 ^ c.f = 0) ∧ r.expCarry = r.roundCarry

variable {c : PrecisionConfig}

/-- The decision on the scaled mantissa is the decision on the magnitude. -/
theorem split_decides {y : Frac} (hd : 0 < y.den) {u b x lo hi : ℚ} (hu : 0 < u) (hx : x = (b + y.rat) * u)
    (hlo : lo = (b + (grs y).m) * u) (hhi : hi = (b + ((grs y).m + 1 : ℕ)) * u) :
    lo ≤ x ∧ x < hi
      ∧ (roundUp (grs y) = true ↔ (lo + hi) / 2 < x ∨ (x = (lo + hi) / 2 ∧ (grs y).m % 2 = 1))
      ∧ (((grs y).g = false ∧ (grs y).r = false ∧ (grs y).s = false) ↔ x = lo) := by
  have hb := grs_m_le hd
  push_cast at hhi
  have e1 : (lo + hi) / 2 < x ↔ 1 / 2 < y.rat - (grs y).m := by
    have : x - (lo + hi) / 2 = (y.rat - (grs y).m - 1 / 2) * u := by rw [hx, hlo, hhi]; ring
    rw [← sub_pos, this, mul_pos_iff_of_pos_right hu, sub_pos]
  have e2 : x = (lo + hi) / 2 ↔ y.rat - (grs y).m = 1 / 2 := by
    have : x - (lo + hi) / 2 = (y.rat - (grs y).m - 1 / 2) * u := by rw [hx, hlo, hhi]; ring
    rw [← sub_eq_zero, this, mul_eq_zero, or_iff_left hu.ne', sub_eq_zero]
  have e3 : x = lo ↔ y.rat = (grs y).m := by
    rw [hx, hlo, mul_left_inj' hu.ne', add_right_inj]
  refine ⟨?_, ?_, ?_, ?_⟩
  · rw [hx, hlo]; gcongr; exact hb.1
  · rw [hx, hhi]; gcongr; exact hb.2
  · rw [e1, e2, roundUp_grs hd]
  · rw [e3, grs_exact hd]

theorem mod_two_of_band (h : RowFacts c) (j n : Nat) : (j * 2 ^ c.f + n) % 2 = n % 2 := by
  obtain ⟨i, hi⟩ : ∃ i, c.f = i + 1 := ⟨c.f - 1, by have := h.f_ge; omega⟩
  rw [hi, pow_succ, ← Nat.mul_assoc, Nat.mul_comm, Nat.mul_add_mod]

/-- The subnormal path (R157). -/
theorem subnormalPath_spec (h : RowFacts c) (carried : Nat × Nat) {x : Frac} (hd : 0 < x.den) {e : ℤ}
    (hx : x.rat < (2 : ℚ) ^ (1 - c.bias : ℤ)) (he : e < 1 - c.bias) :
    ∃ k, RoundSpec c carried x.rat (subnormalPath c carried x e) k := by
  set y := x.scale2 (c.f + c.bias - 1) with hy
  have hyd : 0 < y.den := Frac.scale2_den_pos hd _
  have hp : 0 < 2 ^ c.f := by positivity
  have hu : (0 : ℚ) < (2 : ℚ) ^ (1 - (c.bias : ℤ) - c.f) := by positivity
  have hxy : x.rat = (0 + y.rat) * (2 : ℚ) ^ (1 - (c.bias : ℤ) - c.f) := by
    rw [zero_add, hy, Frac.scale2_rat, mul_assoc, ← zpow_add₀ (by norm_num : (2 : ℚ) ≠ 0)]
    rw [show (c.f + c.bias - 1 + (1 - c.bias - c.f) : ℤ) = 0 by ring, zpow_zero, mul_one]
  have hyl : y.rat < 2 ^ c.f := by
    rw [hy, Frac.scale2_rat]
    calc _ < (2 : ℚ) ^ (1 - c.bias : ℤ) * (2 : ℚ) ^ (c.f + c.bias - 1 : ℤ) := by gcongr
      _ = _ := by rw [← zpow_add₀ (by norm_num : (2 : ℚ) ≠ 0), ← zpow_natCast]; congr 1; ring
  have hm : (grs y).m < 2 ^ c.f := by
    have := (grs_m_le hyd).1.trans_lt hyl
    exact_mod_cast this
  have v1 := @patValue_band c 0 (grs y).m (by omega) (.inl rfl)
  have v2 := @patValue_band c 0 ((grs y).m + 1) (by omega) (.inl rfl)
  rw [Nat.zero_mul, Nat.zero_add, Nat.cast_zero, zero_add] at v1 v2
  obtain ⟨d1, d2, d3, d4⟩ := split_decides hyd hu hxy (v1.trans (by rw [zero_add])) (v2.trans (by rw [zero_add]))
  obtain ⟨r1, r2, r3⟩ := @rne_value (grs y) c.f (by omega)
  have hs : subnormalPath c carried x e = { e := e, split := grs y, roundCarry := (rne (grs y) c.f).2, expCarry := false, exponent := if (rne (grs y) c.f).2 = true then carried.1 else 0, fraction := if (rne (grs y) c.f).2 = true then carried.2 else (rne (grs y) c.f).1 } := rfl
  rw [hs]
  refine ⟨(grs y).m, ⟨d1, d2, (Nat.mod_eq_of_lt hm).symm, d3, d4, ?_, ?_, ?_, ?_, ?_⟩⟩
  · simp [he, hm]
  · intro h'; exact absurd he (not_lt.mpr h')
  · intro h'
    have := h.expMax_ge
    have : 1 * 2 ^ c.f ≤ c.expMax * 2 ^ c.f := Nat.mul_le_mul_right _ (by omega)
    omega
  · intro h1 h2
    have h3 := r3.mpr ⟨h2, h1⟩
    simp [h3]
  · intro h1 h2
    have h3 : (rne (grs y) c.f).2 = false := by
      rw [Bool.eq_false_iff]; intro h3; exact h2 ⟨(r3.mp h3).2, (r3.mp h3).1⟩
    rw [h3] at r1
    simp only [h3, Bool.toNat_false, Nat.zero_mul, Nat.zero_add] at r1 ⊢
    refine ⟨by simpa using r1, by simpa using r2, ?_, by trivial⟩
    simp only [Bool.false_eq_true, false_iff]
    rintro ⟨h4, h5⟩
    rcases Nat.lt_or_ge ((grs y).m + 1) (2 ^ c.f) with h6 | h6
    · rw [Nat.mod_eq_of_lt h6] at h5; omega
    · exact h2 ⟨by omega, h4⟩

/-- The normal path with its overflow exits (R158, R159). -/
theorem normalPath_spec (h : RowFacts c) (carried : Nat × Nat) {x : Frac} (hd : 0 < x.den) {e : ℤ}
    (h1 : (2 : ℚ) ^ e ≤ x.rat) (h2 : x.rat < (2 : ℚ) ^ (e + 1)) (he : ¬ e < 1 - c.bias) :
    ∃ k, RoundSpec c carried x.rat (normalPath c x e) k := by
  have h20 : (2 : ℚ) ≠ 0 := by norm_num
  have hp : 0 < 2 ^ c.f := by positivity
  set w := x.scale2 (-e) with hw
  have hwd : 0 < w.den := Frac.scale2_den_pos hd _
  have hwr : w.rat = x.rat * (2 : ℚ) ^ (-e) := by rw [hw, Frac.scale2_rat]
  have hw1 : 1 ≤ w.rat := by
    rw [hwr, zpow_neg, ← div_eq_mul_inv, le_div_iff₀ (by positivity), one_mul]; exact h1
  have hw2 : w.rat < 2 := by
    rw [hwr, zpow_neg, ← div_eq_mul_inv, div_lt_iff₀ (by positivity)]
    rw [zpow_add₀ h20, zpow_one] at h2; linarith
  set y := w.minusOne.scale2 c.f with hy
  have hyd : 0 < y.den := Frac.scale2_den_pos (by simpa [Frac.minusOne] using hwd) _
  have hyr : y.rat = (w.rat - 1) * 2 ^ c.f := by
    rw [hy, Frac.scale2_rat, Frac.minusOne_rat hwd hw1, zpow_natCast]
  have hm : (grs y).m < 2 ^ c.f := by
    have h3 : y.rat < 2 ^ c.f := by
      rw [hyr]
      have : (0 : ℚ) < 2 ^ c.f := by positivity
      nlinarith
    have := (grs_m_le hyd).1.trans_lt h3
    exact_mod_cast this
  obtain ⟨j, hj⟩ : ∃ j : ℕ, e + c.bias = (j : ℤ) + 1 := ⟨(e + c.bias - 1).toNat, by omega⟩
  have hu : (0 : ℚ) < (2 : ℚ) ^ ((j : ℤ) + 1 - c.bias - c.f) := by positivity
  have hxy : x.rat = ((2 ^ c.f : ℚ) + y.rat) * (2 : ℚ) ^ ((j : ℤ) + 1 - c.bias - c.f) := by
    rw [hyr, hwr, show ((j : ℤ) + 1 - c.bias - c.f) = e - c.f by omega, zpow_sub₀ h20, zpow_natCast, zpow_neg]
    have : (2 : ℚ) ^ e ≠ 0 := by positivity
    field_simp
    ring
  have v1 := @patValue_band c j (2 ^ c.f + (grs y).m) (by omega) (.inr (by omega))
  have v2 := @patValue_band c j (2 ^ c.f + (grs y).m + 1) (by omega) (.inr (by omega))
  have hk : j * 2 ^ c.f + (2 ^ c.f + (grs y).m) = (j + 1) * 2 ^ c.f + (grs y).m := by rw [Nat.add_one_mul]; omega
  rw [← Nat.add_assoc, hk] at v2
  rw [hk] at v1
  obtain ⟨d1, d2, d3, d4⟩ := split_decides hyd hu hxy (v1.trans (by push_cast; rfl))
    (v2.trans (by push_cast; rw [add_assoc]))
  obtain ⟨r1, r2, r3⟩ := @rne_value (grs y) c.f (by omega)
  have hbiased : (e + c.bias).toNat = j + 1 := by omega
  have hdiv : ((j + 1) * 2 ^ c.f + (grs y).m) / 2 ^ c.f = j + 1 := by
    rw [Nat.mul_comm, Nat.mul_add_div hp, Nat.div_eq_of_lt hm, Nat.add_zero]
  have hmod : ((j + 1) * 2 ^ c.f + (grs y).m) % 2 ^ c.f = (grs y).m := by
    rw [Nat.mul_comm, Nat.mul_add_mod, Nat.mod_eq_of_lt hm]
  have hmod1 : ((j + 1) * 2 ^ c.f + (grs y).m + 1) % 2 ^ c.f = 0 ↔ (grs y).m + 1 = 2 ^ c.f := by
    rw [Nat.add_assoc, Nat.mul_comm, Nat.mul_add_mod]
    rcases Nat.lt_or_ge ((grs y).m + 1) (2 ^ c.f) with h6 | h6
    · rw [Nat.mod_eq_of_lt h6]; omega
    · rw [show (grs y).m + 1 = 2 ^ c.f by omega, Nat.mod_self]; simp
  have hmul : (j + 1) * 2 ^ c.f = j * 2 ^ c.f + 2 ^ c.f := Nat.add_one_mul _ _
  have hord : c.expMax * 2 ^ c.f ≤ (j + 1) * 2 ^ c.f + (grs y).m ↔ c.expMax ≤ j + 1 := by
    rw [← Nat.le_div_iff_mul_le hp, hdiv]
  have hs : normalPath c x e = if c.expMax ≤ (e + c.bias).toNat then
      { e := e, split := grs y, roundCarry := false, expCarry := false, exponent := c.expMax, fraction := 0 }
    else if (rne (grs y) c.f).2 = false then
      { e := e, split := grs y, roundCarry := false, expCarry := false, exponent := (e + c.bias).toNat, fraction := (rne (grs y) c.f).1 }
    else if c.expMax ≤ (e + c.bias).toNat + 1 then
      { e := e, split := grs y, roundCarry := true, expCarry := true, exponent := c.expMax, fraction := 0 }
    else
      { e := e, split := grs y, roundCarry := true, expCarry := true, exponent := (e + c.bias).toNat + 1, fraction := 0 } := rfl
  rw [hbiased] at hs
  have hsplit : (normalPath c x e).split = grs y := by rw [hs]; split_ifs <;> rfl
  have hee : (normalPath c x e).e = e := by rw [hs]; split_ifs <;> rfl
  refine ⟨(j + 1) * 2 ^ c.f + (grs y).m, ⟨d1, d2, ?_, ?_, ?_, ?_, ?_, ?_, ?_, ?_⟩⟩
  · rw [hsplit, hmod]
  · rw [hsplit, mod_two_of_band h]; exact d3
  · rw [hsplit]; exact d4
  · rw [hee]
    constructor
    · intro h'; exact absurd h' he
    · intro h'; omega
  · rw [hee, hdiv]; intro _; omega
  · rw [hord]; intro h'; rw [hs, if_pos h']; exact ⟨rfl, rfl, rfl, rfl⟩
  · intro h'; omega
  · intro h3 _
    have h4 : ¬ c.expMax ≤ j + 1 := by rw [← hord]; omega
    rw [hsplit, hs, if_neg h4, hmod1]
    cases hc : (rne (grs y) c.f).2 with
    | false =>
      rw [hc] at r1 r3
      simp only [Bool.toNat_false, Nat.zero_mul, Nat.zero_add] at r1
      simp only [if_true]
      refine ⟨by omega, r2, r3, by trivial⟩
    | true =>
      rw [hc] at r1 r3
      have h5 := r3.mp rfl
      simp only [Bool.toNat_true, Nat.one_mul] at r1
      simp only [Bool.true_eq_false, if_false]
      have hz : (rne (grs y) c.f).1 = 0 := by
        rw [h5.1] at r1; simp only [Bool.toNat_true] at r1; omega
      have h7 : (j + 1 + 1) * 2 ^ c.f + 0 = (j + 1) * 2 ^ c.f + (grs y).m + (roundUp (grs y)).toNat := by
        rw [Nat.add_one_mul (j + 1), h5.1]
        simp only [Bool.toNat_true]
        omega
      split_ifs with h6
      · have h8 : c.expMax = j + 1 + 1 := by omega
        exact ⟨by rw [h8]; exact h7, hp, r3, rfl⟩
      · exact ⟨h7, hp, r3, rfl⟩

/-- R155 to R159 in one statement. -/
theorem roundMagnitude_spec (h : RowFacts c) (carried : Nat × Nat) {x : Frac} (hn : 0 < x.num) (hd : 0 < x.den) :
    ∃ k, RoundSpec c carried x.rat (roundMagnitude c carried x) k := by
  obtain ⟨h1, h2⟩ := floorLog2_spec hn hd
  have hr : roundMagnitude c carried x =
    if floorLog2 x < 1 - c.bias then subnormalPath c carried x (floorLog2 x) else normalPath c x (floorLog2 x) := rfl
  rw [hr]
  split_ifs with he
  · refine subnormalPath_spec h carried hd (h2.trans_le ?_) he
    exact zpow_le_zpow_right₀ (by norm_num) (by omega)
  · exact normalPath_spec h carried hd h1 h2 he

end Sys2Proof.Machine
end

