-- ==== Sys2Proof/Laws/Nearest.lean ====
section
/-!
SUPPORT. What the bracket of the rounding path gives: where the bracket lies, that the result is a triple of the precision
(R167), and that the chosen end is a nearest pattern.
-/
namespace Sys2Proof.Machine

variable {c : PrecisionConfig}

theorem RowFacts.expMax_pos (h : RowFacts c) : 0 < c.expMax := by have := h.expMax_ge; omega

theorem RowFacts.two_le_pow_f (h : RowFacts c) : 2 ≤ 2 ^ c.f := by
  calc 2 = 2 ^ 1 := rfl
    _ ≤ 2 ^ c.f := Nat.pow_le_pow_right (by decide) (by have := h.f_ge; omega)

theorem RowFacts.pow_f_even (h : RowFacts c) (m : Nat) : (m * 2 ^ c.f) % 2 = 0 := by simpa using mod_two_of_band h m 0

/-- A pair of fields from its low bits. -/
theorem fields_of_low {e f : Nat} (hf : f < 2 ^ c.f) :
    e = (e * 2 ^ c.f + f) / 2 ^ c.f ∧ f = (e * 2 ^ c.f + f) % 2 ^ c.f := by
  constructor
  · rw [Nat.mul_comm, Nat.mul_add_div (by positivity), Nat.div_eq_of_lt hf, Nat.add_zero]
  · rw [Nat.mul_comm, Nat.mul_add_mod, Nat.mod_eq_of_lt hf]

/-! ### Where the bracket lies -/

theorem bracket_lt {x : ℚ} {k m : Nat} (h1 : patValue c k ≤ x) (h : x < patValue c m) : k < m := by
  by_contra hc
  have := (patValue_strictMono (c := c)).monotone (not_lt.mp hc)
  linarith

theorem le_bracket {x : ℚ} {k m : Nat} (h1 : x < patValue c (k + 1)) (h : patValue c m ≤ x) : m ≤ k := by
  by_contra hc
  have := (patValue_strictMono (c := c)).monotone (show k + 1 ≤ m by omega)
  linarith

/-- Below the overflow threshold the bracket lies below the pattern of infinity (R164). -/
theorem bracket_lt_infinity (h : RowFacts c) {k : Nat} {x : ℚ} (h1 : patValue c k ≤ x) (hx : x < infinityFrom c) :
    k < c.expMax * 2 ^ c.f := by
  by_contra hc
  have h2 := (patValue_strictMono (c := c)).monotone (not_lt.mp hc)
  rw [infinityFrom_eq h] at hx
  have h3 := patValue_strictMono (c := c) (show c.expMax * 2 ^ c.f - 1 < c.expMax * 2 ^ c.f by
    have := h.expMax_ge
    have : 0 < c.expMax * 2 ^ c.f := by positivity
    omega)
  linarith

/-! ### The result -/

/-- R167: the rounding path ends in a triple of the precision, and never in a NaN. -/
theorem RoundSpec.fit (h : RowFacts c) {car : Nat × Nat} (hc1 : car.1 < c.expMax) (hc2 : car.2 ≤ c.fracMask) {x : ℚ}
    {r : Rounded} {k : Nat} (H : RoundSpec c car x r k) (sg : Bit) :
    Fields.Fit c ⟨sg.toNat, r.exponent, r.fraction⟩ ∧ (r.exponent = c.expMax → r.fraction = 0) := by
  have hp : 0 < 2 ^ c.f := by positivity
  have hm := h.fracMask_eq
  have hsg : sg.toNat ≤ 1 := by have := sg.isLt; omega
  rcases Nat.lt_or_ge k (c.expMax * 2 ^ c.f) with hk | hk
  · by_cases hc : k + 1 = 2 ^ c.f ∧ roundUp r.split = true
    · obtain ⟨a, b, -, -⟩ := H.carry hc.1 hc.2
      exact ⟨⟨hsg, by simp only []; omega, by simp only []; omega⟩, by omega⟩
    · obtain ⟨a, b, -, -⟩ := H.plain hk hc
      have hu : (roundUp r.split).toNat ≤ 1 := Bool.toNat_le _
      have he : r.exponent ≤ c.expMax := by
        by_contra hcon
        have h5 : (c.expMax + 1) * 2 ^ c.f ≤ r.exponent * 2 ^ c.f := Nat.mul_le_mul_right _ (by omega)
        rw [Nat.add_one_mul] at h5
        have := h.two_le_pow_f
        omega
      refine ⟨⟨hsg, he, by simp only []; omega⟩, fun h5 => ?_⟩
      rw [h5] at a
      omega
  · obtain ⟨a, b, -, -⟩ := H.overflow hk
    exact ⟨⟨hsg, by simp only []; omega, by simp only []; omega⟩, fun _ => b⟩

/-- The end of the bracket that the midpoint rule chooses is a nearest pattern, the even one of two equally near. -/
theorem nearest_pattern {k : Nat} {x : ℚ} {up : Bool} (h1 : patValue c k ≤ x) (h2 : x < patValue c (k + 1))
    (hu : up = true ↔ (patValue c k + patValue c (k + 1)) / 2 < x
      ∨ (x = (patValue c k + patValue c (k + 1)) / 2 ∧ k % 2 = 1)) (j : Nat) :
    |x - patValue c (k + up.toNat)| ≤ |x - patValue c j|
      ∧ (|x - patValue c (k + up.toNat)| = |x - patValue c j| →
          patValue c (k + up.toNat) = patValue c j ∨ (k + up.toNat) % 2 = 0) := by
  have hA : |x - patValue c j| ≥ x - patValue c j := le_abs_self _
  have hB : |x - patValue c j| ≥ -(x - patValue c j) := neg_le_abs _
  have hj : (j ≤ k ∧ patValue c j ≤ patValue c k) ∨ (k + 1 ≤ j ∧ patValue c (k + 1) ≤ patValue c j) := by
    rcases Nat.lt_or_ge k j with h | h
    · exact .inr ⟨h, patValue_strictMono.monotone h⟩
    · exact .inl ⟨h, patValue_strictMono.monotone h⟩
  cases up with
  | true =>
    have h3 := hu.mp rfl
    simp only [Bool.toNat_true]
    rw [abs_of_neg (by linarith : x - patValue c (k + 1) < 0)]
    rcases hj with ⟨hj1, hj⟩ | ⟨hj1, hj⟩
    · refine ⟨by rcases h3 with h3 | ⟨h3, -⟩ <;> linarith, fun he => .inr ?_⟩
      rcases h3 with h3 | ⟨h3, h4⟩
      · linarith
      · omega
    · refine ⟨by linarith, fun he => .inl ?_⟩
      rcases abs_cases (x - patValue c j) with ⟨h5, h6⟩ | ⟨h5, h6⟩ <;> linarith
  | false =>
    have h3 : ¬ _ := fun h => Bool.noConfusion (hu.mpr h)
    push Not at h3
    obtain ⟨h3, h4⟩ := h3
    simp only [Bool.toNat_false, Nat.add_zero]
    rw [abs_of_nonneg (by linarith : 0 ≤ x - patValue c k)]
    rcases hj with ⟨hj1, hj⟩ | ⟨hj1, hj⟩
    · refine ⟨by linarith, fun he => .inl ?_⟩
      rw [abs_of_nonneg (by linarith)] at he
      linarith
    · refine ⟨by linarith, fun he => .inr ?_⟩
      rw [abs_of_neg (by linarith)] at he
      have := h4 (by linarith)
      omega

end Sys2Proof.Machine
end

