-- ==== Sys2Proof/Laws/Operands.lean ====
section
/-!
SUPPORT. The operand forms: what they can answer, and the digit loop (R93 to R95).
-/
namespace Sys2Proof.Machine

theorem readInt_eq (c : PrecisionConfig) (v : Nat) :
    readInt c v = if v < 2 ^ c.n then .ok v else .error .malformedBits := rfl

/-- Reading a pattern can fail in one way only (R222). -/
theorem readPattern_error {c : PrecisionConfig} {form : OperandForm} {n : Nat} {t : Text} {k : ErrorKind}
    (h : readPattern c form n t = .error k) : k = .malformedBits := by
  cases form with
  | int => simp only [readPattern, readInt] at h; split at h <;> simp_all
  | str =>
    simp only [readPattern, readStr] at h
    split at h
    · simp only [readHex] at h
      split at h
      · simp_all
      · split at h
        · simp_all
        · split at h <;> simp_all
    · simp only [readBinary] at h
      split at h
      · simp_all
      · split at h <;> simp_all

/-- The loop that reads digits, as the digits' values and their positional value. -/
theorem readDigits_eq_some {b : Nat} {digit? : CharCode → Option Nat} {t : Text} {acc v : Nat} :
    readDigits b digit? acc t = some v ↔
      ∃ ds, List.Forall₂ (fun ch d => digit? ch = some d) t ds ∧ v = acc * b ^ ds.length + Nat.ofDigits b ds.reverse := by
  induction t generalizing acc with
  | nil => simp [readDigits, eq_comm]
  | cons ch t ih =>
    simp only [readDigits]
    cases hd : digit? ch with
    | none =>
      simp only [reduceCtorEq, false_iff, not_exists, not_and]
      intro ds hds
      cases hds with
      | cons hh _ => simp [hd] at hh
    | some d =>
      simp only [ih]
      constructor
      · rintro ⟨ds, hds, rfl⟩
        refine ⟨d :: ds, .cons hd hds, ?_⟩
        simp only [List.reverse_cons, Nat.ofDigits_append, List.length_reverse, Nat.ofDigits_singleton,
          List.length_cons, pow_succ]
        ring
      · rintro ⟨ds, hds, rfl⟩
        cases hds with
        | @cons _ d' _ ds' hh ht =>
          obtain rfl : d' = d := by simpa [hd] using hh.symm
          refine ⟨ds', ht, ?_⟩
          simp only [List.reverse_cons, Nat.ofDigits_append, List.length_reverse, Nat.ofDigits_singleton,
            List.length_cons, pow_succ]
          ring

theorem binDigit?_eq_some {ch : CharCode} {d : Nat} : binDigit? ch = some d ↔ d < 2 ∧ ch.toNat = 0x30 + d := by
  unfold binDigit?
  split
  · next h => subst h; simp; omega
  · next h0 =>
    split
    · next h => subst h; simp; omega
    · next h1 =>
      simp only [reduceCtorEq, false_iff, not_and]
      intro hd hc
      have : d = 0 ∨ d = 1 := by omega
      rcases this with rfl | rfl
      · exact h0 (BitVec.eq_of_toNat_eq hc)
      · exact h1 (BitVec.eq_of_toNat_eq hc)

theorem hexDigit?_eq_some {ch : CharCode} {d : Nat} :
    hexDigit? ch = some d ↔ (d < 10 ∧ ch.toNat = 0x30 + d)
      ∨ (10 ≤ d ∧ d < 16 ∧ (ch.toNat = 0x41 + (d - 10) ∨ ch.toNat = 0x61 + (d - 10))) := by
  unfold hexDigit?
  split
  · simp only [Option.some.injEq]; omega
  · split
    · simp only [Option.some.injEq]; omega
    · split
      · simp only [Option.some.injEq]; omega
      · simp only [reduceCtorEq, false_iff]; omega

/-- A pattern that was read is a pattern of the precision (R93). -/
theorem readPattern_lt {c : PrecisionConfig} {form : OperandForm} {n v : Nat} {t : Text}
    (h : readPattern c form n t = .ok v) : v < 2 ^ c.n := by
  cases form with
  | int =>
    simp only [readPattern, readInt] at h
    split at h
    · simp only [Except.ok.injEq] at h; omega
    · simp at h
  | str =>
    simp only [readPattern, readStr] at h
    split at h
    · simp only [readHex] at h
      split at h
      · simp at h
      · split at h
        · simp at h
        · split at h
          · simp only [Except.ok.injEq] at h; omega
          · simp at h
    · simp only [readBinary] at h
      split at h
      · simp at h
      · next hlen =>
        split at h
        · simp at h
        · next w hw =>
          obtain ⟨ds, hds, rfl⟩ := readDigits_eq_some.mp hw
          simp only [Except.ok.injEq] at h
          subst h
          have hl : ds.reverse.length = c.n := by
            rw [List.length_reverse, ← hds.length_eq]; omega
          have hb : Nat.ofDigits 2 ds.reverse < 2 ^ ds.reverse.length := by
            apply Nat.ofDigits_lt_base_pow_length (by decide)
            intro x hx
            rw [List.mem_reverse] at hx
            obtain ⟨i, hi, rfl⟩ := List.getElem_of_mem hx
            exact (binDigit?_eq_some.mp (hds.get (by rw [hds.length_eq]; exact hi) hi)).1
          rw [hl] at hb
          simpa using hb

end Sys2Proof.Machine
end

