-- ==== Sys2Proof/Laws/State.lean ====
section
/-!
SUPPORT. One lemma per field per update of State, so that no later proof unfolds a record update.
-/
namespace Sys2Proof.Machine

@[simp] theorem answer_build (s : State) (r : Response) : (s.answer r).build = s.build := rfl
@[simp] theorem answer_cmd (s : State) (r : Response) : (s.answer r).cmd = s.cmd := rfl
@[simp] theorem answer_pending (s : State) (r : Response) : (s.answer r).pending = s.pending := rfl
@[simp] theorem answer_resp (s : State) (r : Response) : (s.answer r).resp = some r := rfl
@[simp] theorem answer_answer (s : State) (r r' : Response) : (s.answer r).answer r' = s.answer r' := rfl

@[simp] theorem fail_build (s : State) (k : ErrorKind) : (s.fail k).build = s.build := rfl
@[simp] theorem fail_cmd (s : State) (k : ErrorKind) : (s.fail k).cmd = s.cmd := rfl
@[simp] theorem fail_pending (s : State) (k : ErrorKind) : (s.fail k).pending = s.pending := rfl
@[simp] theorem fail_resp (s : State) (k : ErrorKind) : (s.fail k).resp = some (.error k) := rfl
theorem fail_eq_answer (s : State) (k : ErrorKind) : s.fail k = s.answer (.error k) := rfl

@[simp] theorem take_build (s : State) (c : Command) (l : List Command) : (s.take c l).build = s.build := rfl
@[simp] theorem take_cmd (s : State) (c : Command) (l : List Command) : (s.take c l).cmd = c := rfl
@[simp] theorem take_pending (s : State) (c : Command) (l : List Command) : (s.take c l).pending = l := rfl
@[simp] theorem take_resp (s : State) (c : Command) (l : List Command) : (s.take c l).resp = s.resp := rfl

@[simp] theorem withFetchWord_build (s : State) (n w : Nat) : (s.withFetchWord n w).build = s.build := rfl
@[simp] theorem withFetchWord_cmd (s : State) (n w : Nat) : (s.withFetchWord n w).cmd = s.cmd := rfl
@[simp] theorem withFetchWord_resp (s : State) (n w : Nat) : (s.withFetchWord n w).resp = s.resp := rfl

/-- Two answers on one state are the same state exactly when they are the same response. -/
theorem answer_inj {s : State} {r r' : Response} : s.answer r = s.answer r' ↔ r = r' := by
  constructor
  · intro h
    have h' := congrArg State.resp h
    simpa using h'
  · rintro rfl; rfl

theorem next_answer_inj {s : State} {r r' : Response} :
    (Host.Outcome.next (s.answer r) : Host.Outcome State Fault Refusal) = .next (s.answer r') ↔ r = r' := by
  rw [Host.Outcome.next.injEq, answer_inj]

end Sys2Proof.Machine
end

