-- ==== Sys2Proof/Laws/Ops.lean ====
section
/-!
SUPPORT. Everything the shared operations, an instruction and a step can do, said once.
-/
namespace Sys2Proof.Machine

theorem withPrecision_some {p : PrecCode} {q : Precision} (h : precisionOf p = some q) (s : State)
    (op : Precision → Response) : withPrecision p s op = .next (s.answer (op q)) := by
  simp [withPrecision, h]

theorem withPrecision_none {p : PrecCode} (h : precisionOf p = none) (s : State) (op : Precision → Response) :
    withPrecision p s op = .next (s.fail .unknownPrecision) := by
  simp [withPrecision, h]

theorem withArith_true {s : State} (h : s.build.hasArith = true) (o : Host.Outcome State Fault Refusal) :
    withArith s o = o := by
  simp [withArith, h]

theorem withArith_false {s : State} (h : s.build.hasArith = false) (o : Host.Outcome State Fault Refusal) :
    withArith s o = .next (s.fail .illegalCommand) := by
  simp [withArith, h]

@[simp] theorem onPattern_ok (v : Nat) (op : Nat → Response) : onPattern (.ok v) op = op v := rfl
@[simp] theorem onPattern_error (k : ErrorKind) (op : Nat → Response) : onPattern (.error k) op = .error k := rfl

/-- The rule an instruction of a recognized precision follows: its response, as a function of the build and the command
record. FP_ADD and FP_MULTIPLY follow it in a build that has them. -/
def opResponse (i : Instr) (s : State) (q : Precision) : Response :=
  match i with
  | .configFor _ => .config (configGroup (registry q))
  | .pack _ => packResponse (registry q) s.cmd
  | .unpackInt _ => onPattern (readPattern (registry q) .int s.cmd.intIn s.cmd.strIn) (unpackResponse (registry q))
  | .unpackStr _ => onPattern (readPattern (registry q) .str s.cmd.intIn s.cmd.strIn) (unpackResponse (registry q))
  | .formatInt _ =>
    onPattern (readPattern (registry q) .int s.cmd.intIn s.cmd.strIn) (formatResponse s.build.hexOutCase (registry q))
  | .formatStr _ =>
    onPattern (readPattern (registry q) .str s.cmd.intIn s.cmd.strIn) (formatResponse s.build.hexOutCase (registry q))
  | .classify _ => classifyResponse (registry q) s.cmd
  | .roundRational _ => roundRationalResponse (registry q) s.cmd
  | .roundPresplit _ => roundPresplitResponse (registry q) s.cmd
  | .encodeFinite _ =>
    .encoded { inSign := s.cmd.sign, inKind := .finite, inMagnitude := some (s.cmd.coef, s.cmd.exp10) }
      (encodeOperand s.build q (.finite s.cmd.sign s.cmd.coef s.cmd.exp10))
  | .encodeInf _ =>
    .encoded { inSign := s.cmd.sign, inKind := .inf, inMagnitude := none } (encodeOperand s.build q (.inf s.cmd.sign))
  | .encodeNan _ =>
    .encoded { inSign := s.cmd.sign, inKind := .nan, inMagnitude := none } (encodeOperand s.build q .nan)
  | .encodeInvalid _ =>
    .encoded { inSign := s.cmd.sign, inKind := .invalid, inMagnitude := none } (encodeOperand s.build q .invalid)
  | .decodeInt _ =>
    onPattern (readPattern (registry q) .int s.cmd.intIn s.cmd.strIn) (decodeResponse s.build.hexOutCase (registry q))
  | .decodeStr _ =>
    onPattern (readPattern (registry q) .str s.cmd.intIn s.cmd.strIn) (decodeResponse s.build.hexOutCase (registry q))
  | .fpAdd _ a b => arithOn .add a b s q
  | .fpMultiply _ a b => arithOn .multiply a b s q

/-- The one equation of `exec`: illegal in this build, or the precision lookup and the instruction's rule. -/
theorem exec_eq (i : Instr) (s : State) :
    exec i s =
      if i.wf s.build = true then withPrecision i.prec s (opResponse i s) else .next (s.fail .illegalCommand) := by
  cases i <;>
    simp [exec, Instr.wf, Instr.isArith, Instr.prec, execConfigFor, execPack, execUnpackInt, execUnpackStr,
      execFormatInt, execFormatStr, execClassify, execRoundRational, execRoundPresplit, execEncodeFinite, execEncodeInf,
      execEncodeNan, execEncodeInvalid, execDecodeInt, execDecodeStr, execFpAdd, execFpMultiply, withArith] <;>
    rfl

/-- What an instruction of a recognized precision does, in a build that has it. -/
theorem exec_recognized {i : Instr} {s : State} {q : Precision} (hw : i.wf s.build = true)
    (hq : precisionOf i.prec = some q) : exec i s = .next (s.answer (opResponse i s q)) := by
  rw [exec_eq, if_pos hw, withPrecision_some hq]

/-- Everything an instruction can do: it answers a response and changes nothing else. -/
theorem exec_cases (i : Instr) (s : State) :
    (i.wf s.build = false ∧ exec i s = .next (s.answer (.error .illegalCommand)))
    ∨ (i.wf s.build = true ∧ precisionOf i.prec = none ∧ exec i s = .next (s.answer (.error .unknownPrecision)))
    ∨ (i.wf s.build = true ∧ ∃ q, precisionOf i.prec = some q ∧ exec i s = .next (s.answer (opResponse i s q))) := by
  rw [exec_eq]
  by_cases hw : i.wf s.build = true
  · rw [if_pos hw]
    cases hq : precisionOf i.prec with
    | none => exact .inr (.inl ⟨hw, rfl, by rw [withPrecision_none hq]; rfl⟩)
    | some q => exact .inr (.inr ⟨hw, q, rfl, by rw [withPrecision_some hq]⟩)
  · rw [if_neg hw]
    exact .inl ⟨by simpa using hw, rfl⟩

theorem exec_answers (i : Instr) (s : State) : ∃ r, exec i s = .next (s.answer r) := by
  rcases exec_cases i s with ⟨-, h⟩ | ⟨-, -, h⟩ | ⟨-, q, -, h⟩ <;> exact ⟨_, h⟩

/-- An instruction's response depends on the build and the command record only. -/
theorem opResponse_congr {i : Instr} {s t : State} (hb : s.build = t.build) (hc : s.cmd = t.cmd) (q : Precision) :
    opResponse i s q = opResponse i t q := by
  cases i <;> simp [opResponse, arithOn, hb, hc]

theorem step_idle {s : State} (h : s.pending = []) : step s = .next s := by
  simp [step, h]

theorem step_illegal {s : State} {c : Command} {rest : List Command} {e : DecodeError} (h : s.pending = c :: rest)
    (hd : decode c.word = .error e) : step s = .next ((s.take c rest).answer (.error .illegalCommand)) := by
  simp [step, h, hd, State.fail]

theorem step_exec {s : State} {c : Command} {rest : List Command} {i : Instr} (h : s.pending = c :: rest)
    (hd : decode c.word = .ok i) : step s = exec i (s.take c rest) := by
  simp [step, h, hd]

/-- Everything a step can do. -/
theorem step_cases (s : State) :
    (s.pending = [] ∧ step s = .next s)
    ∨ (∃ c rest e, s.pending = c :: rest ∧ decode c.word = .error e
        ∧ step s = .next ((s.take c rest).answer (.error .illegalCommand)))
    ∨ (∃ c rest i, s.pending = c :: rest ∧ decode c.word = .ok i ∧ step s = exec i (s.take c rest)) := by
  cases h : s.pending with
  | nil => exact .inl ⟨rfl, step_idle h⟩
  | cons c rest =>
    cases hd : decode c.word with
    | error e => exact .inr (.inl ⟨c, rest, e, rfl, hd, step_illegal h hd⟩)
    | ok i => exact .inr (.inr ⟨c, rest, i, rfl, hd, step_exec h hd⟩)

end Sys2Proof.Machine
end

