-- ==== Sys2Proof/Laws/Codec.lean ====
section
/-!
SUPPORT. What the operations built of the blocks answer: the CodecResult of a triple's pattern, of every form of ENCODE,
of DECODE, the operations of the Arithmetic Layer on readable operands, and which errors a rule can end in.
-/
namespace Sys2Proof.Machine

variable {c : PrecisionConfig}

theorem bit_toNat_le (b : Bit) : b.toNat ≤ 1 := by have := b.isLt; omega

theorem bit_cases (b : Bit) : b = 0 ∨ b = 1 := by
  have := b.isLt
  rcases (show b.toNat = 0 ∨ b.toNat = 1 by omega) with h | h
  · exact .inl (BitVec.eq_of_toNat_eq h)
  · exact .inr (BitVec.eq_of_toNat_eq h)

theorem roundUp_iff_roundsUp (y : Split) : roundUp y = true ↔ RoundsUp y.m y.g y.r y.s := by
  obtain ⟨m, g, r, s⟩ := y
  unfold roundUp RoundsUp
  cases g <;> cases r <;> cases s <;> simp

/-- The CodecResult of the pattern of a triple of the precision. -/
theorem decodePattern_pattern (h : RowFacts c) (hx : HexCase) {t : Fields} (ht : t.Fit c) :
    let r := decodePattern hx c (t.pattern c)
    r.fields.sign.toNat = t.sign ∧ r.fields.exponent.toNat = t.exponent ∧ r.fields.fraction.toNat = t.fraction
      ∧ r.cls = classifyFields c.expMax t.exponent t.fraction ∧ r.value = (valueOf c t).toPorts
      ∧ r.bits.toNat = t.pattern c ∧ ValueFits c r := by
  have h1 := decodePattern_fields h hx (Fields.pattern_lt h ht)
  rw [unpackFields_of_pattern h ht] at h1
  exact ⟨h1.2.1, h1.2.2.1, h1.2.2.2.1, h1.2.2.2.2.1, h1.2.2.2.2.2, h1.1,
    decodePattern_valueFits h hx (Fields.pattern_lt h ht)⟩

/-- A finite triple's value as a significand and a power of two, with its magnitude; its exponent fits its port (R181, R182). -/
theorem valueOf_finite (h : RowFacts c) {t : Fields} (ht : t.Fit c)
    (hfin : (classifyFields c.expMax t.exponent t.fraction).isFinite) :
    ∃ m e, valueOf c t = .finite (BitVec.ofNat 1 t.sign) m e
      ∧ (m : ℚ) * 2 ^ e = patValue c (t.exponent * 2 ^ c.f + t.fraction) ∧ m < 2 ^ (c.f + 1)
      ∧ (m = 0 ↔ t.exponent * 2 ^ c.f + t.fraction = 0) ∧ (BitVec.ofInt 16 e).toInt = e := by
  have hm := h.fracMask_eq
  have hf : t.fraction < 2 ^ c.f := by have := ht.fraction_le; omega
  rw [patValue_fields hf]
  unfold valueOf
  have hpos : 0 < 2 ^ c.f := by positivity
  cases hcls : classifyFields c.expMax t.exponent t.fraction with
  | zero =>
    obtain ⟨a, b⟩ := (classifyFields_zero h.expMax_pos).mp hcls
    exact ⟨0, 0, rfl, by rw [a, b]; simp [fieldsMagnitude], by positivity, by rw [a, b]; simp, rfl⟩
  | subnormal =>
    obtain ⟨a, b⟩ := (classifyFields_subnormal h.expMax_pos).mp hcls
    exact ⟨_, _, rfl, by rw [a, fieldsMagnitude_subnormal], by rw [pow_succ]; omega, by rw [a]; simp,
      expPort_subnormal_toInt h⟩
  | normal =>
    obtain ⟨a, b⟩ := classifyFields_normal.mp hcls
    refine ⟨_, _, rfl, by rw [fieldsMagnitude_normal b], by rw [pow_succ]; omega, ?_, expPort_toInt h ht.exponent_le⟩
    have : 1 * 2 ^ c.f ≤ t.exponent * 2 ^ c.f := Nat.mul_le_mul_right _ (by omega)
    constructor <;> intro <;> omega
  | infinity => rw [hcls] at hfin; simp [Class.isFinite] at hfin
  | nan => rw [hcls] at hfin; simp [Class.isFinite] at hfin

/-! ### DECODE -/

theorem exec_decodeInt {s : State} {p : PrecCode} {q : Precision} (hq : precisionOf p = some q)
    (hv : s.cmd.intIn < 2 ^ (registry q).n) : exec (.decodeInt p) s =
      .next (s.answer (.decoded (decodePattern s.build.hexOutCase (registry q) s.cmd.intIn))) := by
  rw [exec_recognized (i := .decodeInt p) (q := q) rfl hq]
  simp only [opResponse, readPattern, readInt, if_pos hv, onPattern_ok]
  rfl

/-! ### ENCODE -/

theorem nan_frac_bounds {b : Build} (hb : b.wf = true) (q : Precision) :
    1 ≤ (b.nan q).frac.toNat ∧ (b.nan q).frac.toNat ≤ (registry q).fracMask := by
  unfold Build.wf NanPattern.wf at hb
  simp only [Bool.and_eq_true, decide_eq_true_eq] at hb
  cases q <;> simp only [Build.nan, registry] <;> omega

/-- Every form of ENCODE ends in the CodecResult of the pattern of a triple of the precision (R160, R167). -/
theorem encodeOperand_result {b : Build} (hb : b.wf = true) (q : Precision) (o : EncodeOperand) :
    ∃ t : Fields, t.Fit (registry q)
      ∧ (encodeOperand b q o).result = decodePattern b.hexOutCase (registry q) (t.pattern (registry q)) := by
  have h := registry_facts q
  have hnan : Fields.Fit (registry q) ⟨(b.nan q).sign.toNat, (registry q).expMax, (b.nan q).frac.toNat⟩ :=
    ⟨bit_toNat_le _, le_rfl, (nan_frac_bounds hb q).2⟩
  cases o with
  | finite sg co ex =>
    by_cases hc : co = 0
    · have hfit : Fields.Fit (registry q) ⟨sg.toNat, 0, 0⟩ := ⟨bit_toNat_le sg, by simp, by simp⟩
      exact ⟨_, hfit, by simp only [encodeOperand, if_pos hc]; exact finish_eq_decodePattern h _ hfit⟩
    · obtain ⟨k, hk⟩ := roundMagnitude_spec h (0, (registry q).fracMask) (dec_num_pos hc ex) (dec_den_pos co ex)
      have hfit := (RoundSpec.fit h h.expMax_pos le_rfl hk sg).1
      exact ⟨_, hfit, by simp only [encodeOperand, if_neg hc]; exact finish_eq_decodePattern h _ hfit⟩
  | inf sg =>
    have hfit : Fields.Fit (registry q) ⟨sg.toNat, (registry q).expMax, 0⟩ := ⟨bit_toNat_le sg, le_rfl, by simp⟩
    exact ⟨_, hfit, finish_eq_decodePattern h _ hfit⟩
  | nan => exact ⟨_, hnan, finish_eq_decodePattern h _ hnan⟩
  | invalid => exact ⟨_, hnan, finish_eq_decodePattern h _ hnan⟩

/-- Every CodecResult that an instruction answers is the decoding of a pattern of the precision. -/
theorem opResponse_codec {i : Instr} {s : State} {q : Precision} {r : CodecResult} (hb : s.build.wf = true)
    (hr : (opResponse i s q).codec? = some r) :
    ∃ v, v < 2 ^ (registry q).n ∧ r = decodePattern s.build.hexOutCase (registry q) v := by
  have pat : ∀ (form : OperandForm) (n : Nat) (tx : Text) (op : Nat → Response),
      (onPattern (readPattern (registry q) form n tx) op).codec? = some r →
      ∃ v, v < 2 ^ (registry q).n ∧ (op v).codec? = some r := by
    intro form n tx op h
    cases hh : readPattern (registry q) form n tx with
    | error k => simp [hh, Response.codec?] at h
    | ok v => exact ⟨v, readPattern_lt hh, by simpa [hh] using h⟩
  have enc : ∀ o, (encodeOperand s.build q o).result = r →
      ∃ v, v < 2 ^ (registry q).n ∧ r = decodePattern s.build.hexOutCase (registry q) v := by
    intro o ho
    obtain ⟨t, ht, hd⟩ := encodeOperand_result hb q o
    exact ⟨_, Fields.pattern_lt (registry_facts q) ht, ho ▸ hd⟩
  have dec : ∀ form,
      (onPattern (readPattern (registry q) form s.cmd.intIn s.cmd.strIn)
        (decodeResponse s.build.hexOutCase (registry q))).codec? = some r →
      ∃ v, v < 2 ^ (registry q).n ∧ r = decodePattern s.build.hexOutCase (registry q) v := by
    intro form h
    obtain ⟨v, hv, h⟩ := pat _ _ _ _ h
    exact ⟨v, hv, (Option.some.inj h).symm⟩
  have arith : ∀ op a b, (arithOn op a b s q).codec? = some r →
      ∃ v, v < 2 ^ (registry q).n ∧ r = decodePattern s.build.hexOutCase (registry q) v := by
    intro op a b h
    obtain ⟨va, -, h⟩ := pat _ _ _ _ h
    obtain ⟨vb, -, h⟩ := pat _ _ _ _ h
    exact enc _ (Option.some.inj h)
  cases i <;> simp only [opResponse] at hr
  case configFor => cases hr
  case pack => unfold packResponse at hr; split at hr <;> cases hr
  case classify => unfold classifyResponse at hr; split at hr <;> cases hr
  case roundRational =>
    unfold roundRationalResponse roundResponse at hr
    split at hr
    · cases hr
    · split at hr <;> cases hr
  case roundPresplit => unfold roundPresplitResponse roundResponse at hr; split at hr <;> cases hr
  case encodeFinite => exact enc _ (Option.some.inj hr)
  case encodeInf => exact enc _ (Option.some.inj hr)
  case encodeNan => exact enc _ (Option.some.inj hr)
  case encodeInvalid => exact enc _ (Option.some.inj hr)
  case decodeInt => exact dec _ hr
  case decodeStr => exact dec _ hr
  case fpAdd => exact arith _ _ _ hr
  case fpMultiply => exact arith _ _ _ hr
  all_goals
    obtain ⟨v, -, h⟩ := pat _ _ _ _ hr
    cases h

/-- `pre_m` fits the precision (R161). -/
theorem encodeOperand_preM (b : Build) (q : Precision) (o : EncodeOperand) (a : AuxGroup)
    (ha : (encodeOperand b q o).aux = some a) : a.preM.toNat ≤ (registry q).fracMask := by
  have h := registry_facts q
  have hm := h.fracMask_eq
  cases o with
  | finite sg co ex =>
    by_cases hc : co = 0
    · simp [encodeOperand, hc] at ha
    · simp only [encodeOperand, if_neg hc, Option.some.injEq] at ha
      obtain ⟨k, H⟩ := roundMagnitude_spec h (0, (registry q).fracMask) (dec_num_pos hc ex) (dec_den_pos co ex)
      rw [← ha]
      show (BitVec.ofNat 112 _).toNat ≤ _
      rw [BitVec.toNat_ofNat, H.split_m]
      have := Nat.mod_lt k (show 0 < 2 ^ (registry q).f by positivity)
      exact (Nat.mod_le _ _).trans (by omega)
  | inf sg => simp [encodeOperand] at ha
  | nan => simp [encodeOperand] at ha
  | invalid => simp [encodeOperand] at ha

/-- ENCODE FINITE on a positive magnitude: the bracket, the answer, and the CodecResult's fields. -/
theorem exec_encodeFinite (s : State) (p : PrecCode) (q : Precision) (hq : precisionOf p = some q)
    (hc : s.cmd.coef ≠ 0) :
    ∃ r k R, RoundSpec (registry q) (0, (registry q).fracMask) (decRat s.cmd.coef s.cmd.exp10) r k
      ∧ r = roundMagnitude (registry q) (0, (registry q).fracMask) (dec s.cmd.coef s.cmd.exp10)
      ∧ exec (.encodeFinite p) s = .next (s.answer (.encoded
          { inSign := s.cmd.sign, inKind := .finite, inMagnitude := some (s.cmd.coef, s.cmd.exp10) }
          { result := R, aux := some r.toAux, reason := .none }))
      ∧ Fields.Fit (registry q) ⟨s.cmd.sign.toNat, r.exponent, r.fraction⟩
      ∧ (r.exponent = (registry q).expMax → r.fraction = 0)
      ∧ R = decodePattern s.build.hexOutCase (registry q)
          (Fields.pattern (registry q) ⟨s.cmd.sign.toNat, r.exponent, r.fraction⟩)
      ∧ R.fields.sign.toNat = s.cmd.sign.toNat ∧ R.fields.exponent.toNat = r.exponent
      ∧ R.fields.fraction.toNat = r.fraction ∧ R.cls = classifyFields (registry q).expMax r.exponent r.fraction
      ∧ R.value = (valueOf (registry q) ⟨s.cmd.sign.toNat, r.exponent, r.fraction⟩).toPorts
      ∧ R.bits.toNat = Fields.pattern (registry q) ⟨s.cmd.sign.toNat, r.exponent, r.fraction⟩
      ∧ ValueFits (registry q) R := by
  have h := registry_facts q
  obtain ⟨k, hk⟩ := roundMagnitude_spec h (0, (registry q).fracMask) (dec_num_pos hc s.cmd.exp10)
    (dec_den_pos s.cmd.coef s.cmd.exp10)
  rw [dec_rat] at hk
  have hf := RoundSpec.fit h h.expMax_pos le_rfl hk s.cmd.sign
  refine ⟨_, k, _, hk, rfl, ?_, hf.1, hf.2, rfl, decodePattern_pattern h s.build.hexOutCase hf.1⟩
  rw [exec_recognized (i := .encodeFinite p) (q := q) rfl hq]
  simp only [opResponse, encodeOperand, if_neg hc]
  rw [← finish_eq_decodePattern h s.build.hexOutCase hf.1]

/-! ### The Arithmetic Layer -/

/-- The instruction of an operation. -/
def arithInstr (op : ArithOp) (p : PrecCode) (a b : OperandForm) : Instr :=
  match op with
  | .add      => .fpAdd p a b
  | .multiply => .fpMultiply p a b

theorem exec_arith {s : State} {p : PrecCode} {q : Precision} {a b : OperandForm} {va vb : Nat}
    (hq : precisionOf p = some q) (ha : s.build.hasArith = true)
    (h1 : readPattern (registry q) a s.cmd.intIn s.cmd.strIn = .ok va)
    (h2 : readPattern (registry q) b s.cmd.intInB s.cmd.strInB = .ok vb) (op : ArithOp) :
    exec (arithInstr op p a b) s = .next (s.answer (arithResponse op s.build q va vb)) := by
  cases op
  · rw [arithInstr, exec_recognized (i := .fpAdd p a b) (q := q) (by simp [Instr.wf, ha]) hq]
    simp only [opResponse, arithOn, h1, h2, onPattern_ok]
  · rw [arithInstr, exec_recognized (i := .fpMultiply p a b) (q := q) (by simp [Instr.wf, ha]) hq]
    simp only [opResponse, arithOn, h1, h2, onPattern_ok]

/-- The two renderings of a host operand agree but for a finite quad value (R202). -/
theorem toHost_id {q : Precision} (v : Value) (h : q ≠ .quad ∨ ∀ s m e, v ≠ .finite s m e) : toHost q v = v := by
  unfold toHost
  split
  · rename_i s m e
    rcases h with h | h
    · exact absurd rfl h
    · exact absurd rfl (h s m e)
  · rfl

theorem signed_rat (s : Bit) (n : Nat) : ((signed s n : ℤ) : ℚ) = (-1) ^ s.toNat * n := by
  rcases bit_cases s with rfl | rfl <;> simp [signed]

theorem dyadic_rat (m : Nat) (e : ℤ) : (dyadic m e).rat = m * (2 : ℚ) ^ e := by
  unfold dyadic
  rw [Frac.scale2_rat]
  simp [Frac.rat]

theorem shift_to_low (m : Nat) {e low : ℤ} (h : low ≤ e) :
    ((m * 2 ^ (e - low).toNat : ℕ) : ℚ) * 2 ^ low = m * (2 : ℚ) ^ e := by
  have he : e = (e - low).toNat + low := by omega
  conv_rhs => rw [he, zpow_add₀ (by norm_num : (2 : ℚ) ≠ 0), zpow_natCast]
  push_cast
  ring

/-- The integer sum of `host_add` at the lower of the two exponents is the exact sum (R204). -/
theorem hostAdd_sum (s : Bit) (m : Nat) (e : ℤ) (t : Bit) (n : Nat) (k : ℤ) :
    ((signed s (m * 2 ^ (e - min e k).toNat) + signed t (n * 2 ^ (k - min e k).toNat) : ℤ) : ℚ) * 2 ^ (min e k)
      = (-1) ^ s.toNat * (m * (2 : ℚ) ^ e) + (-1) ^ t.toNat * (n * (2 : ℚ) ^ k) := by
  push_cast
  rw [signed_rat, signed_rat, ← shift_to_low m (min_le_left e k), ← shift_to_low n (min_le_right e k)]
  ring

/-! ### Errors -/

/-- A recognized instruction's own rule ends in no other error than these two (R220). -/
theorem opResponse_error (i : Instr) (s : State) (q : Precision) (k : ErrorKind) (h : opResponse i s q = .error k) :
    k = .malformedBits ∨ k = .operandRange := by
  have pat : ∀ (form : OperandForm) (n : Nat) (tx : Text) (op : Nat → Response),
      (∀ v, op v = .error k → k = .malformedBits ∨ k = .operandRange) →
      onPattern (readPattern (registry q) form n tx) op = .error k → k = .malformedBits ∨ k = .operandRange := by
    intro form n tx op hop
    cases hh : readPattern (registry q) form n tx with
    | error k' =>
      intro h
      have := readPattern_error hh
      injection h with h
      exact .inl (by rw [← h, this])
    | ok v => exact hop v
  cases i <;> simp only [opResponse] at h
  case configFor => cases h
  case pack => unfold packResponse at h; split at h <;> cases h; exact .inr rfl
  case classify => unfold classifyResponse at h; split at h <;> cases h; exact .inr rfl
  case roundRational =>
    unfold roundRationalResponse roundResponse at h
    split at h
    · cases h; exact .inr rfl
    · split at h <;> cases h; exact .inr rfl
  case roundPresplit => unfold roundPresplitResponse roundResponse at h; split at h <;> cases h; exact .inr rfl
  case encodeFinite => cases h
  case encodeInf => cases h
  case encodeNan => cases h
  case encodeInvalid => cases h
  case fpAdd => exact pat _ _ _ _ (fun v hv => pat _ _ _ _ (fun w hw => by cases hw) hv) h
  case fpMultiply => exact pat _ _ _ _ (fun v hv => pat _ _ _ _ (fun w hw => by cases hw) hv) h
  all_goals exact pat _ _ _ _ (fun v hv => by cases hv) h

/-- A decoded instruction carries the precision code of its word (R50). -/
theorem decode_prec {w : Word} {i : Instr} (h : decode w = .ok i) : PrecCode.ofBits (precField w) = i.prec := by
  unfold decode at h
  simp only at h
  split at h
  · cases h
  · split at h <;> first | (injection h with h; subst h; rfl) | (split at h <;> cases h)

end Sys2Proof.Machine
end

