-- ==== Sys2Proof/Laws/PerInstr.lean ====
section
/-!
SUPPORT. Statements for all instructions, one lemma a constructor: the fields of an instruction's command word (R50 to R53).
-/
namespace Sys2Proof.Laws.WordFields

/-- The word of an instruction has its precision code in `prec`, zeros in `rsv`, and an `op` of the table, 0x9 or 0xA
exactly for the operations of the Arithmetic Layer. -/
def Statement (i : Instr) : Prop :=
  precField (encode i) = i.prec.toBits ∧ rsvField (encode i) = 0 ∧ 1 ≤ (opField (encode i)).toNat
    ∧ (opField (encode i)).toNat ≤ 0xA ∧ (i.isArith = true ↔ 9 ≤ (opField (encode i)).toNat)

theorem configFor (p : PrecCode) : Statement (.configFor p) := by
  cases p <;> exact ⟨rfl, rfl, by decide, by decide, by decide⟩

theorem pack (p : PrecCode) : Statement (.pack p) := by
  cases p <;> exact ⟨rfl, rfl, by decide, by decide, by decide⟩

theorem unpackInt (p : PrecCode) : Statement (.unpackInt p) := by
  cases p <;> exact ⟨rfl, rfl, by decide, by decide, by decide⟩

theorem unpackStr (p : PrecCode) : Statement (.unpackStr p) := by
  cases p <;> exact ⟨rfl, rfl, by decide, by decide, by decide⟩

theorem formatInt (p : PrecCode) : Statement (.formatInt p) := by
  cases p <;> exact ⟨rfl, rfl, by decide, by decide, by decide⟩

theorem formatStr (p : PrecCode) : Statement (.formatStr p) := by
  cases p <;> exact ⟨rfl, rfl, by decide, by decide, by decide⟩

theorem classify (p : PrecCode) : Statement (.classify p) := by
  cases p <;> exact ⟨rfl, rfl, by decide, by decide, by decide⟩

theorem roundRational (p : PrecCode) : Statement (.roundRational p) := by
  cases p <;> exact ⟨rfl, rfl, by decide, by decide, by decide⟩

theorem roundPresplit (p : PrecCode) : Statement (.roundPresplit p) := by
  cases p <;> exact ⟨rfl, rfl, by decide, by decide, by decide⟩

theorem encodeFinite (p : PrecCode) : Statement (.encodeFinite p) := by
  cases p <;> exact ⟨rfl, rfl, by decide, by decide, by decide⟩

theorem encodeInf (p : PrecCode) : Statement (.encodeInf p) := by
  cases p <;> exact ⟨rfl, rfl, by decide, by decide, by decide⟩

theorem encodeNan (p : PrecCode) : Statement (.encodeNan p) := by
  cases p <;> exact ⟨rfl, rfl, by decide, by decide, by decide⟩

theorem encodeInvalid (p : PrecCode) : Statement (.encodeInvalid p) := by
  cases p <;> exact ⟨rfl, rfl, by decide, by decide, by decide⟩

theorem decodeInt (p : PrecCode) : Statement (.decodeInt p) := by
  cases p <;> exact ⟨rfl, rfl, by decide, by decide, by decide⟩

theorem decodeStr (p : PrecCode) : Statement (.decodeStr p) := by
  cases p <;> exact ⟨rfl, rfl, by decide, by decide, by decide⟩

theorem fpAdd (p : PrecCode) (a b : OperandForm) : Statement (.fpAdd p a b) := by
  cases p <;> cases a <;> cases b <;> exact ⟨rfl, rfl, by decide, by decide, by decide⟩

theorem fpMultiply (p : PrecCode) (a b : OperandForm) : Statement (.fpMultiply p a b) := by
  cases p <;> cases a <;> cases b <;> exact ⟨rfl, rfl, by decide, by decide, by decide⟩

end Sys2Proof.Laws.WordFields
end

