-- ==== Sys2Proof/Laws/Strings.lean ====
section
/-!
SUPPORT. The digit strings: which operands are read and as what (R93 to R95), what `format` writes (R97), and that what it
writes is read back (R99).
-/
namespace Sys2Proof.Machine

variable {c : PrecisionConfig}

theorem hexDigitsOf?_mark {x : CharCode} {digits : Text} (hx : x = 0x78 ∨ x = 0x58) :
    hexDigitsOf? (0x30 :: x :: digits) = some digits := by
  exact if_pos ⟨rfl, hx⟩

theorem hexDigitsOf?_none {text : Text} (h : ¬ ∃ x digits, text = 0x30 :: x :: digits ∧ (x = 0x78 ∨ x = 0x58)) :
    hexDigitsOf? text = none := by
  unfold hexDigitsOf?
  split
  · rename_i c0 c1 ds
    exact if_neg fun h2 => h ⟨c1, ds, by rw [h2.1], h2.2⟩
  · rfl

/-- The digit loop from 0, in the terms of the claims. -/
theorem readDigits_binary {t : Text} {v : Nat} :
    readDigits 2 binDigit? 0 t = some v ↔ ∃ ds, List.Forall₂ IsBinDigit t ds ∧ v = positional 2 ds := by
  simp only [readDigits_eq_some, binDigit?_eq_some, Nat.zero_mul, Nat.zero_add]
  rfl

theorem readDigits_hex {t : Text} {v : Nat} :
    readDigits 16 hexDigit? 0 t = some v ↔ ∃ ds, List.Forall₂ IsHexDigit t ds ∧ v = positional 16 ds := by
  simp only [readDigits_eq_some, hexDigit?_eq_some, Nat.zero_mul, Nat.zero_add]
  rfl

theorem readBinary_eq_ok {t : Text} {v : Nat} :
    readBinary c t = .ok v ↔ t.length = c.n ∧ ∃ ds, List.Forall₂ IsBinDigit t ds ∧ v = positional 2 ds := by
  rw [← readDigits_binary]
  unfold readBinary
  split_ifs with h
  · simp [h]
  · split <;> simp_all

theorem readHex_eq_ok {t : Text} {v : Nat} :
    readHex c t = .ok v ↔
      t ≠ [] ∧ (∃ ds, List.Forall₂ IsHexDigit t ds ∧ v = positional 16 ds) ∧ v < 2 ^ c.n := by
  rw [← readDigits_hex]
  unfold readHex
  split_ifs with h
  · simp [h]
  · cases hr : readDigits 16 hexDigit? 0 t with
    | none => simp
    | some w =>
      simp only [Option.some.injEq]
      split_ifs with hw
      · simp only [Except.ok.injEq, ne_eq, h, not_false_eq_true, true_and]
        exact ⟨fun e => ⟨e, e ▸ hw⟩, And.left⟩
      · simp only [false_iff]
        rintro ⟨-, rfl, h2⟩
        exact hw h2

/-- Everything reading a string can answer. -/
theorem readStr_eq_ok {t : Text} {v : Nat} : readStr c t = .ok v ↔ IsPatternText c t v := by
  have hp : 0 < 2 ^ c.n := by positivity
  unfold readStr IsPatternText
  by_cases h : ∃ x digits, t = 0x30 :: x :: digits ∧ (x = 0x78 ∨ x = 0x58)
  · obtain ⟨x, digits, rfl, hx⟩ := h
    rw [hexDigitsOf?_mark hx]
    simp only [readHex_eq_ok]
    constructor
    · rintro ⟨h1, ⟨ds, h2, h3⟩, h4⟩
      exact .inl ⟨x, digits, ds, rfl, hx, h1, h2, h3, by omega⟩
    · rintro (⟨x', digits', ds, he, -, h1, h2, h3, h4⟩ | ⟨h1, -⟩)
      · obtain ⟨-, he⟩ := List.cons.inj he
        obtain ⟨rfl, rfl⟩ := List.cons.inj he
        exact ⟨h1, ⟨ds, h2, h3⟩, by omega⟩
      · exact absurd ⟨x, digits, rfl, hx⟩ h1
  · rw [hexDigitsOf?_none h]
    simp only [readBinary_eq_ok]
    constructor
    · exact fun h2 => .inr ⟨h, h2⟩
    · rintro (⟨x, digits, -, he, hx, -⟩ | h2)
      · exact absurd ⟨x, digits, he, hx⟩ h
      · exact h2.2

/-- Everything reading an operand can answer (R93). -/
theorem readPattern_eq_ok {form : OperandForm} {n v : Nat} {t : Text} :
    readPattern c form n t = .ok v ↔ IsPattern c form n t v := by
  have hp : 0 < 2 ^ c.n := by positivity
  cases form with
  | int =>
    simp only [readPattern, readInt, IsPattern]
    split_ifs with h
    · simp only [Except.ok.injEq]; omega
    · simp only [false_iff]; omega
  | str => exact readStr_eq_ok

/-- An operand that is no pattern is `MalformedBits` (R222). -/
theorem readPattern_eq_error {form : OperandForm} {n : Nat} {t : Text} (h : ¬ ∃ v, IsPattern c form n t v) :
    readPattern c form n t = .error .malformedBits := by
  cases hr : readPattern c form n t with
  | error k => rw [readPattern_error hr]
  | ok v => exact absurd ⟨v, readPattern_eq_ok.mp hr⟩ h

/-! ### What `format` writes -/

theorem digitCode_bit (b : Bool) : digitCode b.toNat = if b = true then 0x31 else 0x30 := by cases b <;> rfl

theorem hexChar_spec (h : HexCase) {d : Nat} (hd : d < 16) :
    IsHexDigit (hexChar h d) d ∧ (h = .upper → (hexChar h d).toNat < 0x61)
      ∧ (h = .lower → (hexChar h d).toNat < 0x41 ∨ 0x61 ≤ (hexChar h d).toNat) := by
  unfold IsHexDigit
  cases h <;> interval_cases d <;> decide

theorem binText_length (v : Nat) : (binText c v).length = c.n := by simp [binText]

/-- `bin_str` is its three substrings, whatever is formatted. -/
theorem formatGroup_split (hr : RowFacts c) (h : HexCase) (v : Nat) :
    (formatGroup h c v).binStr =
      (formatGroup h c v).signStr ++ (formatGroup h c v).expStr ++ (formatGroup h c v).fracStr := by
  have hl : (binText c v).length = 1 + c.eb + c.f := by rw [binText_length, hr.n_eq]
  simp only [formatGroup]
  rw [List.append_assoc]
  conv_lhs => rw [← List.take_append_drop 1 (binText c v)]
  congr 1
  conv_lhs => rw [← List.take_append_drop c.eb (List.drop 1 (binText c v))]
  congr 1
  rw [List.drop_drop, Nat.add_comm 1, List.take_of_length_le]
  simp [hl]; omega

theorem formatGroup_stringsFit (hr : RowFacts c) (h : HexCase) (v : Nat) : StringsFit h c v (formatGroup h c v) := by
  have hn := hr.n_eq
  have hl := @binText_length c v
  refine ⟨hl, fun k hk => ?_, by simp [formatGroup, hexText], fun j hj => ?_, formatGroup_split hr h v, ?_, ?_, ?_⟩
  · simp only [formatGroup, binText]
    rw [List.getElem?_map, List.getElem?_range hk]
    simp only [Option.map_some, Option.some.injEq]
    rw [digitCode_bit, Nat.testBit_eq_decide_div_mod_eq]
    simp
  · simp only [formatGroup, hexText]
    rw [List.getElem?_map, List.getElem?_range hj]
    exact ⟨_, rfl, hexChar_spec h (Nat.mod_lt _ (by decide))⟩
  all_goals simp only [formatGroup, List.length_take, List.length_drop, hl]; omega

/-! ### What is written is read back -/

/-- Digits written most significant first, `w` of them, have the value they were taken from. -/
theorem positional_range (b : Nat) (v w : Nat) :
    positional b ((List.range w).map fun i => v / b ^ (w - 1 - i) % b) = v % b ^ w := by
  induction w with
  | zero => simp [positional, Nat.mod_one]
  | succ w ih =>
    rw [List.range_succ_eq_map, List.map_cons, List.map_map]
    have e : ((fun i => v / b ^ (w + 1 - 1 - i) % b) ∘ Nat.succ) = fun i => v / b ^ (w - 1 - i) % b := by
      funext i
      simp only [Function.comp_apply, Nat.succ_eq_add_one]
      congr 3
      omega
    rw [e]
    simp only [positional, List.reverse_cons, Nat.ofDigits_append, Nat.ofDigits_singleton, List.length_reverse,
      List.length_map, List.length_range] at ih ⊢
    rw [ih, Nat.add_sub_cancel, Nat.sub_zero, Nat.mod_pow_succ]

theorem forall₂_map_range {R : CharCode → Nat → Prop} {w : Nat} {f : Nat → CharCode} {g : Nat → Nat}
    (h : ∀ i, i < w → R (f i) (g i)) : List.Forall₂ R ((List.range w).map f) ((List.range w).map g) := by
  rw [List.forall₂_map_left_iff, List.forall₂_map_right_iff, List.forall₂_same]
  exact fun i hi => h i (List.mem_range.mp hi)

theorem isBinDigit_digitCode (b : Bool) : IsBinDigit (digitCode b.toNat) b.toNat := by
  unfold IsBinDigit; cases b <;> decide

/-- The binary string is read as the pattern (R99). -/
theorem isPatternText_binStr (h : HexCase) {v : Nat} (hv : v < 2 ^ c.n) :
    IsPatternText c (formatGroup h c v).binStr v := by
  have hd : List.Forall₂ IsBinDigit (binText c v)
      ((List.range c.n).map fun i => v / 2 ^ (c.n - 1 - i) % 2) := by
    refine forall₂_map_range fun i _ => ?_
    have e : v / 2 ^ (c.n - 1 - i) % 2 = (v.testBit (c.n - 1 - i)).toNat := by
      rw [Nat.testBit_eq_decide_div_mod_eq]
      rcases Nat.mod_two_eq_zero_or_one (v / 2 ^ (c.n - 1 - i)) with h | h <;> simp [h]
    rw [e]
    exact isBinDigit_digitCode _
  refine .inr ⟨?_, binText_length v, _, hd, by rw [positional_range, Nat.mod_eq_of_lt hv]⟩
  rintro ⟨x, digits, he, hx⟩
  change binText c v = _ at he
  rw [he] at hd
  obtain ⟨_, _, -, h2, -⟩ := List.forall₂_cons_left_iff.mp hd
  obtain ⟨_, _, ⟨h4, h5⟩, -, -⟩ := List.forall₂_cons_left_iff.mp h2
  rcases hx with rfl | rfl <;> simp at h5 <;> omega

/-- The hexadecimal string, after its mark, is read as the pattern (R99). -/
theorem isPatternText_hexStr (hr : RowFacts c) (h : HexCase) {v : Nat} (hv : v < 2 ^ c.n) :
    IsPatternText c (0x30 :: 0x78 :: (formatGroup h c v).hexStr) v := by
  have hn : c.n = 4 * (c.n / 4) := by have := hr.n_mod; omega
  have h4 := hr.n_ge
  have hd : List.Forall₂ IsHexDigit (hexText h c v)
      ((List.range (c.n / 4)).map fun j => v / 16 ^ (c.n / 4 - 1 - j) % 16) := by
    refine forall₂_map_range fun j hj => ?_
    have e : 16 ^ (c.n / 4 - 1 - j) = 2 ^ (c.n - 4 - 4 * j) := by
      rw [show (16 : Nat) = 2 ^ 4 by norm_num, ← pow_mul]
      congr 1
      omega
    rw [e]
    exact (hexChar_spec h (Nat.mod_lt _ (by decide))).1
  refine .inl ⟨0x78, hexText h c v, _, rfl, .inl rfl, ?_, hd, ?_, by omega⟩
  · intro he
    have := congrArg List.length he
    simp [hexText] at this
    omega
  · rw [positional_range, Nat.mod_eq_of_lt]
    rw [show (16 : Nat) = 2 ^ 4 by norm_num, ← pow_mul, ← hn]
    exact hv

end Sys2Proof.Machine
end

