-- ==== Sys2Proof/Tests/Slice0.lean ====
section
/-!
SUPPORT. Tests. Every expected result is copied from the spec: `95_test_vectors.md` (sections named at each test), the
words of `30_encoding.md` R53, and the opcode table's rows. Below them, for every statement with hypotheses, a concrete
state and operands that meet them all, clause by clause.
-/
namespace Sys2Proof.Tests

open Sys2Proof Sys2Proof.Machine

/-- A string operand. -/
def chars (l : List Char) : Text := l.map fun c => BitVec.ofNat 8 c.toNat

/-- The machine after reset, in a build with or without the Arithmetic Layer. -/
def machine (hasArith : Bool) : State := { State.reset with build := { Build.thisHardware with hasArith := hasArith } }

/-- The response to one command record. -/
def askCommand (hasArith : Bool) (c : Command) : Option Response :=
  match step ((machine hasArith).issue [c]) with
  | .next s    => s.resp
  | .fault _   => none
  | .refused _ => none

/-- The response to one command line. -/
def ask (hasArith : Bool) (l : AsmLine) : Option Response := askCommand hasArith (assemble l)

/-- The status of the response to a bare word. -/
def statusOfWord (hasArith : Bool) (w : Word) : Option (BitVec 4) :=
  (askCommand hasArith (Command.ofWord w)).map Response.status

/-! ### WellFormed: one ill-formed term for each check -/

theorem test_wf_registry : ∀ q : Precision, (registry q).wf = true := by intro q; cases q <;> decide

theorem test_row_width_refused : PrecisionConfig.wf ⟨20, 5, 10, 15, 31, 0x3FF⟩ = false := by decide
theorem test_row_bias_refused : PrecisionConfig.wf ⟨16, 5, 10, 16, 31, 0x3FF⟩ = false := by decide
theorem test_row_expMax_refused : PrecisionConfig.wf ⟨16, 5, 10, 15, 32, 0x3FF⟩ = false := by decide
theorem test_row_fracMask_refused : PrecisionConfig.wf ⟨16, 5, 10, 15, 31, 0x400⟩ = false := by decide
theorem test_row_not_multiple_of_four_refused : PrecisionConfig.wf ⟨15, 5, 9, 15, 31, 0x1FF⟩ = false := by decide

theorem test_wf_build : Build.thisHardware.wf = true := by decide

/-- A zero NaN fraction would be an infinity, one above the mask no fraction of the precision (R7). -/
theorem test_nan_pattern_refused :
    NanPattern.wf ⟨0, 0⟩ 0x3FF = false ∧ NanPattern.wf ⟨0, 0x400⟩ 0x3FF = false ∧ NanPattern.wf ⟨1, 0x3FF⟩ 0x3FF = true
      ∧ Build.wf { Build.thisHardware with nanHalf := ⟨0, 0⟩ } = false
      ∧ Build.wf { Build.thisHardware with nanSingle := ⟨0, 0x800000⟩ } = false
      ∧ Build.wf { Build.thisHardware with nanDouble := ⟨0, 0⟩ } = false
      ∧ Build.wf { Build.thisHardware with nanQuad := ⟨0, 0⟩ } = false := by decide

theorem test_arith_instruction_refused_without_layer :
    (Instr.fpAdd .half .int .int).wf (machine false).build = false
      ∧ (Instr.fpMultiply .quad .str .str).wf (machine false).build = false
      ∧ (Instr.fpAdd .half .int .int).wf (machine true).build = true := by decide

/-! ### Decoding: one word written out for every constructor (R50 to R53: op, prec, kind, rsv) -/

theorem test_decode_configFor : decode 0b0001_011_00_0000000 = .ok (.configFor .quad) := by decide
theorem test_decode_pack : decode 0b0010_000_00_0000000 = .ok (.pack .half) := by decide
theorem test_decode_unpack : decode 0b0011_001_00_0000000 = .ok (.unpackInt .single)
    ∧ decode 0b0011_000_01_0000000 = .ok (.unpackStr .half) := by decide
theorem test_decode_format : decode 0b0100_011_00_0000000 = .ok (.formatInt .quad)
    ∧ decode 0b0100_010_01_0000000 = .ok (.formatStr .double) := by decide
theorem test_decode_classify : decode 0b0101_101_00_0000000 = .ok (.classify .p5) := by decide
theorem test_decode_round : decode 0b0110_100_00_0000000 = .ok (.roundRational .p4)
    ∧ decode 0b0110_001_01_0000000 = .ok (.roundPresplit .single) := by decide
theorem test_decode_encode : decode 0b0111_001_00_0000000 = .ok (.encodeFinite .single)
    ∧ decode 0b0111_010_01_0000000 = .ok (.encodeInf .double) ∧ decode 0b0111_000_10_0000000 = .ok (.encodeNan .half)
    ∧ decode 0b0111_111_11_0000000 = .ok (.encodeInvalid .p7) := by decide
theorem test_decode_decode : decode 0b1000_001_00_0000000 = .ok (.decodeInt .single)
    ∧ decode 0b1000_010_01_0000000 = .ok (.decodeStr .double) := by decide
theorem test_decode_fp : decode 0b1001_001_01_0000000 = .ok (.fpAdd .single .str .int)
    ∧ decode 0b1001_000_10_0000000 = .ok (.fpAdd .half .int .str)
    ∧ decode 0b1010_010_10_0000000 = .ok (.fpMultiply .double .int .str) := by decide

/-- The illegal words, with the reason (R54). -/
theorem test_decode_refuses : decode 0x0000 = .error .reservedOp ∧ decode 0xB000 = .error .reservedOp
    ∧ decode 0xF200 = .error .reservedOp ∧ decode 0xFFFF = .error .reservedBits ∧ decode 0x7201 = .error .reservedBits
    ∧ decode 0x7240 = .error .reservedBits ∧ decode 0x1080 = .error .reservedKind ∧ decode 0x2280 = .error .reservedKind
    ∧ decode 0x5300 = .error .reservedKind ∧ decode 0x3100 = .error .reservedKind ∧ decode 0x4380 = .error .reservedKind
    ∧ decode 0x8300 = .error .reservedKind ∧ decode 0x6300 = .error .reservedKind := by decide

/-- The opcode table's rows: mask, match, and the instruction of the match word. -/
def tableRows : List (Nat × Nat × Instr) :=
  [(0xF1FF, 0x1000, .configFor .half), (0xF1FF, 0x2000, .pack .half), (0xF1FF, 0x3000, .unpackInt .half),
   (0xF1FF, 0x3080, .unpackStr .half), (0xF1FF, 0x4000, .formatInt .half), (0xF1FF, 0x4080, .formatStr .half),
   (0xF1FF, 0x5000, .classify .half), (0xF1FF, 0x6000, .roundRational .half), (0xF1FF, 0x6080, .roundPresplit .half),
   (0xF1FF, 0x7000, .encodeFinite .half), (0xF1FF, 0x7080, .encodeInf .half), (0xF1FF, 0x7100, .encodeNan .half),
   (0xF1FF, 0x7180, .encodeInvalid .half), (0xF1FF, 0x8000, .decodeInt .half), (0xF1FF, 0x8080, .decodeStr .half)]
  ++ [(0xF07F, 0x9000, .fpAdd .half .int .int), (0xF07F, 0xA000, .fpMultiply .half .int .int)]

/-- No word belongs to two rows: any two rows differ in a bit that both fix. -/
theorem test_table_rows_disjoint :
    tableRows.Pairwise fun a b => (a.1 &&& b.1 &&& (a.2.1 ^^^ b.2.1)) ≠ 0 := by decide

theorem test_table_rows_decode : ∀ r ∈ tableRows, decodeTableWord 16 r.2.1 = some r.2.2 := by decide

theorem test_fetch_word_runs : (match step (State.reset.withFetchWord 16 0x1600) with
    | .next s => s.resp.bind Response.config? | .fault _ => none | .refused _ => none) =
      some ⟨128, 15, 112, 16383, 32767, 0xFFFFFFFFFFFFFFFFFFFFFFFFFFFF⟩ := by decide

/-! ### One or two vectors an instruction (`95_test_vectors.md`) -/

/-- Section 2. -/
theorem test_configFor : (ask false (.configFor .single)).bind Response.config? =
    some ⟨32, 8, 23, 127, 255, 0x7FFFFF⟩ := by decide

/-- Section 3.1. -/
theorem test_pack : (ask false (.pack .single 0 123 5033165)).bind Response.bits? = some 0x3DCCCCCD
    ∧ ask false (.pack .single 0 256 0) = some (.error .operandRange) := by decide

/-- Section 3.2. -/
theorem test_unpackInt : (ask false (.unpack .single (.int 0xC0000000))).bind Response.fields? = some ⟨1, 128, 0⟩
    ∧ ask false (.unpack .half (.int 0x13C00)) = some (.error .malformedBits) := by decide

/-- Section 3.2. -/
theorem test_unpackStr :
    (ask false (.unpack .half (.str (chars ['0', 'X', '0', '0', '0', '0', '3', 'c', '0', '0'])))).bind Response.fields? =
      some ⟨0, 15, 0⟩
    ∧ ask false (.unpack .half (.str (chars ['3', 'C', '0', '0']))) = some (.error .malformedBits)
    ∧ ask false (.unpack .half (.str (chars ['0', 'x']))) = some (.error .malformedBits) := by decide

/-- Section 3.3. -/
theorem test_formatInt : (ask false (.format .half (.int 0xB548))).bind Response.fmt? =
    some ⟨chars ['B', '5', '4', '8'],
      chars ['1', '0', '1', '1', '0', '1', '0', '1', '0', '1', '0', '0', '1', '0', '0', '0'], chars ['1'],
      chars ['0', '1', '1', '0', '1'], chars ['0', '1', '0', '1', '0', '0', '1', '0', '0', '0']⟩ := by decide

/-- Section 3.3: upper case whatever the case of the input. -/
theorem test_formatStr :
    (ask false (.format .half (.str (chars ['0', 'x', 'b', '5', '4', '8'])))).bind Response.fmt? =
      (ask false (.format .half (.int 0xB548))).bind Response.fmt?
    ∧ ask false (.format .single (.str (chars ['0', 'x']))) = some (.error .malformedBits) := by decide

/-- Section 4. -/
theorem test_classify : (ask false (.classify .single 254 0x7FFFFF)).bind Response.cls? = some .normal
    ∧ (ask false (.classify .single 255 1)).bind Response.cls? = some .nan
    ∧ ask false (.classify .half 255 0) = some (.error .operandRange) := by decide

/-- Sections 5.1 and 5.2. -/
theorem test_roundRational : (ask false (.roundRational .single 7 2)).bind Response.round? = some (4, false)
    ∧ (ask false (.roundRational .half 2047 2)).bind Response.round? = some (0, true)
    ∧ ask false (.roundRational .single 0 0) = some (.error .operandRange) := by decide

/-- Sections 5.2 and 5.3. -/
theorem test_roundPresplit :
    (ask false (.roundPresplit .single 8388607 true false true)).bind Response.round? = some (0, true)
    ∧ (ask false (.roundPresplit .single 6 true false false)).bind Response.round? = some (6, false)
    ∧ ask false (.roundPresplit .single 8388608 false false false) = some (.error .operandRange) := by decide

/-- Section 6.2: `1 + 2^-24 + 2^-60`, the sticky bit decides. -/
theorem test_encodeFinite_sticky :
    (ask false (.encodeFinite .single 0 ((2 ^ 60 + 2 ^ 36 + 1) * 5 ^ 60) (-60))).bind Response.bits? = some 0x3F800001
    ∧ (ask false (.encodeFinite .single 1 34028236 31)).bind Response.bits? = some 0xFF800000 := by decide

/-- Section 6.3: the lower end of half's clamp interval. -/
theorem test_encodeFinite_clamp :
    (ask false (.encodeFinite .half 0 (2047 * 5 ^ 25) (-25))).bind Response.bits? = some 0x03FF
    ∧ (ask false (.encodeFinite .half 0 (2047 * 5 ^ 25) (-25))).bind Response.aux? =
        some ⟨-15, 1023, true, false, false, true, false⟩ := by decide

/-- Section 6.1. -/
theorem test_encodeInf : (ask false (.encodeInf .double 1)).bind Response.bits? = some 0xFFF0000000000000 := by decide

/-- Section 6.1. -/
theorem test_encodeNan : (ask false (.encodeNan .half)).bind Response.bits? = some 0x7E00
    ∧ (ask false (.encodeNan .half)).bind Response.reason? = some .none := by decide

/-- Section 6.1. -/
theorem test_encodeInvalid : (ask false (.encodeInvalid .half)).bind Response.bits? = some 0x7E00
    ∧ (ask false (.encodeInvalid .half)).bind Response.reason? = some .invalidDecimalLiteral
    ∧ (ask false (.encodeInvalid .half)).map Response.status = some 0 := by decide

/-- Section 7.1. -/
theorem test_decodeInt : (ask false (.decode .single (.int 0x3DCCCCCD))).bind Response.value? =
    some ⟨.finite, 0, 13421773, -27, 100000001490116119384765625, -27⟩ := by decide

/-- Section 7.5 and section 7.2. -/
theorem test_decodeStr :
    (ask false (.decode .half (.str (chars ['0', 'x', 'b', '5', '4', '8'])))).bind Response.value? =
      some ⟨.finite, 1, 1352, -12, 330078125, -9⟩ := by decide

/-- Section 8. -/
theorem test_fpAdd : (ask true (.fpAdd .single (.int 0x3DCCCCCD) (.int 0x3E4CCCCD))).bind Response.bits? = some 0x3E99999A
    ∧ (ask true (.fpAdd .single (.int 0x3DCCCCCD) (.int 0x3E4CCCCD))).bind Response.exactMatch? = some false
    ∧ ask true (.fpAdd .single (.int 0x3FC00000) (.str (chars ['x', 'y', 'z']))) = some (.error .malformedBits) := by decide

/-- Section 8: the exact product is a tie of the half format and carries to 1.0. -/
theorem test_fpMultiply :
    (ask true (.fpMultiply .half (.int 0x3555) (.int 0x4200))).bind Response.bits? = some 0x3C00 := by decide

/-- Section 8: the clamp through the re-encoding. -/
theorem test_fpMultiply_clamp :
    (ask true (.fpMultiply .single (.int 0x00800000) (.int 0x3F7FFFFF))).bind Response.bits? = some 0x007FFFFF := by
  decide +kernel

/-- Section 9: the order in which the errors are found. -/
theorem test_error_priority : statusOfWord false 0x9200 = some 3 ∧ statusOfWord false 0x5A00 = some 1
    ∧ statusOfWord false 0x7B80 = some 1 ∧ statusOfWord false 0x8A80 = some 1 ∧ statusOfWord false 0x6800 = some 1
    ∧ statusOfWord false 0x3900 = some 3 ∧ statusOfWord false 0x7A01 = some 3 ∧ statusOfWord false 0x9A00 = some 3
    ∧ statusOfWord true 0x9A00 = some 1 := by decide

/-- R182: the ends of `val_exp2`'s range at quad, on the signed 16-bit port. -/
theorem test_exp2_range :
    (decodePattern .upper (registry .quad) 1).value.exp2.toInt = -16494
    ∧ (decodePattern .upper (registry .quad) 0x7FFEFFFFFFFFFFFFFFFFFFFFFFFFFFFF).value.exp2.toInt = 16271 := by decide

/-! ### Witnesses: for every statement with hypotheses, a state and operands that meet them -/

/-- A command record of zeros, to be given the fields a witness needs. -/
def zeros : Command := Command.ofWord 0

/-- The machine with a command on the command port. -/
def port (c : Command) : State := { machine false with cmd := c }

/-- The same in a build with the Arithmetic Layer. -/
def portA (c : Command) : State := { machine true with cmd := c }

theorem witness_DecodeAndEncodeAgree : decode 0xA780 = .ok (.fpMultiply .quad .str .str) := by decide

/-- Each clause of R54, at its ends. -/
theorem witness_IllegalCommandExactlyForIllegalWords :
    ((machine false).issue [Command.ofWord 0x7240]).pending = Command.ofWord 0x7240 :: []
    ∧ IllegalWord true 0x7240 ∧ IllegalWord true 0x0F80 ∧ IllegalWord true 0xB000 ∧ IllegalWord true 0x1080
    ∧ IllegalWord true 0x3100 ∧ IllegalWord false 0x9000 ∧ ¬ IllegalWord true 0x9000 ∧ ¬ IllegalWord false 0x3080
    ∧ ¬ IllegalWord false 0x7F80 ∧ ¬ IllegalWord true 0xAF80 := by
  refine ⟨rfl, ?_⟩
  simp [IllegalWord]

theorem witness_StepRunsTheDecodedInstruction :
    ((machine false).issue [Command.ofWord 0x7200]).pending = Command.ofWord 0x7200 :: []
    ∧ decode (Command.ofWord 0x7200).word = .ok (.encodeFinite .single) ∧ (machine false).pending = [] := by decide

theorem witness_UnknownPrecisionForEveryInstruction :
    (Instr.decodeStr .p4).wf (machine false).build = true ∧ 4 ≤ (Instr.decodeStr .p4).prec.toBits.toNat
    ∧ (Instr.decodeStr .quad).wf (machine false).build = true ∧ ¬ 4 ≤ (Instr.decodeStr .quad).prec.toBits.toNat
    ∧ (Instr.fpAdd .p7 .int .str).wf (machine true).build = true := by decide

theorem witness_EveryCommandIsAnswered :
    ((machine false).issue [Command.ofWord 0, Command.ofWord 0x1000]).pending = Command.ofWord 0 :: [Command.ofWord 0x1000] :=
  rfl

/-- Two machines with different pasts and different commands behind. -/
theorem witness_ResponseIsAFunctionOfTheCommand :
    let s := (machine false).issue [Command.ofWord 0x1000]
    let t := { (machine false).issue [Command.ofWord 0x1000, zeros] with resp := some (.error .operandRange) }
    s.build = t.build ∧ s.pending = Command.ofWord 0x1000 :: [] ∧ t.pending = Command.ofWord 0x1000 :: [zeros]
      ∧ s.resp ≠ t.resp := by decide

theorem witness_InstructionsWriteOnlyTheResponse :
    exec (.pack .half) (port zeros) = .next ((port zeros).answer (.packed 0)) := by rfl

/-- An instruction of the build for each error it can answer with. -/
theorem witness_ErrorsAreThoseOfTheTable :
    (Instr.unpackStr .half).wf (port zeros).build = true
    ∧ exec (.unpackStr .half) (port zeros) = .next ((port zeros).answer (.error .malformedBits))
    ∧ exec (.roundRational .half) (port zeros) = .next ((port zeros).answer (.error .operandRange))
    ∧ exec (.encodeNan .p4) (port zeros) = .next ((port zeros).answer (.error .unknownPrecision)) :=
  ⟨rfl, rfl, rfl, rfl⟩

/-- A state that meets the invariant with a response on the port, and its step on a further command. -/
def packedOnPort : State :=
  { machine false with cmd := Command.ofWord 0x2000, pending := [Command.ofWord 0x1200], resp := some (.packed 0xFFFF) }

theorem witness_InvariantKeptByEveryStep : Inv packedOnPort ∧ ∃ t, step packedOnPort = .next t := by
  refine ⟨⟨by decide, ?_⟩, _, rfl⟩
  rintro r hr
  obtain rfl : Response.packed 0xFFFF = r := Option.some.inj hr
  exact .inr ⟨.half, rfl, by show (0xFFFF : BitsPort).toNat < 2 ^ 16; decide⟩

theorem witness_precisionOf : precisionOf .half = some .half ∧ precisionOf .single = some .single
    ∧ precisionOf .double = some .double ∧ precisionOf .quad = some .quad := by decide

/-- `ConfigForReturnsTheRow`, `EncodeInfinity` and `EncodeSignSymmetry` have no other hypothesis than a recognized
precision (and the choice of the form). -/
theorem witness_ConfigForReturnsTheRow : precisionOf .quad = some .quad ∧ 4 ≤ PrecCode.p4.toBits.toNat := by decide
theorem witness_EncodeInfinity : precisionOf .half = some .half := by decide
theorem witness_EncodeSignSymmetry : precisionOf .half = some .half
    ∧ (Instr.encodeInf .half = .encodeFinite .half ∨ Instr.encodeInf .half = .encodeInf .half)
    ∧ (Instr.encodeFinite .half = .encodeFinite .half ∨ Instr.encodeFinite .half = .encodeInf .half) := by decide

/-- The largest triple of the precision, and each field just above it. -/
theorem witness_PackAssemblesThePattern :
    let s := port { zeros with sign := 1, exponent := 31, fraction := 0x3FF }
    let t := port { zeros with exponent := 32 }
    let u := port { zeros with fraction := 0x400 }
    precisionOf .half = some .half
    ∧ (s.cmd.exponent.toNat ≤ (registry .half).expMax ∧ s.cmd.fraction.toNat ≤ (registry .half).fracMask)
    ∧ (registry .half).expMax < t.cmd.exponent.toNat ∧ (registry .half).fracMask < u.cmd.fraction.toNat := by decide

theorem witness_UnpackTakesThePatternApart :
    precisionOf .half = some .half ∧ (port { zeros with intIn := 0xFFFF }).cmd.intIn = 0xFFFF ∧ 0xFFFF < 2 ^ (registry .half).n
    ∧ readStr (registry .half) (chars ['0', 'x', 'F', 'F', 'F', 'F']) = .ok 0xFFFF := by decide

theorem witness_UnpackInvertsPack :
    precisionOf .half = some .half
    ∧ exec (.pack .half) (port { zeros with sign := 1, exponent := 31, fraction := 0x3FF }) =
        .next ((port { zeros with sign := 1, exponent := 31, fraction := 0x3FF }).answer (.packed 0xFFFF)) := ⟨rfl, rfl⟩

theorem witness_WideIntegersAreMalformed :
    precisionOf .half = some .half ∧ 2 ^ (registry .half).n - 1 < (portA { zeros with intIn := 0x10000 }).cmd.intIn
    ∧ 2 ^ (registry .half).n - 1 < (portA { zeros with intInB := 0x10000 }).cmd.intInB
    ∧ (portA zeros).build.hasArith = true
    ∧ (port { zeros with intIn := 0xFFFF }).cmd.intIn ≤ 2 ^ (registry .half).n - 1 := by decide

/-- An operand that reads as an error is no pattern. -/
theorem not_pattern {c : PrecisionConfig} {form : OperandForm} {n : Nat} {t : Text} {k : ErrorKind}
    (h : readPattern c form n t = .error k) : ¬ ∃ v, IsPattern c form n t v := by
  rintro ⟨v, hv⟩
  rw [readPattern_eq_ok.mpr hv] at h
  cases h

/-- An operand a that is too wide, one with a value too wide, and an operand b with neither length nor digits of the
precision. -/
theorem witness_UnreadableOperandsAreMalformed :
    let s := portA { zeros with intIn := 0x10000, strIn := chars ['0', 'x', '1', '0', '0', '0', '0'], strInB := chars ['2'] }
    precisionOf .half = some .half ∧ s.build.hasArith = true
    ∧ (¬ ∃ v, IsPattern (registry .half) .int s.cmd.intIn s.cmd.strIn v)
    ∧ (¬ ∃ v, IsPattern (registry .half) .str s.cmd.intIn s.cmd.strIn v)
    ∧ (¬ ∃ v, IsPattern (registry .half) .str s.cmd.intInB s.cmd.strInB v)
    ∧ IsPattern (registry .half) .int s.cmd.intInB s.cmd.strInB 0 :=
  ⟨rfl, rfl, not_pattern (k := .malformedBits) rfl, not_pattern (k := .malformedBits) rfl,
    not_pattern (k := .malformedBits) rfl, readPattern_eq_ok.mp rfl⟩

theorem witness_BinaryStringsAreExact :
    let text := chars ['0', '0', '1', '1', '1', '1', '0', '0', '0', '0', '0', '0', '0', '0', '0', '0']
    (¬ ∃ x ds, text = 0x30 :: x :: ds ∧ (x = 0x78 ∨ x = 0x58)) ∧ readStr (registry .half) text = .ok 0x3C00
    ∧ (¬ ∃ x ds, chars ['3', 'C', '0', '0'] = 0x30 :: x :: ds ∧ (x = 0x78 ∨ x = 0x58))
    ∧ readStr (registry .half) (chars ['3', 'C', '0', '0']) = .error .malformedBits := by
  refine ⟨?_, rfl, ?_, rfl⟩ <;> rintro ⟨x, ds, h, hx⟩
  · obtain rfl : 0x30 = x := (List.cons.inj (List.cons.inj h).2).1
    revert hx; decide
  · exact absurd (List.cons.inj h).1 (by decide)

theorem witness_HexStringsAreBoundedByValue :
    ((0x78 : CharCode) = 0x78 ∨ (0x78 : CharCode) = 0x58) ∧ ((0x58 : CharCode) = 0x78 ∨ (0x58 : CharCode) = 0x58)
    ∧ readStr (registry .half) (0x30 :: 0x58 :: chars ['0', 'f', 'F', 'f', 'F']) = .ok 0xFFFF
    ∧ readStr (registry .half) (0x30 :: 0x78 :: chars ['1', '0', '0', '0', '0']) = .error .malformedBits := by decide

theorem witness_FormatWritesTheStrings :
    precisionOf .half = some .half ∧ (port { zeros with intIn := 0xFFFF }).cmd.intIn = 0xFFFF ∧ 0xFFFF < 2 ^ (registry .half).n
    ∧ readStr (registry .half) (chars ['0', 'x', 'f', 'f', 'f', 'f']) = .ok 0xFFFF := by decide

theorem witness_FormattedStringsReadBack :
    precisionOf .half = some .half
    ∧ exec (.formatInt .half) (port { zeros with intIn := 0xFFFF }) =
        .next ((port { zeros with intIn := 0xFFFF }).answer
          (.formatted 0xFFFF (formatGroup .upper (registry .half) 0xFFFF))) := ⟨rfl, rfl⟩

theorem witness_ClassifyByExponentAndFraction :
    let s := port { zeros with exponent := 31, fraction := 0x3FF }
    let t := port { zeros with exponent := 32 }
    let u := port { zeros with fraction := 0x400 }
    precisionOf .half = some .half
    ∧ (s.cmd.exponent.toNat ≤ (registry .half).expMax ∧ s.cmd.fraction.toNat ≤ (registry .half).fracMask)
    ∧ (registry .half).expMax < t.cmd.exponent.toNat ∧ (registry .half).fracMask < u.cmd.fraction.toNat := by decide

theorem witness_SplitIsFloorAndBits : 0 < ({ num := 13, den := 8 } : Frac).den := by decide

theorem witness_RoundRationalToNearestEven :
    precisionOf .half = some .half ∧ (port { zeros with num := 2047, den := 2 }).cmd.den ≠ 0
    ∧ (port { zeros with num := 2047, den := 2 }).cmd.num / (port { zeros with num := 2047, den := 2 }).cmd.den
        ≤ (registry .half).fracMask := by decide

/-- No rounding up, rounding up below the mask, and the carry-out. -/
theorem witness_RoundPresplitDecision :
    precisionOf .half = some .half
    ∧ (port { zeros with mIn := 1023, gIn := true }).cmd.mIn.toNat ≤ 2 ^ (registry .half).f - 1
    ∧ RoundsUp 1023 true false false ∧ 1023 + 1 = 2 ^ (registry .half).f
    ∧ RoundsUp 1021 true false false ∧ 1021 + 1 < 2 ^ (registry .half).f ∧ ¬ RoundsUp 1022 true false false := by
  simp only [RoundsUp]; decide

theorem witness_RoundOutsideItsDomainIsRefused :
    precisionOf .half = some .half ∧ (port zeros).cmd.den = 0
    ∧ (registry .half).fracMask < (port { zeros with num := 2048, den := 2 }).cmd.num / 2
    ∧ (registry .half).fracMask < (port { zeros with mIn := 1024 }).cmd.mIn.toNat := by decide

theorem witness_FloorLog2IsTheBinaryExponent : 0 < ({ num := 1, den := 3 } : Frac).num ∧ 0 < ({ num := 1, den := 3 } : Frac).den := by
  decide

theorem witness_EncodeZero : precisionOf .half = some .half ∧ (port { zeros with sign := 1 }).cmd.coef = 0 := by decide
theorem witness_EncodeNan : precisionOf .half = some .half ∧ (port { zeros with sign := 1 }).build.wf = true := by decide
theorem witness_InvalidLiteralIsAnnotatedNan : precisionOf .half = some .half ∧ (port zeros).build.wf = true := by decide

/-- The operands of the clauses of ENCODE FINITE, at half: 65519, half the smallest subnormal, the smallest normal, the
lower end of the clamp interval, the overflow threshold. -/
def finite (coef : Nat) (exp10 : Int) : State := port { zeros with coef := coef, exp10 := exp10 }

theorem witness_EncodeRoundsToNearestValue :
    precisionOf .half = some .half ∧ (finite 65519 0).cmd.coef ≠ 0
    ∧ decRat (finite 65519 0).cmd.coef (finite 65519 0).cmd.exp10 < infinityFrom (registry .half)
    ∧ ¬ (clampFrom (registry .half) ≤ decRat (finite 65519 0).cmd.coef (finite 65519 0).cmd.exp10
        ∧ decRat (finite 65519 0).cmd.coef (finite 65519 0).cmd.exp10 < minNormal (registry .half)) := by
  norm_num [precisionOf, finite, port, zeros, decRat, infinityFrom, clampFrom, minNormal, registry]

theorem witness_EncodeClampsInTheInterval :
    precisionOf .half = some .half ∧ (finite (2047 * 5 ^ 25) (-25)).cmd.coef ≠ 0
    ∧ clampFrom (registry .half) ≤ decRat (finite (2047 * 5 ^ 25) (-25)).cmd.coef (finite (2047 * 5 ^ 25) (-25)).cmd.exp10
    ∧ decRat (finite (2047 * 5 ^ 25) (-25)).cmd.coef (finite (2047 * 5 ^ 25) (-25)).cmd.exp10 < minNormal (registry .half)
    ∧ ¬ decRat (finite (5 ^ 14) (-14)).cmd.coef (finite (5 ^ 14) (-14)).cmd.exp10 < minNormal (registry .half) := by
  norm_num [precisionOf, finite, port, zeros, decRat, clampFrom, minNormal, registry]

/-- The first operand of each of the four ranges (for the second: just above its open end). -/
theorem witness_EncodeClassByMagnitude :
    precisionOf .half = some .half ∧ (finite 1 (-8)).cmd.coef ≠ 0
    ∧ decRat (5 ^ 25) (-25) ≤ halfMinSubnormal (registry .half)
    ∧ halfMinSubnormal (registry .half) < decRat (5 ^ 25 + 1) (-25) ∧ decRat (5 ^ 25 + 1) (-25) < minNormal (registry .half)
    ∧ minNormal (registry .half) ≤ decRat (5 ^ 14) (-14) ∧ decRat (5 ^ 14) (-14) < infinityFrom (registry .half)
    ∧ infinityFrom (registry .half) ≤ decRat 65520 0 := by
  norm_num [precisionOf, finite, port, zeros, decRat, halfMinSubnormal, minNormal, infinityFrom, registry]

theorem witness_EncodeReportsItsRounding : precisionOf .half = some .half ∧ (finite 1 (-1)).cmd.coef ≠ 0 := by decide

/-- An exact and an inexact conversion, neither to infinity. -/
theorem witness_EncodeBitsTellExactness :
    precisionOf .half = some .half ∧ (finite 15 (-1)).cmd.coef ≠ 0
    ∧ (ask false (.encodeFinite .half 0 15 (-1))).bind Response.cls? = some .normal
    ∧ (ask false (.encodeFinite .half 0 1 (-1))).bind Response.cls? = some .normal := by decide

theorem witness_EncodeThenDecode :
    precisionOf .half = some .half ∧ (port zeros).build.wf = true
    ∧ (Instr.encodeNan .half = .encodeFinite .half ∨ Instr.encodeNan .half = .encodeInf .half
        ∨ Instr.encodeNan .half = .encodeNan .half ∨ Instr.encodeNan .half = .encodeInvalid .half) := by decide

/-- The smallest subnormal. -/
theorem witness_DecodeThenEncode :
    precisionOf .half = some .half
    ∧ exec (.decodeInt .half) (port { zeros with intIn := 1 }) =
        .next ((port { zeros with intIn := 1 }).answer (.decoded (decodePattern .upper (registry .half) 1)))
    ∧ (decodePattern .upper (registry .half) 1).cls.isFinite := ⟨rfl, rfl, .inr (.inl rfl)⟩

theorem witness_EncoderLawsHold : (port zeros).build.wf = true := by decide

theorem witness_EncodeIsMonotone :
    precisionOf .half = some .half ∧ (finite 0 0).cmd.sign = 0 ∧ (finite 65520 0).cmd.sign = 0
    ∧ decRat (finite 0 0).cmd.coef (finite 0 0).cmd.exp10 ≤ decRat (finite 65520 0).cmd.coef (finite 65520 0).cmd.exp10 := by
  norm_num [precisionOf, finite, port, zeros, Command.ofWord, decRat]

theorem witness_DecodeGivesTheValue :
    precisionOf .half = some .half ∧ (port { zeros with intIn := 0xFFFF }).cmd.intIn = 0xFFFF ∧ 0xFFFF < 2 ^ (registry .half).n
    ∧ readStr (registry .half) (chars ['0', 'x', 'F', 'C', '0', '0']) = .ok 0xFC00 := by decide

theorem witness_DecodedDecimalIsExactAndShortest :
    precisionOf .half = some .half ∧ (port { zeros with intIn := 0x2E66 }).cmd.intIn < 2 ^ (registry .half).n
    ∧ (decodePattern .upper (registry .half) 0x2E66).value.decExp10 < 0
    ∧ (decodePattern .upper (registry .half) 0x7C00).cls = .infinity := by decide

/-- Both forms, with a pattern of each class. -/
theorem witness_DecodedValueRanges :
    precisionOf .half = some .half ∧ (port { zeros with intIn := 0x7BFF }).cmd.intIn = 0x7BFF ∧ 0x7BFF < 2 ^ (registry .half).n
    ∧ readStr (registry .half) (chars ['0', 'x', '3', 'f', 'f']) = .ok 0x03FF
    ∧ (decodePattern .upper (registry .half) 0x03FF).cls = .subnormal
    ∧ (decodePattern .upper (registry .half) 0x7BFF).cls = .normal
    ∧ (decodePattern .upper (registry .half) 0x8000).cls = .zero
    ∧ (decodePattern .upper (registry .half) 0xFC00).cls = .infinity
    ∧ (decodePattern .upper (registry .half) 0x7C01).cls = .nan := by decide

/-- A CodecResult of each of the three kinds of response. -/
theorem witness_CodecResultsCarryTheirValueAndStrings :
    (port zeros).build.wf = true ∧ (portA zeros).build.wf = true ∧ precisionOf (Instr.encodeNan .half).prec = some .half
    ∧ exec (.encodeNan .half) (port zeros) = .next ((port zeros).answer (.encoded
        { inSign := 0, inKind := .nan, inMagnitude := none } (encodeOperand (port zeros).build .half .nan)))
    ∧ exec (.decodeInt .half) (port zeros) =
        .next ((port zeros).answer (.decoded (decodePattern .upper (registry .half) 0)))
    ∧ exec (.fpAdd .half .int .int) (portA zeros) =
        .next ((portA zeros).answer (arithResponse .add (portA zeros).build .half 0 0))
    ∧ (arithResponse .add (portA zeros).build .half 0 0).codec?.isSome = true := by
  refine ⟨by decide, by decide, rfl, rfl, rfl, rfl, rfl⟩

/-- The largest finite number under infinity, and two finite numbers. -/
theorem witness_PatternOrderIsValueOrder :
    let s := port { zeros with intIn := 0x7BFF }
    let t := port { zeros with intIn := 0x7C00 }
    precisionOf .half = some .half ∧ s.cmd.intIn < t.cmd.intIn ∧ t.cmd.intIn < 2 ^ ((registry .half).n - 1)
    ∧ (decodePattern .upper (registry .half) 0x7BFF).cls = .normal
    ∧ (decodePattern .upper (registry .half) 0x7C00).cls = .infinity := by decide

theorem witness_ArithmeticAbsentIsIllegal : (port zeros).build.hasArith = false := by decide

/-- Readable operands of both forms. -/
def operands (a b : Nat) : State := portA { zeros with intIn := a, intInB := b, strInB := chars ['0', 'x', '1'] }

theorem witness_ArithmeticAnswers :
    precisionOf .half = some .half ∧ (operands 0x3C00 0).build.hasArith = true ∧ (operands 0x3C00 0).build.wf = true
    ∧ readPattern (registry .half) .int (operands 0x3C00 0).cmd.intIn (operands 0x3C00 0).cmd.strIn = .ok 0x3C00
    ∧ readPattern (registry .half) .str (operands 0x3C00 0).cmd.intInB (operands 0x3C00 0).cmd.strInB = .ok 1
    ∧ (Instr.fpAdd .half .int .str = .fpAdd .half .int .str ∨ Instr.fpAdd .half .int .str = .fpMultiply .half .int .str) := by
  decide

/-- Operands of every class, for the clauses of the special results: NaN, both infinities, both zeros, a subnormal and two
opposite normals; and the hypotheses the clauses share. -/
theorem witness_AddSpecialResults :
    precisionOf .half = some .half ∧ (operands 0x7C00 0xFC00).build.hasArith = true ∧ (operands 0x7C00 0xFC00).build.wf = true
    ∧ readPattern (registry .half) .int (operands 0x7C00 0xFC00).cmd.intIn (operands 0x7C00 0xFC00).cmd.strIn = .ok 0x7C00
    ∧ readPattern (registry .half) .int (operands 0x7C00 0xFC00).cmd.intInB (operands 0x7C00 0xFC00).cmd.strInB = .ok 0xFC00
    ∧ (decodePattern .upper (registry .half) 0x7C01).cls = .nan
    ∧ (decodePattern .upper (registry .half) 0x7C00).cls = .infinity
    ∧ (decodePattern .upper (registry .half) 0xFC00).cls = .infinity
    ∧ (decodePattern .upper (registry .half) 0x7C00).fields.sign ≠ (decodePattern .upper (registry .half) 0xFC00).fields.sign
    ∧ (decodePattern .upper (registry .half) 0x8000).cls = .zero
    ∧ (decodePattern .upper (registry .half) 0x3C00).cls = .normal ∧ Precision.half ≠ .quad := by decide

/-- A sum of two finite numbers that is zero: of two zeros, and by cancellation. -/
theorem witness_AddSpecialResults_zero :
    (decodePattern .upper (registry .half) 0x8000).value.real + (decodePattern .upper (registry .half) 0x8000).value.real = 0
    ∧ (decodePattern .upper (registry .half) 0x3C00).value.real + (decodePattern .upper (registry .half) 0xBC00).value.real = 0 := by
  have e1 : (decodePattern .upper (registry .half) 0x8000).value = ⟨.finite, 1, 0, 0, 0, 0⟩ := by decide
  have e2 : (decodePattern .upper (registry .half) 0x3C00).value = ⟨.finite, 0, 1024, -10, 1, 0⟩ := by decide
  have e3 : (decodePattern .upper (registry .half) 0xBC00).value = ⟨.finite, 1, 1024, -10, 1, 0⟩ := by decide
  rw [e1, e2, e3]
  norm_num [ValueGroup.real, ValueGroup.magnitude, show BitVec.toNat (1024 : BitVec 113) = 1024 from rfl,
    show BitVec.toNat (0 : Bit) = 0 from rfl, show BitVec.toNat (1 : Bit) = 1 from rfl]

theorem witness_MultiplySpecialResults :
    precisionOf .half = some .half ∧ (operands 0x7C00 0x8000).build.hasArith = true ∧ (operands 0x7C00 0x8000).build.wf = true
    ∧ readPattern (registry .half) .int (operands 0x7C00 0x8000).cmd.intIn (operands 0x7C00 0x8000).cmd.strIn = .ok 0x7C00
    ∧ readPattern (registry .half) .int (operands 0x7C00 0x8000).cmd.intInB (operands 0x7C00 0x8000).cmd.strInB = .ok 0x8000
    ∧ (decodePattern .upper (registry .half) 0x7C01).cls = .nan
    ∧ (decodePattern .upper (registry .half) 0x7C00).cls = .infinity
    ∧ (decodePattern .upper (registry .half) 0x8000).cls = .zero
    ∧ (decodePattern .upper (registry .half) 0x0001).cls = .subnormal
    ∧ (decodePattern .upper (registry .half) 0x3C00).cls = .normal ∧ Precision.half ≠ .quad := by decide

/-- A product of two finite numbers that is zero. -/
theorem witness_MultiplySpecialResults_zero :
    (decodePattern .upper (registry .half) 0x8000).value.real * (decodePattern .upper (registry .half) 0x3C00).value.real = 0 := by
  have e1 : (decodePattern .upper (registry .half) 0x8000).value = ⟨.finite, 1, 0, 0, 0, 0⟩ := by decide
  rw [e1]
  norm_num [ValueGroup.real, ValueGroup.magnitude]

/-- The largest finite double with itself: the exact sum and product are not zero and lie above the threshold; 1.0 with
itself lies below. -/
theorem witness_DoubleArithmeticRoundsOnce :
    (operands 0x7FEFFFFFFFFFFFFF 0x7FEFFFFFFFFFFFFF).build.hasArith = true
    ∧ (operands 0x7FEFFFFFFFFFFFFF 0x7FEFFFFFFFFFFFFF).build.wf = true
    ∧ readPattern (registry .double) .int (operands 0x7FEFFFFFFFFFFFFF 1).cmd.intIn [] = .ok 0x7FEFFFFFFFFFFFFF
    ∧ readPattern (registry .double) .int (operands 1 0x7FEFFFFFFFFFFFFF).cmd.intInB [] = .ok 0x7FEFFFFFFFFFFFFF
    ∧ (decodePattern .upper (registry .double) 0x7FEFFFFFFFFFFFFF).cls.isFinite
    ∧ (decodePattern .upper (registry .double) 0x3FF0000000000000).cls.isFinite :=
  ⟨rfl, by decide, by decide, by decide, .inr (.inr (by decide)), .inr (.inr (by decide))⟩

theorem witness_DoubleArithmeticRoundsOnce_ranges :
    let A := decodePattern .upper (registry .double) 0x7FEFFFFFFFFFFFFF
    let B := decodePattern .upper (registry .double) 0x3FF0000000000000
    A.value.real + A.value.real ≠ 0 ∧ infinityFrom (registry .double) ≤ |A.value.real + A.value.real|
    ∧ B.value.real * B.value.real ≠ 0 ∧ |B.value.real * B.value.real| < infinityFrom (registry .double) := by
  intro A B
  have a1 : A.value.sign.toNat = 0 ∧ A.value.sig.toNat = 0x1FFFFFFFFFFFFF ∧ A.value.exp2.toInt = 971 := by decide
  have b1 : B.value.sign.toNat = 0 ∧ B.value.sig.toNat = 0x10000000000000 ∧ B.value.exp2.toInt = -52 := by decide
  have a2 : A.value.real = 0x1FFFFFFFFFFFFF * 2 ^ (971 : ℤ) := by
    rw [ValueGroup.real, ValueGroup.magnitude, a1.1, a1.2.1, a1.2.2]; norm_num
  have b2 : B.value.real = 1 := by
    rw [ValueGroup.real, ValueGroup.magnitude, b1.1, b1.2.1, b1.2.2]; norm_num
  rw [a2, b2]
  norm_num [infinityFrom, registry, abs_of_pos]
  have h : (1 : ℚ) ≤ 2 ^ 970 := one_le_pow₀ (by norm_num)
  rw [show (2 : ℚ) ^ 971 = 2 * 2 ^ 970 from pow_succ' 2 970]
  generalize (2 : ℚ) ^ 970 = y at h
  constructor <;> linarith

/-- 1.0 with itself at half: the sum and the product are not zero and lie below the threshold. -/
theorem witness_ArithmeticEncodesTheHostResult :
    let s := operands 0x3C00 0x3C00
    let A := decodePattern s.build.hexOutCase (registry .half) 0x3C00
    precisionOf .half = some .half ∧ Precision.half ≠ .quad ∧ s.build.hasArith = true ∧ s.build.wf = true
    ∧ readPattern (registry .half) .int s.cmd.intIn s.cmd.strIn = .ok 0x3C00
    ∧ readPattern (registry .half) .int s.cmd.intInB s.cmd.strInB = .ok 0x3C00
    ∧ A.cls.isFinite
    ∧ A.value.real + A.value.real ≠ 0 ∧ |A.value.real + A.value.real| < infinityFrom (registry .double)
    ∧ A.value.real * A.value.real ≠ 0 ∧ |A.value.real * A.value.real| < infinityFrom (registry .double) := by
  intro s A
  have e : A.value = ⟨.finite, 0, 1024, -10, 1, 0⟩ := by decide
  have a : A.value.real = 1 := by
    rw [e]
    norm_num [ValueGroup.real, ValueGroup.magnitude, show BitVec.toNat (1024 : BitVec 113) = 1024 from rfl,
      show BitVec.toNat (0 : Bit) = 0 from rfl, show BitVec.toInt (-10 : Exp2Port) = -10 by decide]
  have h : (1 : ℚ) ≤ 2 ^ 970 := one_le_pow₀ (by norm_num)
  refine ⟨rfl, by decide, rfl, by decide, by decide, by decide, .inr (.inr (by decide)), ?_⟩
  rw [a]
  norm_num [infinityFrom, registry]
  generalize (2 : ℚ) ^ 970 = y at h
  constructor <;> linarith

end Sys2Proof.Tests
end

section
/-! PROOFS. The binary exponent of a positive rational (`00_scope.md` R10). -/
namespace Sys2Proof.Machine

/-- The lower end of one binary bracket of `r` lies below the upper end of any other. -/
theorem exponent_le_of_brackets {r : ℚ} {a b : ℤ} (ha : (2 : ℚ) ^ a ≤ r) (hb : r < (2 : ℚ) ^ (b + 1)) : a ≤ b := by
  have hlt : (2 : ℚ) ^ a < (2 : ℚ) ^ (b + 1) := ha.trans_lt hb
  exact Int.lt_add_one_iff.mp ((zpow_lt_zpow_iff_right₀ one_lt_two).mp hlt)

/-- Settles O33: `floorLog2_spec` says that the computed exponent brackets `x`, and two exponents that bracket one
number are each at most the other. -/
theorem floorLog2IsTheBinaryExponent : Obligations.FloorLog2IsTheBinaryExponent := by
  intro x e hnum hden
  obtain ⟨hlow, hhigh⟩ := floorLog2_spec hnum hden
  constructor
  · rintro rfl
    exact ⟨hlow, hhigh⟩
  · rintro ⟨elow, ehigh⟩
    exact le_antisymm (exponent_le_of_brackets hlow ehigh) (exponent_le_of_brackets elow hhigh)

end Sys2Proof.Machine
end

section
/-! PROOFS. The response of a command (`10_state.md` R20), and the numbers of classes and statuses (R28, R220). -/
namespace Sys2Proof.Machine

/-- An instruction outside the build is answered `ERR_ILLEGAL_COMMAND` (R54). -/
theorem exec_not_wf {i : Instr} {s : State} (hw : i.wf s.build = false) :
    exec i s = .next (s.answer (.error .illegalCommand)) := by
  rw [exec_eq, if_neg (ne_true_of_eq_false hw), fail_eq_answer]

/-- An instruction of the build with an unrecognized precision is answered `ERR_UNKNOWN_PRECISION` (R83). -/
theorem exec_unrecognized {i : Instr} {s : State} (hw : i.wf s.build = true) (hp : precisionOf i.prec = none) :
    exec i s = .next (s.answer (.error .unknownPrecision)) := by
  rw [exec_eq, if_pos hw, withPrecision_none hp, fail_eq_answer]

/-- An instruction answers alike in two states that have one build and one command on the port: `exec_cases` decides by
the build and the precision code alone, and `opResponse` reads nothing else. -/
theorem exec_answers_alike (i : Instr) {s t : State} (hb : s.build = t.build) (hc : s.cmd = t.cmd) :
    ∃ r, exec i s = .next (s.answer r) ∧ exec i t = .next (t.answer r) := by
  rcases exec_cases i s with ⟨hw, hs⟩ | ⟨hw, hp, hs⟩ | ⟨hw, q, hp, hs⟩ <;> rw [hb] at hw
  · exact ⟨_, hs, exec_not_wf hw⟩
  · exact ⟨_, hs, exec_unrecognized hw hp⟩
  · rw [opResponse_congr hb hc] at hs
    exact ⟨_, hs, exec_recognized hw hp⟩

/-- Settles O8: the word alone decides whether the command is illegal or which instruction runs, and an instruction
answers alike once both states have taken the command (`exec_answers_alike`). -/
theorem responseIsAFunctionOfTheCommand : Obligations.ResponseIsAFunctionOfTheCommand := by
  intro s t c rs rt hb hs ht
  cases hd : decode c.word with
  | error e => exact ⟨_, step_illegal hs hd, step_illegal ht hd⟩
  | ok i =>
    rw [step_exec hs hd, step_exec ht hd]
    exact exec_answers_alike i (s := s.take c rs) (t := t.take c rt) hb rfl

theorem errorKind_code_ne_zero (k : ErrorKind) : k.code ≠ 0 := by
  cases k <;> decide

theorem errorKind_code_le (k : ErrorKind) : k.code.toNat ≤ 4 := by
  cases k <;> decide

theorem status_of_not_error {r : Response} (h : ¬ ∃ k, r = .error k) : r.status = 0 := by
  cases r with
  | error k => exact absurd ⟨k, rfl⟩ h
  | _ => rfl

theorem status_eq_zero_iff (r : Response) : r.status = 0 ↔ ¬ ∃ k, r = .error k := by
  constructor
  · rintro h0 ⟨k, rfl⟩
    exact errorKind_code_ne_zero k h0
  · exact status_of_not_error

theorem status_le (r : Response) : r.status.toNat ≤ 4 := by
  by_cases h : ∃ k, r = .error k
  · obtain ⟨k, rfl⟩ := h
    exact errorKind_code_le k
  · rw [status_of_not_error h]
    decide

theorem class_cases (k : Class) : k = .zero ∨ k = .subnormal ∨ k = .normal ∨ k = .infinity ∨ k = .nan := by
  cases k <;> decide

/-- Settles O14: the status of a response is 0 or an error's code, which lies between 1 and 4; the single numbers are
those the definitions of `ErrorKind.code` and `Class.code` list. -/
theorem statusAndClassCodes : Obligations.StatusAndClassCodes :=
  ⟨status_eq_zero_iff, rfl, rfl, rfl, rfl, rfl, rfl, rfl, rfl, rfl, class_cases, errorKind_code_le, status_le⟩

end Sys2Proof.Machine
end

section
/-! PROOFS. The illegal words (`30_encoding.md` R54): a word without an instruction, or with one the build has not. -/
namespace Sys2Proof.Machine

/-- The `op` field by arithmetic on the word's number, as R54's list takes it (R50). -/
theorem opField_toNat (w : Word) : (opField w).toNat = w.toNat / 2 ^ 12 := by
  have hw := w.isLt
  simp only [opField, BitVec.extractLsb'_toNat, Nat.shiftRight_eq_div_pow]
  omega

theorem kindField_toNat (w : Word) : (kindField w).toNat = w.toNat / 2 ^ 7 % 2 ^ 2 := by
  simp only [kindField, BitVec.extractLsb'_toNat, Nat.shiftRight_eq_div_pow]

theorem rsvField_eq_zero_iff (w : Word) : rsvField w = 0 ↔ w.toNat % 2 ^ 7 = 0 := by
  rw [← BitVec.toNat_inj]
  simp [rsvField, BitVec.extractLsb'_toNat]

/-- A word that spells no instruction is on R54's list, whatever the build: a reserved bit is set, or its `op` and
`kind` are no row of the decoder's table. -/
theorem illegalWord_of_decode_error {w : Word} {e : DecodeError} (hd : decode w = .error e) (hasArith : Bool) :
    IllegalWord hasArith w := by
  unfold decode at hd
  split at hd
  case isTrue hrsv => exact .inl fun h0 => hrsv ((rsvField_eq_zero_iff w).mpr h0)
  case isFalse =>
    simp only [opField_toNat, kindField_toNat] at hd
    split at hd
    case h_18 =>
      have hkind : w.toNat / 2 ^ 7 % 2 ^ 2 < 4 := Nat.mod_lt _ (by decide)
      unfold IllegalWord
      generalize w.toNat / 2 ^ 12 = op, w.toNat / 2 ^ 7 % 2 ^ 2 = kind at *
      split at hd
      case isTrue hrange =>
        -- A row of the table with a `kind` that it does not list.
        obtain ⟨hlow, hhigh⟩ := hrange
        interval_cases op <;> grind
      case isFalse => omega
    all_goals cases hd

/-- The word of an instruction is illegal exactly when the build lacks the Arithmetic Layer it belongs to. -/
theorem illegalWord_iff_of_decode_ok {w : Word} {i : Instr} (hd : decode w = .ok i) (hasArith : Bool) :
    IllegalWord hasArith w ↔ i.isArith = true ∧ hasArith = false := by
  unfold decode at hd
  split at hd
  case isTrue => cases hd
  case isFalse hrsv =>
    have hzero := (rsvField_eq_zero_iff w).mp (not_not.mp hrsv)
    simp only [opField_toNat, kindField_toNat] at hd
    split at hd
    case h_18 => split at hd <;> cases hd
    all_goals
      cases hd
      simp_all [IllegalWord, Instr.isArith]

/-- An instruction is answered `ERR_ILLEGAL_COMMAND` only for want of the layer: no rule ends in that error itself. -/
theorem exec_illegal_iff (i : Instr) (s : State) :
    exec i s = .next (s.fail .illegalCommand) ↔ i.wf s.build = false := by
  rw [fail_eq_answer]
  constructor
  · intro h
    rcases exec_cases i s with ⟨hw, -⟩ | ⟨-, -, he⟩ | ⟨-, q, -, he⟩
    · exact hw
    · rw [he, next_answer_inj] at h
      cases h
    · rw [he, next_answer_inj] at h
      rcases opResponse_error i s q _ h with hk | hk <;> cases hk
  · exact exec_not_wf

theorem instr_wf_eq_false_iff (b : Build) (i : Instr) : i.wf b = false ↔ i.isArith = true ∧ b.hasArith = false := by
  simp [Instr.wf]

/-- Settles O4: a word without an instruction is answered `ERR_ILLEGAL_COMMAND` and is on the list; a word with one is
on the list, and so answered, exactly when the build has not the layer the instruction belongs to. -/
theorem illegalCommandExactlyForIllegalWords : Obligations.IllegalCommandExactlyForIllegalWords := by
  intro s c rest hs
  cases hd : decode c.word with
  | error e => exact iff_of_true (step_illegal hs hd) (illegalWord_of_decode_error hd _)
  | ok i =>
    rw [step_exec hs hd, illegalWord_iff_of_decode_ok hd, ← instr_wf_eq_false_iff]
    exact exec_illegal_iff i (s.take c rest)

end Sys2Proof.Machine
end

section
/-! PROOFS. Operands that are no pattern: integers above `2^N - 1` (`30_encoding.md` R56), and the instructions that read
a malformed operand (`41_packer.md` R93). -/
namespace Sys2Proof.Machine

/-- An integer is read as itself up to `2^N - 1` (R56). -/
theorem readInt_of_le {c : PrecisionConfig} {v : Nat} (hv : v ≤ 2 ^ c.n - 1) : readInt c v = .ok v := by
  have hpos : 0 < 2 ^ c.n := Nat.two_pow_pos _
  rw [readInt_eq, if_pos (by omega)]

/-- A wider integer is malformed (R56). -/
theorem readInt_of_lt {c : PrecisionConfig} {v : Nat} (hv : 2 ^ c.n - 1 < v) : readInt c v = .error .malformedBits := by
  rw [readInt_eq, if_neg (by omega)]

variable {s : State} {p : PrecCode} {q : Precision}

/-- An instruction of the build whose rule ends in an error fails with that error. -/
theorem exec_fail_of_opResponse {i : Instr} {k : ErrorKind} (hw : i.wf s.build = true) (hq : precisionOf i.prec = some q)
    (hr : opResponse i s q = .error k) : exec i s = .next (s.fail k) := by
  rw [exec_recognized hw hq, hr, fail_eq_answer]

/-- One malformed operand spoils an operation of the Arithmetic Layer, whatever the other operand is: a malformed operand
a ends it at once, and a readable one leaves it to operand b (R207). -/
theorem arithOn_malformed {a b : OperandForm} (op : ArithOp)
    (h : readPattern (registry q) a s.cmd.intIn s.cmd.strIn = .error .malformedBits
      ∨ readPattern (registry q) b s.cmd.intInB s.cmd.strInB = .error .malformedBits) :
    arithOn op a b s q = .error .malformedBits := by
  unfold arithOn
  cases ha : readPattern (registry q) a s.cmd.intIn s.cmd.strIn with
  | error k => rw [readPattern_error ha, onPattern_error]
  | ok va =>
    rw [ha] at h
    rw [onPattern_ok, h.resolve_left (by simp), onPattern_error]

/-- The same for the two instructions of the layer, in a build that has it. -/
theorem exec_arith_malformed {a b : OperandForm} (hq : precisionOf p = some q) (hb : s.build.hasArith = true)
    (h : readPattern (registry q) a s.cmd.intIn s.cmd.strIn = .error .malformedBits
      ∨ readPattern (registry q) b s.cmd.intInB s.cmd.strInB = .error .malformedBits) :
    exec (.fpAdd p a b) s = .next (s.fail .malformedBits)
      ∧ exec (.fpMultiply p a b) s = .next (s.fail .malformedBits) := by
  constructor
  · exact exec_fail_of_opResponse (by simp [Instr.wf, hb]) hq (arithOn_malformed .add h)
  · exact exec_fail_of_opResponse (by simp [Instr.wf, hb]) hq (arithOn_malformed .multiply h)

/-- UNPACK, FORMAT and DECODE fail with the error that reading their integer ends in. -/
theorem exec_int_malformed (hq : precisionOf p = some q) (h : readInt (registry q) s.cmd.intIn = .error .malformedBits) :
    exec (.unpackInt p) s = .next (s.fail .malformedBits) ∧ exec (.formatInt p) s = .next (s.fail .malformedBits)
      ∧ exec (.decodeInt p) s = .next (s.fail .malformedBits) := by
  refine ⟨?_, ?_, ?_⟩ <;>
    exact exec_fail_of_opResponse rfl hq (by rw [opResponse, readPattern, h, onPattern_error])

/-- Settles O23: reading the integer decides (`readInt_of_lt`, `readInt_of_le`), and every instruction that reads it hands
its failure on. -/
theorem wideIntegersAreMalformed : Obligations.WideIntegersAreMalformed := by
  intro s p q hq
  refine ⟨fun hwide => ?_, fun hwide hb form => ?_, readInt_of_le⟩
  · have hread := readInt_of_lt hwide
    obtain ⟨hunpack, hformat, hdecode⟩ := exec_int_malformed hq hread
    exact ⟨hunpack, hformat, hdecode, fun hb form => exec_arith_malformed hq hb (.inl hread)⟩
  · exact exec_arith_malformed hq hb (.inr (readInt_of_lt hwide))

end Sys2Proof.Machine
end

section
/-! PROOFS. The registry (`40_registry.md`): the constant table (R81, R82) and the failed lookup (R83). -/
namespace Sys2Proof.Machine

/-- `ERR_UNKNOWN_PRECISION` comes from the failed lookup alone: a recognized precision leaves the answer to the
instruction's own rule, which has no such error (R83, R220). -/
theorem exec_unknownPrecision_iff {i : Instr} {s : State} (hw : i.wf s.build = true) :
    exec i s = .next (s.fail .unknownPrecision) ↔ precisionOf i.prec = none := by
  rw [fail_eq_answer]
  refine ⟨fun h => ?_, exec_unrecognized hw⟩
  cases hq : precisionOf i.prec with
  | none => rfl
  | some q =>
    rw [exec_recognized hw hq, next_answer_inj] at h
    rcases opResponse_error i s q _ h with hk | hk <;> cases hk

/-- Settles O6: the error comes exactly from a failed lookup, and the lookup fails exactly for the codes 4 to 7. -/
theorem unknownPrecisionForEveryInstruction : Obligations.UnknownPrecisionForEveryInstruction :=
  fun i _ hw => (exec_unknownPrecision_iff hw).trans (precisionOf_eq_none i.prec)

/-- Each of the eight precision codes stands for its own three bits (R52). -/
theorem precCode_toBits_ofBits (b : BitVec 3) : (PrecCode.ofBits b).toBits = b := by
  revert b
  decide

/-- No other code than the four names finds a row (R52). -/
theorem precisionOf_ofBits_eq_none {b : BitVec 3} (hb : 4 ≤ b.toNat) : precisionOf (PrecCode.ofBits b) = none := by
  rwa [precisionOf_eq_none, precCode_toBits_ofBits]

/-- A row with these facts passes every check of R82; the bias is half of the exponents because `eb` is not 0. -/
theorem RowFacts.wf {c : PrecisionConfig} (h : RowFacts c) : c.wf = true := by
  have hn := h.n_eq
  have hmod := h.n_mod
  have hfrac := h.fracMask_eq
  have hexp := h.expMax_eq
  have hbias := h.bias_eq
  have heb : c.eb ≠ 0 := by
    intro h0
    rw [h0] at hexp
    have := h.expMax_ge
    omega
  have hhalf : 2 ^ c.eb = 2 ^ (c.eb - 1) * 2 := (Nat.pow_pred_mul (Nat.pos_of_ne_zero heb)).symm
  simp only [PrecisionConfig.wf, Bool.and_eq_true, beq_iff_eq]
  omega

/-- Settles O18: the codes and the columns are those the two tables list; the relations of the columns are
`registry_facts`. -/
theorem registryTable : Obligations.RegistryTable := by
  refine ⟨rfl, rfl, rfl, rfl, fun _ => precisionOf_ofBits_eq_none, rfl, rfl, rfl, rfl, fun q => ?_⟩
  have h := registry_facts q
  exact ⟨h.wf, h.bias_eq, by rw [h.two_pow_n, Nat.mul_assoc]⟩

end Sys2Proof.Machine
end

section
/-! PROOFS. The operands of the packer: which strings and integers are patterns and as what they are read (`41_packer.md`
R93 to R95, R222), and what FORMAT writes of one (R97, R98). -/
namespace Sys2Proof.Machine

variable {c : PrecisionConfig} {s : State} {q : Precision}

/-! ### Reading a string -/

/-- Without a mark a string is read as binary (R57). -/
theorem readStr_eq_readBinary {text : Text}
    (hmark : ¬ ∃ x digits, text = 0x30 :: x :: digits ∧ (x = 0x78 ∨ x = 0x58)) :
    readStr c text = readBinary c text := by
  rw [readStr, hexDigitsOf?_none hmark]

/-- With a mark, what follows it is read as hexadecimal (R57). -/
theorem readStr_eq_readHex {x : CharCode} {digits : Text} (hx : x = 0x78 ∨ x = 0x58) :
    readStr c (0x30 :: x :: digits) = readHex c digits := by
  rw [readStr, hexDigitsOf?_mark hx]

/-- Reading a string can fail in one way only (R222). -/
theorem readStr_error {text : Text} {k : ErrorKind} (h : readStr c text = .error k) : k = .malformedBits :=
  readPattern_error (form := .str) (n := 0) h

/-- Settles O24: the missing mark sends the string to `readBinary`, and `readBinary_eq_ok` says what that reads. -/
theorem binaryStringsAreExact : Obligations.BinaryStringsAreExact := by
  intro q text hmark
  refine ⟨fun v => ?_, fun k => readStr_error⟩
  rw [readStr_eq_readBinary hmark]
  exact readBinary_eq_ok

/-- Settles O25: the mark sends the digits to `readHex`, and `readHex_eq_ok` says what that reads; its bound `v < 2^N`
is the claim's `v ≤ 2^N - 1`. -/
theorem hexStringsAreBoundedByValue : Obligations.HexStringsAreBoundedByValue := by
  intro q x digits hx
  refine ⟨fun v => ?_, fun k => readStr_error⟩
  rw [readStr_eq_readHex hx, readHex_eq_ok, Nat.le_sub_one_iff_lt (Nat.two_pow_pos _)]
  exact and_congr_right fun _ => and_comm

/-! ### Unreadable operands -/

/-- An instruction of the build that begins by reading a pattern fails on an operand that is none (R93). -/
theorem exec_of_not_isPattern {i : Instr} {form : OperandForm} {n : Nat} {text : Text} {op : Nat → Response}
    (hw : i.wf s.build = true) (hq : precisionOf i.prec = some q)
    (hop : opResponse i s q = onPattern (readPattern (registry q) form n text) op)
    (hread : ¬ ∃ v, IsPattern (registry q) form n text v) : exec i s = .next (s.fail .malformedBits) :=
  exec_fail_of_opResponse hw hq (by rw [hop, readPattern_eq_error hread, onPattern_error])

/-- Settles O57: `readPattern_eq_ok` says which operands are read; on any other UNPACK, FORMAT and DECODE fail by
`exec_of_not_isPattern`, and the Arithmetic Layer by `exec_arith_malformed`, whichever operand it is. -/
theorem unreadableOperandsAreMalformed : Obligations.UnreadableOperandsAreMalformed := by
  refine ⟨fun q form n text v => readPattern_eq_ok, fun s p q hq => ⟨fun hint => ?_, fun hstr => ?_, ?_⟩⟩
  · exact ⟨exec_of_not_isPattern rfl hq rfl hint, exec_of_not_isPattern rfl hq rfl hint,
      exec_of_not_isPattern rfl hq rfl hint⟩
  · exact ⟨exec_of_not_isPattern rfl hq rfl hstr, exec_of_not_isPattern rfl hq rfl hstr,
      exec_of_not_isPattern rfl hq rfl hstr⟩
  · exact fun hb a b hab =>
      exec_arith_malformed hq hb (hab.imp readPattern_eq_error readPattern_eq_error)

/-! ### FORMAT -/

/-- FORMAT in either form: an instruction whose rule formats a readable operand answers the pattern and its strings. -/
theorem exec_format_answers {i : Instr} {form : OperandForm} {n v : Nat} {text : Text}
    (hw : i.wf s.build = true) (hq : precisionOf i.prec = some q)
    (hop : opResponse i s q =
      onPattern (readPattern (registry q) form n text) (formatResponse s.build.hexOutCase (registry q)))
    (hread : readPattern (registry q) form n text = .ok v) :
    ∃ b g, exec i s = .next (s.answer (.formatted b g)) ∧ b.toNat = v
      ∧ StringsFit s.build.hexOutCase (registry q) v g := by
  have hrow := registry_facts q
  refine ⟨bitsPort v, formatGroup s.build.hexOutCase (registry q) v, ?_, bitsPort_toNat hrow (readPattern_lt hread),
    formatGroup_stringsFit hrow _ v⟩
  rw [exec_recognized hw hq, hop, hread, onPattern_ok, formatResponse]

/-- Settles O26: both forms read a pattern and format it, so `exec_format_answers` serves both; the integer is read as
itself because it is below `2^N`. -/
theorem formatWritesTheStrings : Obligations.FormatWritesTheStrings := by
  intro s p q v hq
  constructor
  · rintro rfl hlt
    exact exec_format_answers (form := .int) (text := s.cmd.strIn) rfl hq rfl (readInt_of_le (Nat.le_sub_one_of_lt hlt))
  · intro hread
    exact exec_format_answers (form := .str) (n := s.cmd.intIn) rfl hq rfl hread

end Sys2Proof.Machine
end

section
/-! PROOFS. The classifier (`42_classifier.md`): the domain check and the five classes (R120, R121). -/
namespace Sys2Proof.Machine

variable {c : PrecisionConfig} {cmd : Command}

/-- The pairs that the command boundary refuses (R91, R121). -/
theorem outOfFields_iff :
    outOfFields c cmd = true ↔ c.expMax < cmd.exponent.toNat ∨ c.fracMask < cmd.fraction.toNat := by
  simp [outOfFields]

theorem classifyResponse_of_inFields (he : cmd.exponent.toNat ≤ c.expMax) (hf : cmd.fraction.toNat ≤ c.fracMask) :
    classifyResponse c cmd =
      .classified (classifyFields c.expMax cmd.exponent.toNat cmd.fraction.toNat) := by
  have hin : ¬ outOfFields c cmd = true := by
    rw [outOfFields_iff]
    omega
  rw [classifyResponse, if_neg hin]

theorem classifyResponse_of_outOfFields (h : c.expMax < cmd.exponent.toNat ∨ c.fracMask < cmd.fraction.toNat) :
    classifyResponse c cmd = .error .operandRange := by
  rw [classifyResponse, if_pos (outOfFields_iff.mpr h)]

/-- On an exponent of the row, what is neither 0 nor `exp_max` is the middle range of R120's table. -/
theorem classifyFields_normal_of_le {m e f : Nat} (he : e ≤ m) :
    classifyFields m e f = .normal ↔ 1 ≤ e ∧ e ≤ m - 1 := by
  rw [classifyFields_normal]
  omega

/-- Settles O28: `classifyResponse` gives a pair of the precision its class, which one lemma per class says, and refuses
any other pair; `exp_max` is not 0, so no class takes what belongs to another. -/
theorem classifyByExponentAndFraction : Obligations.ClassifyByExponentAndFraction := by
  intro s p q hq
  have hpos := (registry_facts q).expMax_pos
  constructor
  · rintro ⟨he, hf⟩
    refine ⟨_, ?_, classifyFields_infinity, classifyFields_nan, classifyFields_zero hpos, classifyFields_subnormal hpos,
      classifyFields_normal_of_le he⟩
    rw [exec_recognized (i := .classify p) rfl hq, opResponse, classifyResponse_of_inFields he hf]
  · intro hout
    exact exec_fail_of_opResponse rfl hq (classifyResponse_of_outOfFields hout)

end Sys2Proof.Machine
end

section
/-! PROOFS. The Rounding Engine (`43_rounding.md`): the split of a fraction (R130), and what ROUND_RNE answers within its
precondition (R131 to R133). -/
namespace Sys2Proof.Machine

/-! ### The split by long division -/

/-- One step of long division in base 2: the digit is the quotient of the doubled remainder, and what is left over is the
next remainder. -/
theorem longDivision_step {t d : Nat} (ht : t < d) :
    (decide (d ≤ 2 * t)).toNat = 2 * t / d ∧ 2 * t - (decide (d ≤ 2 * t)).toNat * d = 2 * t % d := by
  by_cases hle : d ≤ 2 * t
  · have hdigit : 2 * t / d = 1 := Nat.div_eq_of_lt_le (by omega) (by omega)
    simp [hle, hdigit, Nat.mod_eq_sub_mul_div]
  · have hlt : 2 * t < d := by omega
    simp [hle, Nat.div_eq_of_lt hlt, Nat.mod_eq_of_lt hlt]

/-- Two steps of long division in base 2 are one step in base 4: the second digit is the low bit of the quotient of `4t`,
and both leave the same remainder. -/
theorem longDivision_two_steps {t d : Nat} (hd : 0 < d) :
    2 * (2 * t % d) / d = 4 * t / d % 2 ∧ 2 * (2 * t % d) % d = 4 * t % d := by
  have hdigit : 2 * (2 * t % d) / d < 2 := Nat.div_lt_of_lt_mul (by have := Nat.mod_lt (2 * t) hd; omega)
  have hfour : 4 * t = d * (2 * (2 * t / d)) + 2 * (2 * t % d) := by
    have := Nat.div_add_mod (2 * t) d
    rw [Nat.mul_left_comm]
    omega
  rw [hfour, Nat.mul_add_div hd, Nat.mul_add_mod, Nat.mul_add_mod, Nat.mod_eq_of_lt hdigit]
  exact ⟨rfl, rfl⟩

/-- The three bits of `grs` are digits of the remainder over the denominator (R130). -/
theorem grs_bits {y : Frac} (hd : 0 < y.den) :
    (grs y).g.toNat = 2 * (y.num % y.den) / y.den
      ∧ (grs y).r.toNat = 4 * (y.num % y.den) / y.den % 2
      ∧ ((grs y).s = true ↔ 4 * (y.num % y.den) % y.den ≠ 0) := by
  obtain ⟨hg, hg'⟩ := longDivision_step (Nat.mod_lt y.num hd)
  obtain ⟨hr, hr'⟩ := longDivision_step (Nat.mod_lt (2 * (y.num % y.den)) hd)
  obtain ⟨hr4, hs4⟩ := longDivision_two_steps (t := y.num % y.den) hd
  simp only [grs, hg', hr', decide_eq_true_eq]
  exact ⟨hg, hr.trans hr4, by rw [hs4]⟩

/-! ### The split of the rational -/

/-- A quotient of naturals is no integer exactly when the division leaves a remainder. -/
theorem natCast_div_ne_floor_iff {n d : Nat} (hd : 0 < d) : (n / d : ℚ) ≠ ⌊(n / d : ℚ)⌋ ↔ n % d ≠ 0 := by
  have hd' : (d : ℚ) ≠ 0 := by exact_mod_cast hd.ne'
  have hn := Nat.div_add_mod n d
  rw [Rat.floor_natCast_div_natCast, Ne, div_eq_iff hd', not_iff_not]
  have hcast : (n : ℚ) = ((n / d : ℤ) : ℚ) * d ↔ n = n / d * d := by exact_mod_cast Iff.rfl
  rw [hcast, Nat.mul_comm]
  omega

/-- A multiple of what the integer part leaves of a fraction. -/
theorem Frac.mul_rat_sub_floor {y : Frac} (hd : 0 < y.den) (k : Nat) :
    k * (y.rat - (grs y).m) = (k * (y.num % y.den) : ℕ) / y.den := by
  rw [Frac.rat_eq_floor_add hd, add_sub_cancel_left, Nat.cast_mul, mul_div_assoc]

/-- Settles O29: `grs_bits` says what the bits are in terms of the remainder, and the floors of R130 are the quotients of
that remainder's multiples by the denominator. -/
theorem splitIsFloorAndBits : Obligations.SplitIsFloorAndBits := by
  intro y hd
  obtain ⟨hg, hr, hs⟩ := grs_bits hd
  have htwo := Frac.mul_rat_sub_floor hd 2
  have hfour := Frac.mul_rat_sub_floor hd 4
  rw [Nat.cast_ofNat] at htwo hfour
  refine ⟨(Rat.floor_natCast_div_natCast y.num y.den).symm, ?_, ?_, ?_⟩
  · rw [htwo, Rat.floor_natCast_div_natCast, hg]
    rfl
  · rw [hfour, Rat.floor_natCast_div_natCast, hr]
    rfl
  · rw [hfour, natCast_div_ne_floor_iff hd, hs]

/-! ### The answer of ROUND_RNE -/

variable {c : PrecisionConfig} {y : Split} {f : Nat}

/-- The first outcome of R132. -/
theorem rne_of_not_roundsUp (hup : ¬ RoundsUp y.m y.g y.r y.s) : rne y f = (y.m, false) := by
  rw [← roundUp_iff_roundsUp, Bool.not_eq_true] at hup
  rw [rne, if_pos hup]

/-- The second outcome of R132, the carry-out. -/
theorem rne_of_roundsUp_eq (hup : RoundsUp y.m y.g y.r y.s) (hm : y.m + 1 = 2 ^ f) : rne y f = (0, true) := by
  rw [rne, (roundUp_iff_roundsUp y).mpr hup, if_neg (by decide), if_pos hm]

/-- The third outcome of R132. -/
theorem rne_of_roundsUp_ne (hup : RoundsUp y.m y.g y.r y.s) (hm : y.m + 1 ≠ 2 ^ f) : rne y f = (y.m + 1, false) := by
  rw [rne, (roundUp_iff_roundsUp y).mpr hup, if_neg (by decide), if_neg hm]

/-- Within the precondition of R132 the shared part of ROUND_RNE answers `rne`, and nothing is lost on the `mant` port. -/
theorem roundResponse_of_le (h : RowFacts c) (hm : y.m ≤ c.fracMask) :
    ∃ m k, roundResponse c y = .rounded m k ∧ rne y c.f = (m.toNat, k) := by
  obtain ⟨-, hlt, -⟩ := rne_value (y := y) (f := c.f) (by have := h.fracMask_eq; omega)
  refine ⟨_, _, by rw [roundResponse, if_neg (Nat.not_lt.mpr hm)], ?_⟩
  rw [BitVec.toNat_ofNat, Nat.mod_eq_of_lt (lt_of_lt_of_le hlt h.pow_f_le)]

/-- Settles O31: ROUND_RNE PRESPLIT answers `rne` of the operands (`roundResponse_of_le`), whose three outcomes are
`rne_of_not_roundsUp`, `rne_of_roundsUp_eq` and `rne_of_roundsUp_ne`. -/
theorem roundPresplitDecision : Obligations.RoundPresplitDecision := by
  intro s p q hq hm
  have h := registry_facts q
  obtain ⟨m, k, hresp, hrne⟩ := roundResponse_of_le (y := ⟨s.cmd.mIn.toNat, s.cmd.gIn, s.cmd.rIn, s.cmd.sIn⟩) h
    (hm.trans (Nat.sub_le_of_le_add h.fracMask_eq.ge))
  refine ⟨m, k, ?_, fun hup => ?_, fun hup htop => ?_, fun hup hbelow => ?_⟩
  · rw [exec_recognized (i := .roundPresplit p) rfl hq, opResponse, roundPresplitResponse, hresp]
  · exact Prod.mk.inj (hrne.symm.trans (rne_of_not_roundsUp hup))
  · exact Prod.mk.inj (hrne.symm.trans (rne_of_roundsUp_eq hup htop))
  · exact Prod.mk.inj (hrne.symm.trans (rne_of_roundsUp_ne hup hbelow.ne))

end Sys2Proof.Machine
end

section
/-! PROOFS. The forms of ENCODE that need no rounding (`44_encoder.md` R151 to R154): zero, infinity, and the build's NaN
with and without a reason (`60_exceptions.md` R223). -/
namespace Sys2Proof.Machine

variable {c : PrecisionConfig}

/-! ### The CodecResult of fields that come from ports -/

/-- Sign and fraction reach the `fields` ports as they are given. -/
theorem finish_fields (hx : HexCase) (c : PrecisionConfig) (sign : Bit) (e : Nat) (f : FractionPort) :
    (finish hx c sign.toNat e f.toNat).fields = { sign := sign, exponent := BitVec.ofNat 15 e, fraction := f } := by
  simp [finish, codecResult, Fields.toPorts]

/-- The class of the packed fields is that of the fields (R160). -/
theorem finish_cls (hx : HexCase) (c : PrecisionConfig) (sign e f : Nat) :
    (finish hx c sign e f).cls = classifyFields c.expMax e f := rfl

/-- The value of the packed fields is that of the fields (R160). -/
theorem finish_value (hx : HexCase) (c : PrecisionConfig) (sign e f : Nat) :
    (finish hx c sign e f).value = (valueOf c { sign := sign, exponent := e, fraction := f }).toPorts := rfl

/-- The pattern on the `bits` port is that of the fields (R90, R210). -/
theorem finish_bits_toNat (h : RowFacts c) (hx : HexCase) {t : Fields} (ht : t.Fit c) :
    (finish hx c t.sign t.exponent t.fraction).bits.toNat = t.pattern c := by
  rw [finish_eq_decodePattern h hx ht]
  exact bitsPort_toNat h (Fields.pattern_lt h ht)

/-- The all-ones exponent fits its port (R210). -/
theorem finish_expMax_toNat (h : RowFacts c) (hx : HexCase) (sign f : Nat) :
    (finish hx c sign c.expMax f).fields.exponent.toNat = c.expMax :=
  Nat.mod_eq_of_lt (h.expMax_lt.trans_le h.pow_eb_le)

/-- The all-ones exponent with fraction 0 is an infinity (R120, R181). -/
theorem valueOf_infinity (c : PrecisionConfig) (sign : Nat) :
    valueOf c { sign := sign, exponent := c.expMax, fraction := 0 } = .inf (BitVec.ofNat 1 sign) := by
  rw [valueOf, classifyFields_infinity.mpr ⟨rfl, rfl⟩]

/-- The all-ones exponent with any other fraction is a NaN (R120, R181). -/
theorem valueOf_nan (sign : Nat) {f : Nat} (hf : f ≠ 0) :
    valueOf c { sign := sign, exponent := c.expMax, fraction := f } = .nan := by
  rw [valueOf, classifyFields_nan.mpr ⟨rfl, hf⟩]

/-! ### The NaN of the build -/

/-- R7's constraint leaves no NaN pattern with fraction 0. -/
theorem nan_frac_ne_zero {b : Build} (hb : b.wf = true) (q : Precision) : (b.nan q).frac.toNat ≠ 0 :=
  Nat.one_le_iff_ne_zero.mp (nan_frac_bounds hb q).1

theorem finishNan_fields (b : Build) (q : Precision) :
    (finishNan b q).fields =
      { sign := (b.nan q).sign, exponent := BitVec.ofNat 15 (registry q).expMax, fraction := (b.nan q).frac } :=
  finish_fields ..

theorem finishNan_cls {b : Build} (hb : b.wf = true) (q : Precision) : (finishNan b q).cls = .nan := by
  rw [finishNan, finish_cls]
  exact classifyFields_nan.mpr ⟨rfl, nan_frac_ne_zero hb q⟩

theorem finishNan_value_kind {b : Build} (hb : b.wf = true) (q : Precision) : (finishNan b q).value.kind = .nan := by
  rw [finishNan, finish_value, valueOf_nan _ (nan_frac_ne_zero hb q)]
  rfl

/-! ### The answers -/

/-- ENCODE of a decimal zero ends before the rounding path (R151). -/
theorem encodeOperand_zero (b : Build) (q : Precision) (sign : Bit) (exp10 : Int) :
    encodeOperand b q (.finite sign 0 exp10) =
      { result := finish b.hexOutCase (registry q) sign.toNat 0 0, aux := none, reason := .none } := by
  rw [encodeOperand, if_pos rfl]

/-- Form INVALID alone gives a reason (R154). -/
theorem encodeOperand_reason {b : Build} {q : Precision} {o : EncodeOperand} (ho : o ≠ .invalid) :
    (encodeOperand b q o).reason = .none := by
  cases o with
  | finite sign coef exp10 => rw [encodeOperand]; split <;> rfl
  | inf sign => rfl
  | nan => rfl
  | invalid => exact absurd rfl ho

/-- Settles O34: coefficient 0 packs the fields `(sign, 0, 0)` (`encodeOperand_zero`), a triple of every precision, whose
pattern has nothing but the sign bit. -/
theorem encodeZero : Obligations.EncodeZero := by
  intro s p q hq hcoef
  have h := registry_facts q
  have hfit : Fields.Fit (registry q) { sign := s.cmd.sign.toNat, exponent := 0, fraction := 0 } :=
    ⟨bit_toNat_le _, Nat.zero_le _, Nat.zero_le _⟩
  refine ⟨_, exec_recognized (i := .encodeFinite p) rfl hq, ?_⟩
  rw [hcoef, encodeOperand_zero]
  refine ⟨finish_fields _ _ s.cmd.sign 0 0, ?_, (classifyFields_zero h.expMax_pos).mpr ⟨rfl, rfl⟩, rfl, rfl⟩
  rw [finish_bits_toNat h _ hfit]
  simp [Fields.pattern]

/-- Settles O35: form INF packs the fields `(sign, exp_max, 0)`, and these are an infinity (`valueOf_infinity`). -/
theorem encodeInfinity : Obligations.EncodeInfinity := by
  intro s p q hq
  have hfields := finish_fields s.build.hexOutCase (registry q) s.cmd.sign (registry q).expMax 0
  have hvalue : (finish s.build.hexOutCase (registry q) s.cmd.sign.toNat (registry q).expMax 0).value
      = (Value.inf s.cmd.sign).toPorts := by
    rw [finish_value, valueOf_infinity, BitVec.ofNat_toNat, BitVec.setWidth_eq]
  refine ⟨_, exec_recognized (i := .encodeInf p) rfl hq, congrArg BitFields.sign hfields,
    finish_expMax_toNat (registry_facts q) _ _ _, congrArg BitFields.fraction hfields,
    classifyFields_infinity.mpr ⟨rfl, rfl⟩, rfl, rfl, congrArg ValueGroup.kind hvalue, congrArg ValueGroup.sign hvalue⟩

/-- Settles O36: form NAN packs the build's NaN fields, which are a NaN because R7 forbids fraction 0; the command's sign
stands in the echo only. -/
theorem encodeNan : Obligations.EncodeNan := by
  intro s p q hq hb
  have hfields := finishNan_fields s.build q
  refine ⟨_, exec_recognized (i := .encodeNan p) rfl hq, congrArg BitFields.sign hfields,
    finish_expMax_toNat (registry_facts q) _ _ _, congrArg BitFields.fraction hfields, finishNan_cls hb q,
    finishNan_value_kind hb q, rfl, rfl⟩

/-- Settles O37: forms NAN and INVALID end in the same `finishNan`, a NaN of the precision, and only INVALID adds a reason
(`encodeOperand_reason`). -/
theorem invalidLiteralIsAnnotatedNan : Obligations.InvalidLiteralIsAnnotatedNan := by
  intro s p q hq hb echo
  refine ⟨_, _, _, exec_recognized (i := .encodeInvalid p) rfl hq, exec_recognized (i := .encodeNan p) rfl hq, rfl, rfl,
    finishNan_cls hb q, rfl, rfl, ?_⟩
  rintro i (rfl | rfl | rfl)
  · exact ⟨_, _, exec_recognized (i := .encodeFinite p) rfl hq, encodeOperand_reason (by simp)⟩
  · exact ⟨_, _, exec_recognized (i := .encodeInf p) rfl hq, encodeOperand_reason (by simp)⟩
  · exact ⟨_, _, exec_recognized (i := .encodeNan p) rfl hq, encodeOperand_reason (by simp)⟩

end Sys2Proof.Machine
end

section
/-! PROOFS. The decoder (`45_decoder.md`): what DECODE answers for a string (R180), and the fields and the value of a
decoded pattern (R181, R186). -/
namespace Sys2Proof.Machine

variable {c : PrecisionConfig}

/-- A string that was read is a pattern of the precision (R93). -/
theorem readStr_lt {text : Text} {v : Nat} (hread : readStr c text = .ok v) : v < 2 ^ c.n :=
  readPattern_lt (form := .str) (n := 0) hread

/-- DECODE, form STR, on a readable string, beside `exec_decodeInt` for form INT (R180). -/
theorem exec_decodeStr {s : State} {p : PrecCode} {q : Precision} {v : Nat} (hq : precisionOf p = some q)
    (hread : readStr (registry q) s.cmd.strIn = .ok v) :
    exec (.decodeStr p) s = .next (s.answer (.decoded (decodePattern s.build.hexOutCase (registry q) v))) := by
  rw [exec_recognized (i := .decodeStr p) rfl hq, opResponse, readPattern, hread, onPattern_ok, decodeResponse]

/-- The decoding of a pattern carries that pattern, in-range fields that assemble to it, and the value of its class (R181). -/
theorem decodePattern_bits_fields_value (h : RowFacts c) (hx : HexCase) {v : Nat} (hv : v < 2 ^ c.n) :
    (decodePattern hx c v).bits.toNat = v ∧ FieldsFit c (decodePattern hx c v).fields
      ∧ patternOf c (decodePattern hx c v).fields = v ∧ ValueFits c (decodePattern hx c v) := by
  obtain ⟨⟨-, hfields, -⟩, hpattern⟩ := decodePattern_fits h hx hv
  exact ⟨bitsPort_toNat h hv, hfields, hpattern, decodePattern_valueFits h hx hv⟩

/-- Settles O47: both forms answer `decodePattern` of the operand (`exec_decodeInt`, `exec_decodeStr`), which fits the
operand by `decodePattern_bits_fields_value`, because whatever is read is below `2^N`. -/
theorem decodeGivesTheValue : Obligations.DecodeGivesTheValue := by
  intro s p q v hq
  have hrow := registry_facts q
  constructor
  · rintro rfl hlt
    exact ⟨_, exec_decodeInt hq hlt, decodePattern_bits_fields_value hrow _ hlt⟩
  · intro hread
    exact ⟨_, exec_decodeStr hq hread, decodePattern_bits_fields_value hrow _ (readStr_lt hread)⟩

end Sys2Proof.Machine
end

section
/-! PROOFS. The command word (`30_encoding.md` R50 to R53): its number and its fields, and that decoding and encoding
invert each other; the host's command lines (R62, R63). -/
namespace Sys2Proof.Machine

/-! ### The fields of a word -/

/-- The number of a command word: `(op << 12) | (prec << 9) | (kind << 7)`, as a sum (R50). -/
theorem wordOf_toNat (op : BitVec 4) (p : PrecCode) (kind : BitVec 2) :
    (wordOf op p kind).toNat = op.toNat * 2 ^ 12 + p.toBits.toNat * 2 ^ 9 + kind.toNat * 2 ^ 7 := by
  have hp := p.toBits.isLt
  have hk := kind.isLt
  simp only [wordOf, BitVec.toNat_append, BitVec.toNat_ofNat]
  rw [← Nat.shiftLeft_add_eq_or_of_lt hp, ← Nat.shiftLeft_add_eq_or_of_lt hk, ← Nat.shiftLeft_add_eq_or_of_lt (by decide)]
  simp only [Nat.shiftLeft_eq]
  omega

theorem precField_toNat (w : Word) : (precField w).toNat = w.toNat / 2 ^ 9 % 2 ^ 3 := by
  simp only [precField, BitVec.extractLsb'_toNat, Nat.shiftRight_eq_div_pow]

theorem opField_wordOf (op : BitVec 4) (p : PrecCode) (kind : BitVec 2) : opField (wordOf op p kind) = op := by
  have hp := p.toBits.isLt
  have hk := kind.isLt
  refine BitVec.eq_of_toNat_eq ?_
  rw [opField_toNat, wordOf_toNat]
  omega

theorem precField_wordOf (op : BitVec 4) (p : PrecCode) (kind : BitVec 2) :
    precField (wordOf op p kind) = p.toBits := by
  have hp := p.toBits.isLt
  have hk := kind.isLt
  refine BitVec.eq_of_toNat_eq ?_
  rw [precField_toNat, wordOf_toNat]
  omega

theorem kindField_wordOf (op : BitVec 4) (p : PrecCode) (kind : BitVec 2) : kindField (wordOf op p kind) = kind := by
  have hk := kind.isLt
  refine BitVec.eq_of_toNat_eq ?_
  rw [kindField_toNat, wordOf_toNat]
  omega

theorem rsvField_wordOf (op : BitVec 4) (p : PrecCode) (kind : BitVec 2) : rsvField (wordOf op p kind) = 0 := by
  rw [rsvField_eq_zero_iff, wordOf_toNat]
  omega

/-- A word without reserved bits is the word of its own fields. -/
theorem wordOf_fields {w : Word} {op : BitVec 4} {kind : BitVec 2} (hrsv : rsvField w = 0)
    (hop : (opField w).toNat = op.toNat) (hkind : (kindField w).toNat = kind.toNat) :
    wordOf op (PrecCode.ofBits (precField w)) kind = w := by
  have hw := w.isLt
  rw [rsvField_eq_zero_iff] at hrsv
  rw [opField_toNat] at hop
  rw [kindField_toNat] at hkind
  refine BitVec.eq_of_toNat_eq ?_
  rw [wordOf_toNat, precCode_toBits_ofBits, precField_toNat]
  omega

/-! ### Decoding and encoding -/

theorem precCode_ofBits_toBits (p : PrecCode) : PrecCode.ofBits p.toBits = p := by
  cases p <;> rfl

/-- The two form bits of the `kind` of FP_ADD and FP_MULTIPLY, read and written back (R201). -/
theorem operandForms_of_kind (kind : BitVec 2) :
    (OperandForm.ofBit (kind.toNat.testBit 1)).toBit ++ (OperandForm.ofBit (kind.toNat.testBit 0)).toBit = kind := by
  revert kind
  decide

theorem operandForm_a_of_kind (a b : OperandForm) :
    OperandForm.ofBit ((b.toBit ++ a.toBit : BitVec 2).toNat.testBit 0) = a := by
  cases a <;> cases b <;> rfl

theorem operandForm_b_of_kind (a b : OperandForm) :
    OperandForm.ofBit ((b.toBit ++ a.toBit : BitVec 2).toNat.testBit 1) = b := by
  cases a <;> cases b <;> rfl

theorem decode_encode (i : Instr) : decode (encode i) = .ok i := by
  cases i <;>
    simp [decode, encode, opField_wordOf, precField_wordOf, kindField_wordOf, rsvField_wordOf, precCode_ofBits_toBits,
      operandForm_a_of_kind, operandForm_b_of_kind, -Nat.testBit_zero]

/-- Each row of the decoder's table fixes `op` and `kind`, the reserved bits are 0, and the precision code stands for its
own bits; so no bit of a decoded word is free. -/
theorem encode_of_decode {w : Word} {i : Instr} (hd : decode w = .ok i) : encode i = w := by
  unfold decode at hd
  split at hd
  case isTrue => cases hd
  case isFalse hrsv =>
    have hzero := not_not.mp hrsv
    split at hd
    case h_18 => split at hd <;> cases hd
    case h_16 hop => cases hd; exact wordOf_fields hzero hop (by rw [operandForms_of_kind])
    case h_17 hop => cases hd; exact wordOf_fields hzero hop (by rw [operandForms_of_kind])
    all_goals
      rename_i hop hkind
      cases hd
      exact wordOf_fields hzero hop hkind

/-- Settles O1: `decode_encode` and `encode_of_decode`. -/
theorem decodeAndEncodeAgree : Obligations.DecodeAndEncodeAgree :=
  ⟨decode_encode, fun _ _ => encode_of_decode⟩

/-- Settles O2: each of the words is the one `encode` writes for its instruction, so `decode_encode` reads it back. -/
theorem specWordsDecode : Obligations.SpecWordsDecode :=
  ⟨decode_encode (.encodeFinite .single), decode_encode (.decodeInt .single), decode_encode (.decodeStr .double),
    decode_encode (.configFor .quad), decode_encode (.pack .half), decode_encode (.roundPresplit .single),
    decode_encode (.encodeNan .half), decode_encode (.classify .p5), decode_encode (.unpackStr .half),
    decode_encode (.formatInt .quad), decode_encode (.fpAdd .single .str .int),
    decode_encode (.fpMultiply .double .int .str)⟩

/-! ### Command lines -/

/-- Placing a pattern operand on its port leaves the word. -/
@[simp] theorem withA_word (c : Command) (a : PatternOperand) : (c.withA a).word = c.word := by cases a <;> rfl
@[simp] theorem withB_word (c : Command) (b : PatternOperand) : (c.withB b).word = c.word := by cases b <;> rfl

/-- Each form of an operand stands on its own port. -/
@[simp] theorem withA_int_intIn (c : Command) (v : Nat) : (c.withA (.int v)).intIn = v := rfl
@[simp] theorem withA_str_strIn (c : Command) (t : Text) : (c.withA (.str t)).strIn = t := rfl
@[simp] theorem withB_int_intInB (c : Command) (v : Nat) : (c.withB (.int v)).intInB = v := rfl
@[simp] theorem withB_str_strInB (c : Command) (t : Text) : (c.withB (.str t)).strInB = t := rfl

/-- Operand b leaves the ports of operand a. -/
@[simp] theorem withB_intIn (c : Command) (b : PatternOperand) : (c.withB b).intIn = c.intIn := by cases b <;> rfl
@[simp] theorem withB_strIn (c : Command) (b : PatternOperand) : (c.withB b).strIn = c.strIn := by cases b <;> rfl

theorem assemble_word (l : AsmLine) : (assemble l).word = encode l.instr := by
  cases l <;> simp only [assemble, withA_word, withB_word] <;> rfl

/-- R58: `m * 2^e` has an exact decimal, because a negative power of two is `5^n * 10^(-n)`. -/
theorem decRat_nativeDecimal (m : Nat) (e : ℤ) :
    decRat (nativeDecimal m e).1 (nativeDecimal m e).2 = m * (2 : ℚ) ^ e := by
  unfold nativeDecimal
  split_ifs with he
  · obtain ⟨n, rfl⟩ := Int.eq_ofNat_of_zero_le he
    simp [decRat]
  · obtain ⟨n, rfl⟩ : ∃ n : ℕ, e = -(n : ℤ) := ⟨(-e).toNat, by omega⟩
    have hten : (10 : ℚ) ^ n = 5 ^ n * 2 ^ n := by rw [← mul_pow]; norm_num
    simp only [decRat, neg_neg, Int.toNat_natCast, Nat.cast_mul, Nat.cast_pow, Nat.cast_ofNat, zpow_neg, zpow_natCast, hten]
    field_simp

/-- Settles O3: a line's word is its instruction's (`assemble_word`), which decodes to it; each operand stands on its
port by the definition of `assemble`, operand b leaving the ports of operand a; a native number's decimal is exact by
`decRat_nativeDecimal`. -/
theorem commandLinesNameTheirInstruction : Obligations.CommandLinesNameTheirInstruction := by
  refine ⟨fun l => by rw [assemble_word, decode_encode], fun p a b => ⟨rfl, rfl⟩,
    fun p v t => ⟨rfl, rfl, rfl, rfl, rfl, rfl⟩, fun p s e f => ⟨rfl, rfl, rfl⟩, fun p e f => ⟨rfl, rfl⟩,
    fun p n d => ⟨rfl, rfl⟩, fun p m g r t => ⟨rfl, rfl, rfl, rfl⟩, fun p s k x => ⟨rfl, rfl, rfl⟩, fun p s => rfl,
    ?_, ?_, ?_, ?_, ?_, ?_, fun p a => rfl, fun p s k x => rfl, fun p s => rfl, fun p => rfl, fun p => rfl,
    fun p sign m e => ⟨_, _, rfl, decRat_nativeDecimal m e⟩⟩
  all_goals simp [assemble]
end Sys2Proof.Machine
end

section
/-! PROOFS. The step (`70_reset_and_hazards.md` R254, R255): what it runs, that it always answers, and that a run leaves
nothing but its last response (`20_memory.md`, `10_state.md` R20). -/
namespace Sys2Proof.Machine

/-- Settles O5: `step_exec` and `step_idle`. -/
theorem stepRunsTheDecodedInstruction : Obligations.StepRunsTheDecodedInstruction :=
  ⟨fun _ _ _ _ hs hd => step_exec hs hd, fun _ hs => step_idle hs⟩

/-- A step on an issued command answers it. -/
theorem step_answers {s : State} {c : Command} {rest : List Command} (hs : s.pending = c :: rest) :
    ∃ r, step s = .next ((s.take c rest).answer r) := by
  cases hd : decode c.word with
  | error e => exact ⟨_, step_illegal hs hd⟩
  | ok i =>
    rw [step_exec hs hd]
    exact exec_answers i _

/-- Settles O7: `step_answers`, with the two updates of the state written out. -/
theorem everyCommandIsAnswered : Obligations.EveryCommandIsAnswered :=
  fun _ _ _ hs => step_answers hs

/-- No step stops. -/
theorem step_next (s : State) : ∃ t, step s = .next t := by
  cases hs : s.pending with
  | nil => exact ⟨s, step_idle hs⟩
  | cons c rest =>
    obtain ⟨r, hr⟩ := step_answers hs
    exact ⟨_, hr⟩

/-! ### Runs -/

theorem run_succ_of_next {s t : State} (k : Nat) (h : step s = .next t) :
    Host.Core.run Sys2Proof.core (k + 1) s = Host.Core.run Sys2Proof.core k t := by
  simp only [Host.Core.run, Sys2Proof.core, h]

/-- Settles O10: by induction on the number of steps, each of which ends in a state (`step_next`). -/
theorem noRunStops : Obligations.NoRunStops := by
  intro k
  induction k with
  | zero => exact fun s => ⟨s, rfl⟩
  | succ k ih =>
    intro s
    obtain ⟨t, ht⟩ := step_next s
    obtain ⟨u, hu⟩ := ih t
    exact ⟨u, (run_succ_of_next k ht).trans hu⟩

/-- The step overwrites both ports, so with nothing else issued it depends on the build and the command alone. -/
theorem step_single_congr {s t : State} (c : Command) (hb : s.build = t.build) :
    step { s with pending := [c] } = step { t with pending := [c] } := by
  obtain ⟨r, hs, ht⟩ := responseIsAFunctionOfTheCommand { s with pending := [c] } { t with pending := [c] } c [] [] hb
    rfl rfl
  rw [hs, ht]
  simp [hb]

/-- Settles O9: by induction on the commands before the last: each is answered, which changes nothing but the ports and the
list (`step_answers`), and the last one's answer depends on neither (`step_single_congr`). -/
theorem programLeavesOnlyItsLastResponse : Obligations.ProgramLeavesOnlyItsLastResponse := by
  intro cs c
  induction cs with
  | nil =>
    intro s
    obtain ⟨t, ht⟩ := step_next { s with pending := [c] }
    rw [ht]
    exact run_succ_of_next 0 ht
  | cons d cs ih =>
    intro s
    obtain ⟨r, hr⟩ := step_answers (s := { s with pending := d :: (cs ++ [c]) }) rfl
    rw [List.length_cons, List.cons_append, run_succ_of_next _ hr]
    exact (ih { s with cmd := d, resp := some r }).trans (step_single_congr c rfl)

/-! ### The frame, and what is read -/

/-- Settles O11: `exec_answers`, and the four fields of an answered state. -/
theorem instructionsWriteOnlyTheResponse : Obligations.InstructionsWriteOnlyTheResponse := by
  intro i s t ht
  obtain ⟨r, hr⟩ := exec_answers i s
  rw [hr] at ht
  cases ht
  exact ⟨rfl, rfl, rfl, r, rfl⟩

/-- An instruction's rule looks at the fields that R25 lets it read, and at no other. -/
theorem opResponse_onlyRead (i : Instr) (s : State) (q : Precision) :
    opResponse i { s with cmd := onlyRead i s.cmd } q = opResponse i s q := by
  cases i with
  | fpAdd p a b => cases a <;> cases b <;> rfl
  | fpMultiply p a b => cases a <;> cases b <;> rfl
  | _ => rfl

/-- Settles O12: the build and the precision code decide whether the instruction runs, and its rule ignores what it does
not read (`opResponse_onlyRead`). -/
theorem unreadOperandsAreIgnored : Obligations.UnreadOperandsAreIgnored := by
  intro i s
  rcases exec_cases i s with ⟨hw, hs⟩ | ⟨hw, hp, hs⟩ | ⟨hw, q, hq, hs⟩
  · exact ⟨_, hs, exec_not_wf hw⟩
  · exact ⟨_, hs, exec_unrecognized hw hp⟩
  · rw [← opResponse_onlyRead] at hs
    exact ⟨_, hs, exec_recognized hw hq⟩

/-! ### The table of errors -/

/-- Reading a pattern fails with `MalformedBits` only. -/
theorem onPattern_eq_error {c : PrecisionConfig} {form : OperandForm} {n : Nat} {text : Text} {op : Nat → Response}
    {k : ErrorKind} (h : onPattern (readPattern c form n text) op = .error k) :
    k = .malformedBits ∨ ∃ v, op v = .error k := by
  cases hread : readPattern c form n text with
  | error k' =>
    rw [hread, onPattern_error] at h
    cases h
    exact .inl (readPattern_error hread)
  | ok v =>
    rw [hread, onPattern_ok] at h
    exact .inr ⟨v, h⟩

/-- The two operations on two patterns fail with `MalformedBits` only. -/
theorem arithOn_eq_error {op : ArithOp} {a b : OperandForm} {s : State} {q : Precision} {k : ErrorKind}
    (h : arithOn op a b s q = .error k) : k = .malformedBits := by
  rcases onPattern_eq_error h with hk | ⟨va, h⟩
  · exact hk
  rcases onPattern_eq_error h with hk | ⟨vb, h⟩
  · exact hk
  · cases h

/-- An instruction without a bit-pattern operand fails with `OperandRange` only, and one without a domain check with
`MalformedBits` only (R220). -/
theorem opResponse_error_mayAnswer {i : Instr} {s : State} {q : Precision} {k : ErrorKind}
    (h : opResponse i s q = .error k) : mayAnswer i k := by
  cases i with
  | configFor p => cases h
  | encodeFinite p => cases h
  | encodeInf p => cases h
  | encodeNan p => cases h
  | encodeInvalid p => cases h
  | fpAdd p a b => rw [arithOn_eq_error h]; trivial
  | fpMultiply p a b => rw [arithOn_eq_error h]; trivial
  | pack p => simp only [opResponse, packResponse] at h; split at h <;> cases h; trivial
  | classify p => simp only [opResponse, classifyResponse] at h; split at h <;> cases h; trivial
  | roundRational p =>
    simp only [opResponse, roundRationalResponse, roundResponse] at h
    split at h
    · cases h; trivial
    · split at h <;> cases h; trivial
  | roundPresplit p =>
    simp only [opResponse, roundPresplitResponse, roundResponse] at h
    split at h <;> cases h; trivial
  | _ =>
    rcases onPattern_eq_error h with hk | ⟨v, hv⟩
    · rw [hk]; trivial
    · cases hv

/-- Settles O13: an instruction of the build fails for its precision or by its own rule (`exec_cases`), and the rule's
errors are `opResponse_error_mayAnswer`. -/
theorem errorsAreThoseOfTheTable : Obligations.ErrorsAreThoseOfTheTable := by
  intro i s t k hw ht hk
  rcases exec_cases i s with ⟨hw', -⟩ | ⟨-, -, hs⟩ | ⟨-, q, -, hs⟩
  · rw [hw] at hw'
    cases hw'
  · rw [hs] at ht
    cases ht
    cases hk
    trivial
  · rw [hs] at ht
    cases ht
    exact opResponse_error_mayAnswer (Option.some.inj hk)

/-- Settles O51: an operation of the layer is no instruction of such a build (`exec_not_wf`). -/
theorem arithmeticAbsentIsIllegal : Obligations.ArithmeticAbsentIsIllegal := by
  intro s p a b hb
  constructor <;> exact exec_not_wf ((instr_wf_eq_false_iff _ _).mpr ⟨rfl, hb⟩)

end Sys2Proof.Machine
end

section
/-! PROOFS. CONFIG_FOR (`40_registry.md`), and the packer's PACK, UNPACK and FORMAT (`41_packer.md`) on operands in their
domain, with the laws of R99. -/
namespace Sys2Proof.Machine

variable {c : PrecisionConfig} {s : State} {p : PrecCode} {q : Precision}

/-! ### CONFIG_FOR -/

/-- No field of a registry row is cut by its port (R26, R80). -/
theorem configGroup_toNat (h : RowFacts c) :
    (configGroup c).totalBits.toNat = c.n ∧ (configGroup c).expBits.toNat = c.eb ∧ (configGroup c).fracBits.toNat = c.f
      ∧ (configGroup c).bias.toNat = c.bias ∧ (configGroup c).expMax.toNat = c.expMax
      ∧ (configGroup c).fracMask.toNat = c.fracMask := by
  have hn := h.n_le
  have heb := h.eb_le
  have hf := h.f_le
  have hbias := h.bias_le
  have hexp := h.expMax_lt.trans_le h.pow_eb_le
  have hfrac := h.fracMask_lt.trans_le h.pow_f_le
  simp only [configGroup, BitVec.toNat_ofNat]
  refine ⟨?_, ?_, ?_, ?_, ?_, ?_⟩ <;> exact Nat.mod_eq_of_lt (by omega)

/-- Settles O19: the word is `wordOf_toNat`, the failure is the failed lookup's, and the row reaches its ports whole
(`configGroup_toNat`). -/
theorem configForReturnsTheRow : Obligations.ConfigForReturnsTheRow := by
  intro s p
  refine ⟨?_, fun hp => ?_, fun q hq => ?_⟩
  · rw [encode, wordOf_toNat]
    rfl
  · exact (exec_unknownPrecision_iff rfl).mpr ((precisionOf_eq_none p).mpr hp)
  · exact ⟨_, exec_recognized (i := .configFor p) rfl hq, configGroup_toNat (registry_facts q)⟩

/-! ### PACK -/

/-- The triple on the command port. -/
def Command.fields (cmd : Command) : Fields := ⟨cmd.sign.toNat, cmd.exponent.toNat, cmd.fraction.toNat⟩

theorem packResponse_of_fit (h : RowFacts c) {cmd : Command} (ht : cmd.fields.Fit c) :
    packResponse c cmd = .packed (bitsPort (cmd.fields.pattern c)) := by
  have hin : ¬ outOfFields c cmd = true := by
    rw [outOfFields_iff]
    exact not_or.mpr ⟨Nat.not_lt.mpr ht.exponent_le, Nat.not_lt.mpr ht.fraction_le⟩
  rw [packResponse, if_neg hin, ← packBits_eq h ht]
  rfl

theorem packResponse_of_outOfFields {cmd : Command}
    (hout : c.expMax < cmd.exponent.toNat ∨ c.fracMask < cmd.fraction.toNat) :
    packResponse c cmd = .error .operandRange := by
  rw [packResponse, if_pos (outOfFields_iff.mpr hout)]

/-- A triple is one of the precision, or the command boundary refuses it (R91). -/
theorem command_fields_fit_or_out (c : PrecisionConfig) (cmd : Command) :
    cmd.fields.Fit c ∨ c.expMax < cmd.exponent.toNat ∨ c.fracMask < cmd.fraction.toNat := by
  by_cases hout : c.expMax < cmd.exponent.toNat ∨ c.fracMask < cmd.fraction.toNat
  · exact .inr hout
  · rw [not_or, Nat.not_lt, Nat.not_lt] at hout
    exact .inl ⟨bit_toNat_le _, hout.1, hout.2⟩

/-- Settles O20: within the domain `packResponse_of_fit`, outside it `packResponse_of_outOfFields`. -/
theorem packAssemblesThePattern : Obligations.PackAssemblesThePattern := by
  intro s p q hq
  have h := registry_facts q
  constructor
  · rintro ⟨he, hf⟩
    have ht : s.cmd.fields.Fit (registry q) := ⟨bit_toNat_le _, he, hf⟩
    refine ⟨bitsPort (s.cmd.fields.pattern (registry q)), ?_, bitsPort_toNat h (Fields.pattern_lt h ht)⟩
    rw [exec_recognized (i := .pack p) rfl hq, opResponse, packResponse_of_fit h ht]
  · exact fun hout => exec_fail_of_opResponse rfl hq (packResponse_of_outOfFields hout)

/-! ### UNPACK -/

/-- An instruction of the build that begins by reading a pattern runs its rule on a readable operand (R93). -/
theorem exec_of_readPattern {i : Instr} {form : OperandForm} {n v : Nat} {text : Text} {op : Nat → Response}
    (hw : i.wf s.build = true) (hq : precisionOf i.prec = some q)
    (hop : opResponse i s q = onPattern (readPattern (registry q) form n text) op)
    (hread : readPattern (registry q) form n text = .ok v) : exec i s = .next (s.answer (op v)) := by
  rw [exec_recognized hw hq, hop, hread, onPattern_ok]

theorem exec_unpackInt (hq : precisionOf p = some q) (hv : s.cmd.intIn < 2 ^ (registry q).n) :
    exec (.unpackInt p) s = .next (s.answer (.unpacked (unpackFields (registry q) s.cmd.intIn).toPorts)) :=
  exec_of_readPattern (i := .unpackInt p) (form := .int) (text := s.cmd.strIn) rfl hq rfl
    (readInt_of_le (Nat.le_sub_one_of_lt hv))

theorem exec_unpackStr {v : Nat} (hq : precisionOf p = some q) (hread : readStr (registry q) s.cmd.strIn = .ok v) :
    exec (.unpackStr p) s = .next (s.answer (.unpacked (unpackFields (registry q) v).toPorts)) :=
  exec_of_readPattern (i := .unpackStr p) (form := .str) (n := s.cmd.intIn) rfl hq rfl hread

/-- The triple of a pattern, on its ports, is one of the precision and assembles to the pattern. -/
theorem unpackFields_toPorts_fits (h : RowFacts c) {v : Nat} (hv : v < 2 ^ c.n) :
    FieldsFit c (unpackFields c v).toPorts ∧ patternOf c (unpackFields c v).toPorts = v := by
  obtain ⟨-, hfields, hpattern, -⟩ := decodePattern_bits_fields_value h .upper hv
  exact ⟨hfields, hpattern⟩

/-- Settles O21: both forms answer `unpackFields` of what they read, which is below `2^N`. -/
theorem unpackTakesThePatternApart : Obligations.UnpackTakesThePatternApart := by
  intro s p q v hq
  have h := registry_facts q
  constructor
  · rintro rfl hlt
    exact ⟨_, exec_unpackInt hq hlt, unpackFields_toPorts_fits h hlt⟩
  · intro hread
    exact ⟨_, exec_unpackStr hq hread, unpackFields_toPorts_fits h (readStr_lt hread)⟩

/-- Settles O22: PACK answers a pattern only for a triple of the precision, and `unpackFields` of its pattern is that
triple, which came from ports and fits them again. -/
theorem unpackInvertsPack : Obligations.UnpackInvertsPack := by
  intro s p q b hq hpack
  have h := registry_facts q
  rw [exec_recognized (i := .pack p) rfl hq, next_answer_inj, opResponse] at hpack
  rcases command_fields_fit_or_out (registry q) s.cmd with ht | hout
  · rw [packResponse_of_fit h ht] at hpack
    cases hpack
    have hlt := Fields.pattern_lt h ht
    have hbits := bitsPort_toNat h hlt
    rw [exec_unpackInt hq (by rw [hbits]; exact hlt), hbits, unpackFields_of_pattern h ht]
    simp [Command.fields, Fields.toPorts]
  · rw [packResponse_of_outOfFields hout] at hpack
    cases hpack

/-! ### The laws of R99 -/

/-- Settles O58: the laws (a) to (e) are `packBits_eq` with `unpackFields_pattern`, `unpackFields_of_pattern`,
`unpackFields_fit`, the two strings' patterns, and `formatGroup_split`. -/
theorem packerLawsHold : Obligations.PackerLawsHold := by
  intro hx q
  have h := registry_facts q
  have pack_unpack : ∀ v, v < 2 ^ (registry q).n → packBits (registry q) (unpackFields (registry q) v).sign
      (unpackFields (registry q) v).exponent (unpackFields (registry q) v).fraction = v := fun v hv => by
    rw [packBits_eq h (unpackFields_fit h hv), unpackFields_pattern h]
  refine ⟨pack_unpack, fun s e f hs he hf => ?_, ⟨fun v hv => ?_, fun v hv w hw heq => ?_, fun t ht => ?_⟩,
    fun v n hv => readPattern_eq_ok.mpr (isPatternText_binStr hx hv),
    fun v n hv => readPattern_eq_ok.mpr (isPatternText_hexStr h hx hv), formatGroup_split h hx⟩
  · have ht : Fields.Fit (registry q) ⟨s, e, f⟩ := ⟨hs, he, hf⟩
    rw [packBits_eq h ht, unpackFields_of_pattern h ht]
  · have ht := unpackFields_fit h hv
    exact ⟨ht.sign_le, ht.exponent_le, ht.fraction_le⟩
  · rw [← pack_unpack v hv, heq, pack_unpack w hw]
  · obtain ⟨hs, he, hf⟩ := ht
    have hfit : t.Fit (registry q) := ⟨hs, he, hf⟩
    exact ⟨t.pattern (registry q), Fields.pattern_lt h hfit, unpackFields_of_pattern h hfit⟩

/-- Settles O27: FORMAT INT answers strings only of an integer that is a pattern, and `packerLawsHold` reads them back. -/
theorem formattedStringsReadBack : Obligations.FormattedStringsReadBack := by
  intro s p q b g hq hformat
  rcases Nat.lt_or_ge (2 ^ (registry q).n - 1) s.cmd.intIn with hwide | hle
  · obtain ⟨-, hfail, -⟩ := exec_int_malformed hq (readInt_of_lt hwide)
    rw [hfail, fail_eq_answer, next_answer_inj] at hformat
    cases hformat
  · rw [exec_of_readPattern (i := .formatInt p) (form := .int) (text := s.cmd.strIn) rfl hq rfl (readInt_of_le hle),
      next_answer_inj] at hformat
    cases hformat
    have hlt : s.cmd.intIn < 2 ^ (registry q).n := (Nat.le_sub_one_iff_lt (Nat.two_pow_pos _)).mp hle
    have laws := packerLawsHold s.build.hexOutCase q
    exact ⟨laws.read_binStr _ 0 hlt, laws.read_hexStr _ 0 hlt⟩

end Sys2Proof.Machine
end

section
/-! PROOFS. ROUND_RNE (`43_rounding.md`): its refusals (R133) and that it rounds to the nearest integer (R135). -/
namespace Sys2Proof.Machine

variable {c : PrecisionConfig} {y : Frac}

theorem roundResponse_of_lt {y : Split} (hm : c.fracMask < y.m) : roundResponse c y = .error .operandRange := by
  rw [roundResponse, if_pos hm]

theorem roundRationalResponse_of_den_eq_zero {cmd : Command} (hd : cmd.den = 0) :
    roundRationalResponse c cmd = .error .operandRange := by
  rw [roundRationalResponse, if_pos hd]

theorem roundRationalResponse_of_den_ne_zero {cmd : Command} (hd : cmd.den ≠ 0) :
    roundRationalResponse c cmd = roundResponse c (grs ⟨cmd.num, cmd.den⟩) := by
  rw [roundRationalResponse, if_neg hd]

/-- Settles O32: one lemma a refusal; a denominator 0 comes first, so the quotient is looked at for others only. -/
theorem roundOutsideItsDomainIsRefused : Obligations.RoundOutsideItsDomainIsRefused := by
  intro s p q hq
  refine ⟨fun hd => ?_, fun hwide => ?_, fun hwide => ?_⟩
  · exact exec_fail_of_opResponse rfl hq (roundRationalResponse_of_den_eq_zero hd)
  · refine exec_fail_of_opResponse (i := .roundRational p) rfl hq ?_
    rw [opResponse]
    by_cases hd : s.cmd.den = 0
    · exact roundRationalResponse_of_den_eq_zero hd
    · rw [roundRationalResponse_of_den_ne_zero hd]
      exact roundResponse_of_lt hwide
  · exact exec_fail_of_opResponse (i := .roundPresplit p) rfl hq (roundResponse_of_lt hwide)

/-- The integer part, plus 1 when the decision of R131 says so, is the nearest integer (R135). -/
theorem nearestEven_grs (hd : 0 < y.den) : NearestEven y.rat ((grs y).m + (roundUp (grs y)).toNat) := by
  obtain ⟨hlow, hhigh⟩ := grs_m_le hd
  have hdecide := roundUp_grs hd
  unfold NearestEven
  cases hup : roundUp (grs y) with
  | true =>
    rw [Bool.toNat_true, Nat.cast_add, Nat.cast_one, abs_of_neg (by linarith)]
    rcases hdecide.mp hup with hgt | ⟨heq, hodd⟩
    · exact ⟨by linarith, fun htie => by linarith⟩
    · exact ⟨by linarith, fun _ => by omega⟩
  | false =>
    rw [hup] at hdecide
    have hnot := not_or.mp fun h => Bool.false_ne_true (hdecide.mpr h)
    rw [Bool.toNat_false, Nat.add_zero, abs_of_nonneg (by linarith)]
    exact ⟨not_lt.mp hnot.1, fun htie => by have := not_and.mp hnot.2 htie; omega⟩

/-- Settles O30: the answered pair is `rne` of the split (`roundResponse_of_le`), which stands for the integer part plus the
decision (`rne_value`), the nearest integer by `nearestEven_grs`. -/
theorem roundRationalToNearestEven : Obligations.RoundRationalToNearestEven := by
  intro s p q hq hd hm
  have h := registry_facts q
  have hf := h.fracMask_eq
  obtain ⟨m, k, hresp, hrne⟩ := roundResponse_of_le (y := grs ⟨s.cmd.num, s.cmd.den⟩) h hm
  obtain ⟨hvalue, hlt, -⟩ := rne_value (y := grs ⟨s.cmd.num, s.cmd.den⟩) (f := (registry q).f)
    (hf ▸ Nat.succ_le_succ hm)
  rw [hrne] at hvalue hlt
  refine ⟨m, k, ?_, by omega, ?_⟩
  · rw [exec_recognized (i := .roundRational p) rfl hq, opResponse, roundRationalResponse_of_den_ne_zero hd, hresp]
  · rw [hvalue]
    exact nearestEven_grs (y := ⟨s.cmd.num, s.cmd.den⟩) (Nat.pos_of_ne_zero hd)

end Sys2Proof.Machine
end

section
/-! PROOFS. The decoded value (`45_decoder.md`): its decimal (R183), its pair and ranges (R182), the order of the patterns
(R187), and what every CodecResult carries (R160, R186). -/
namespace Sys2Proof.Machine

variable {c : PrecisionConfig}

/-! ### The value on its ports -/

/-- A class that is not finite is infinity or NaN. -/
theorem class_isFinite_or (k : Class) : k.isFinite ∨ k = .infinity ∨ k = .nan := by
  cases k <;> simp [Class.isFinite]

/-- A significand and an exponent that fit their ports are read back from them as the same magnitude. -/
theorem toPorts_finite_magnitude {sign : Bit} {m : Nat} {e : ℤ} (hm : m < 2 ^ 113) (he : (BitVec.ofInt 16 e).toInt = e) :
    (Value.finite sign m e).toPorts.magnitude = m * (2 : ℚ) ^ e := by
  simp only [ValueGroup.magnitude, Value.toPorts, he, BitVec.toNat_ofNat, Nat.mod_eq_of_lt hm]

/-- A significand of a precision fits its port (R29). -/
theorem RowFacts.sig_lt (h : RowFacts c) {m : Nat} (hm : m < 2 ^ (c.f + 1)) : m < 2 ^ 113 :=
  hm.trans_le (Nat.pow_le_pow_right (by decide) (Nat.succ_le_succ h.f_le))

/-- What the `value` group of a triple's value carries: the exact shortest decimal of its magnitude (R183). -/
theorem valueOf_toPorts_decimal (h : RowFacts c) {t : Fields} (ht : t.Fit c) :
    let v := (valueOf c t).toPorts
    decRat v.decCoef v.decExp10 = v.magnitude ∧ v.decExp10 ≤ 0 ∧ (v.decExp10 < 0 → v.decCoef % 10 ≠ 0) := by
  intro v
  rcases class_isFinite_or (classifyFields c.expMax t.exponent t.fraction) with hfin | hinf | hnan
  · obtain ⟨m, e, hv, -, hm, -, he⟩ := valueOf_finite h ht hfin
    obtain ⟨hexact, hneg, hshort, -⟩ := shortestDecimal_spec m e
    simp only [v, hv]
    rw [toPorts_finite_magnitude (h.sig_lt hm) he]
    exact ⟨hexact, hneg, hshort⟩
  · simp [v, valueOf, hinf, Value.toPorts, decRat, ValueGroup.magnitude]
  · simp [v, valueOf, hnan, Value.toPorts, decRat, ValueGroup.magnitude]

/-- Zero, infinity and NaN carry the decimal 0 (R183, D34). -/
theorem valueOf_toPorts_decimal_zero {t : Fields} {k : Class} (hk : classifyFields c.expMax t.exponent t.fraction = k)
    (h0 : k = .zero ∨ k = .infinity ∨ k = .nan) :
    (valueOf c t).toPorts.decCoef = 0 ∧ (valueOf c t).toPorts.decExp10 = 0 := by
  rcases h0 with rfl | rfl | rfl <;> simp [valueOf, hk, Value.toPorts, shortestDecimal]

/-- Settles O48: DECODE answers the value of the operand's triple, whose decimal is `valueOf_toPorts_decimal` and
`valueOf_toPorts_decimal_zero`. -/
theorem decodedDecimalIsExactAndShortest : Obligations.DecodedDecimalIsExactAndShortest := by
  intro s p q hq hlt
  have h := registry_facts q
  obtain ⟨hexact, hneg, hshort⟩ := valueOf_toPorts_decimal h (unpackFields_fit h hlt)
  exact ⟨_, exec_decodeInt hq hlt, hexact, hneg, hshort, valueOf_toPorts_decimal_zero rfl⟩

/-! ### The pair -/

/-- The pair of a decoded pattern is that of its class, and lies in the ranges of the precision (R182). -/
theorem decodePattern_pair_ranges (h : RowFacts c) (hx : HexCase) {v : Nat} (hv : v < 2 ^ c.n) :
    let r := decodePattern hx c v
    PairFits c r ∧ r.value.sig.toNat < 2 ^ (c.f + 1) ∧ (r.cls = .subnormal ∨ r.cls = .normal → r.value.sig.toNat ≠ 0
      ∧ 1 - (c.bias : ℤ) - c.f ≤ r.value.exp2.toInt ∧ r.value.exp2.toInt ≤ c.expMax - 1 - (c.bias : ℤ) - c.f) := by
  obtain ⟨-, ⟨-, hfrac⟩, -, hvalue⟩ := decodePattern_bits_fields_value h hx hv
  have hpair := decodePattern_pairFits h hx hv
  have hmask := h.fracMask_lt
  have hmax := h.expMax_ge
  generalize decodePattern hx c v = r at hfrac hvalue hpair ⊢
  refine ⟨hpair, ?_⟩
  rw [pow_succ]
  unfold ValueFits at hvalue
  unfold PairFits at hpair
  cases hk : r.cls with
  | subnormal =>
    rw [hk] at hvalue hpair
    obtain ⟨hsig, hexp⟩ := hpair
    obtain ⟨-, hne, -⟩ := hvalue
    exact ⟨by omega, fun _ => ⟨by omega, by omega, by omega⟩⟩
  | normal =>
    rw [hk] at hvalue hpair
    obtain ⟨hsig, hexp⟩ := hpair
    obtain ⟨hlow, hhigh, -⟩ := hvalue
    exact ⟨by omega, fun _ => ⟨by omega, by omega, by omega⟩⟩
  | zero => rw [hk] at hpair; simp [hpair.1]
  | infinity => rw [hk] at hpair; simp [hpair.1]
  | nan => rw [hk] at hpair; simp [hpair.1]

/-- Settles O49: both forms answer the decoding of what was read, and `decodePattern_pair_ranges` holds of it. -/
theorem decodedValueRanges : Obligations.DecodedValueRanges := by
  intro s p q v hq
  have h := registry_facts q
  constructor
  · rintro rfl hlt
    exact ⟨_, exec_decodeInt hq hlt, decodePattern_pair_ranges h _ hlt⟩
  · intro hread
    exact ⟨_, exec_decodeStr hq hread, decodePattern_pair_ranges h _ (readStr_lt hread)⟩

/-! ### The order of the patterns -/

/-- The low `N-1` bits of a pattern are its exponent and fraction. -/
theorem low_bits_eq (h : RowFacts c) {v : Nat} (hv : v < 2 ^ c.n) :
    v % 2 ^ (c.n - 1) = (unpackFields c v).exponent * 2 ^ c.f + (unpackFields c v).fraction := by
  conv_lhs => rw [← unpackFields_pattern h v]
  rw [Fields.pattern, Nat.add_assoc, Nat.mul_comm, Nat.mul_add_mod,
    Nat.mod_eq_of_lt (Fields.pattern_low_lt h (unpackFields_fit h hv))]

theorem classifyFields_isFinite_iff {m e f : Nat} : (classifyFields m e f).isFinite ↔ e ≠ m := by
  unfold classifyFields Class.isFinite
  split_ifs <;> simp_all

/-- The pairs of the precision below infinity are the finite ones (R120). -/
theorem classifyFields_isFinite_iff_low {e f : Nat} (he : e ≤ c.expMax) (hf : f < 2 ^ c.f) :
    (classifyFields c.expMax e f).isFinite ↔ e * 2 ^ c.f + f < c.expMax * 2 ^ c.f := by
  obtain ⟨hdiv, -⟩ := fields_of_low (e := e) hf
  rw [← Nat.div_lt_iff_lt_mul (Nat.two_pow_pos _), ← hdiv, classifyFields_isFinite_iff]
  exact ⟨lt_of_le_of_ne he, ne_of_lt⟩

/-- The low bits determine the pair. -/
theorem fields_eq_of_low_eq {e f e' f' : Nat} (hf : f < 2 ^ c.f) (hf' : f' < 2 ^ c.f)
    (heq : e * 2 ^ c.f + f = e' * 2 ^ c.f + f') : e = e' ∧ f = f' := by
  obtain ⟨hdiv, hmod⟩ := fields_of_low (e := e) hf
  obtain ⟨hdiv', hmod'⟩ := fields_of_low (e := e') hf'
  rw [heq] at hdiv hmod
  exact ⟨hdiv.trans hdiv'.symm, hmod.trans hmod'.symm⟩

theorem classifyFields_infinity_iff_low {e f : Nat} (hf : f < 2 ^ c.f) :
    classifyFields c.expMax e f = .infinity ↔ e * 2 ^ c.f + f = c.expMax * 2 ^ c.f := by
  refine classifyFields_infinity.trans ⟨fun ⟨he, h0⟩ => by rw [he, h0, Nat.add_zero], fun heq => ?_⟩
  exact fields_eq_of_low_eq hf (Nat.two_pow_pos _) heq

/-- Infinity is the one pattern, up to the sign, whose low bits are `exp_max * 2^F` (R120). -/
theorem decodePattern_infinity_iff (h : RowFacts c) (hx : HexCase) {v : Nat} (hv : v < 2 ^ c.n) :
    (decodePattern hx c v).cls = .infinity ↔ v % 2 ^ (c.n - 1) = c.expMax * 2 ^ c.f := by
  rw [low_bits_eq h hv]
  exact classifyFields_infinity_iff_low ((unpackFields_fit h hv).fraction_le.trans_lt h.fracMask_lt)

/-- The finite patterns are those below infinity, up to the sign (R120). -/
theorem decodePattern_isFinite_iff (h : RowFacts c) (hx : HexCase) {v : Nat} (hv : v < 2 ^ c.n) :
    (decodePattern hx c v).cls.isFinite ↔ v % 2 ^ (c.n - 1) < c.expMax * 2 ^ c.f := by
  have ht := unpackFields_fit h hv
  rw [low_bits_eq h hv]
  exact classifyFields_isFinite_iff_low ht.exponent_le (ht.fraction_le.trans_lt h.fracMask_lt)

/-- Settles O50: without a sign the low bits are the pattern, so what lies below a finite pattern or infinity is finite
(`decodePattern_isFinite_iff`), and the magnitudes are `patValue`, which is strictly increasing. -/
theorem patternOrderIsValueOrder : Obligations.PatternOrderIsValueOrder := by
  intro s t p q hq hlt htop
  have h := registry_facts q
  have hhalf : 2 ^ ((registry q).n - 1) ≤ 2 ^ (registry q).n := Nat.pow_le_pow_right (by decide) (Nat.sub_le _ _)
  have ht : t.cmd.intIn < 2 ^ (registry q).n := htop.trans_le hhalf
  have hs : s.cmd.intIn < 2 ^ (registry q).n := hlt.trans ht
  have htlow := Nat.mod_eq_of_lt htop
  have hslow := Nat.mod_eq_of_lt (hlt.trans htop)
  refine ⟨_, _, exec_decodeInt hq hs, exec_decodeInt hq ht, fun hfin => ?_, fun hinf => ?_⟩
  · have htfin := (decodePattern_isFinite_iff h _ ht).mp hfin
    have hsfin : (decodePattern s.build.hexOutCase (registry q) s.cmd.intIn).cls.isFinite :=
      (decodePattern_isFinite_iff h _ hs).mpr (by rw [hslow]; rw [htlow] at htfin; exact hlt.trans htfin)
    refine ⟨hsfin, ?_⟩
    rw [decodePattern_magnitude h _ hs hsfin, decodePattern_magnitude h _ ht hfin, htlow, hslow]
    exact patValue_strictMono hlt
  · rw [decodePattern_infinity_iff h _ ht, htlow] at hinf
    rw [decodePattern_isFinite_iff h _ hs, hslow]
    exact hinf ▸ hlt

/-! ### Every CodecResult -/

/-- Settles O59: a CodecResult is the decoding of a pattern of the precision, whichever instruction answers it
(`opResponse_codec`), and that carries the fields, value, pair and strings of its pattern. -/
theorem codecResultsCarryTheirValueAndStrings : Obligations.CodecResultsCarryTheirValueAndStrings := by
  intro i s t q r hb hq ht hr
  have h := registry_facts q
  obtain ⟨r', hs⟩ := exec_answers i s
  rw [hs] at ht
  cases ht
  rcases exec_cases i s with ⟨-, he⟩ | ⟨-, -, he⟩ | ⟨-, q', hq', he⟩ <;> rw [hs, next_answer_inj] at he <;> subst he
  · cases hr
  · cases hr
  · cases hq.symm.trans hq'
    obtain ⟨v, hv, rfl⟩ := opResponse_codec hb hr
    obtain ⟨hbits, hfields, hpattern, hvalue⟩ := decodePattern_bits_fields_value h s.build.hexOutCase hv
    rw [hbits]
    exact ⟨hv, hfields, hpattern, hvalue, decodePattern_pairFits h _ hv, formatGroup_stringsFit h _ v⟩

end Sys2Proof.Machine
end

section
/-! PROOFS. The invariant (`10_state.md` section 3): it holds at reset, and every step keeps it. -/
namespace Sys2Proof.Machine

variable {c : PrecisionConfig}

/-- Settles O15: the values of `State.reset`, precision by precision. -/
theorem resetHasNoResponse : Obligations.ResetHasNoResponse := by
  refine ⟨rfl, rfl, rfl, rfl, fun q => ?_⟩
  cases q <;> decide

/-- Settles O16: R7's build is well-formed, and no response stands on the port. -/
theorem invariantAtReset : Obligations.InvariantAtReset := by
  refine ⟨by decide, fun r hr => ?_⟩
  cases hr

/-! ### The responses of a precision -/

variable {b : Build} {q : Precision}

/-- What a rule answers on every pattern of the precision fits if a malformed operand's error does. -/
theorem onPattern_fits {form : OperandForm} {n : Nat} {text : Text} {op : Nat → Response}
    (hop : ∀ v, v < 2 ^ (registry q).n → ResponseFits b q (op v)) :
    ResponseFits b q (onPattern (readPattern (registry q) form n text) op) := by
  cases hread : readPattern (registry q) form n text with
  | error k => trivial
  | ok v => exact hop v (readPattern_lt hread)

theorem packResponse_fits (b : Build) (q : Precision) (cmd : Command) :
    ResponseFits b q (packResponse (registry q) cmd) := by
  have h := registry_facts q
  rcases command_fields_fit_or_out (registry q) cmd with ht | hout
  · rw [packResponse_of_fit h ht, ResponseFits, bitsPort_toNat h (Fields.pattern_lt h ht)]
    exact Fields.pattern_lt h ht
  · rw [packResponse_of_outOfFields hout]
    trivial

theorem classifyResponse_fits (b : Build) (q : Precision) (cmd : Command) :
    ResponseFits b q (classifyResponse (registry q) cmd) := by
  unfold classifyResponse
  split <;> trivial

/-- A carry-out of the Rounding Engine leaves the mantissa 0 (R132). -/
theorem roundResponse_fits (b : Build) (q : Precision) (y : Split) :
    ResponseFits b q (roundResponse (registry q) y) := by
  have h := registry_facts q
  have hf := h.fracMask_eq
  rcases Nat.lt_or_ge (registry q).fracMask y.m with hwide | hm
  · rw [roundResponse_of_lt hwide]
    trivial
  · obtain ⟨m, k, hresp, hrne⟩ := roundResponse_of_le h hm
    obtain ⟨hvalue, hlt, -⟩ := rne_value (y := y) (f := (registry q).f) (by omega)
    have hup : (roundUp y).toNat ≤ 1 := Bool.toNat_le _
    rw [hrne] at hvalue hlt
    rw [hresp]
    refine ⟨by omega, fun hk => ?_⟩
    rw [hk, Bool.toNat_true] at hvalue
    omega

theorem roundRationalResponse_fits (b : Build) (q : Precision) (cmd : Command) :
    ResponseFits b q (roundRationalResponse (registry q) cmd) := by
  by_cases hd : cmd.den = 0
  · rw [roundRationalResponse_of_den_eq_zero hd]
    trivial
  · rw [roundRationalResponse_of_den_ne_zero hd]
    exact roundResponse_fits b q _

/-- Every form of ENCODE answers the decoding of its own pattern (R160). -/
theorem encodeOperand_fits (hb : b.wf = true) (q : Precision) (o : EncodeOperand) :
    CodecFits b.hexOutCase (registry q) (encodeOperand b q o).result := by
  have h := registry_facts q
  obtain ⟨t, ht, hr⟩ := encodeOperand_result hb q o
  rw [hr]
  exact (decodePattern_fits h _ (Fields.pattern_lt h ht)).1

/-- Every rule answers a response of its precision. -/
theorem opResponse_fits {s : State} (hb : s.build.wf = true) (i : Instr) (q : Precision) :
    ResponseFits s.build q (opResponse i s q) := by
  have h := registry_facts q
  have hunpack : ∀ v, v < 2 ^ (registry q).n → ResponseFits s.build q (unpackResponse (registry q) v) :=
    fun v hv => (unpackFields_toPorts_fits h hv).1
  have hformat : ∀ v, v < 2 ^ (registry q).n →
      ResponseFits s.build q (formatResponse s.build.hexOutCase (registry q) v) := fun v hv => by
    rw [formatResponse, ResponseFits, bitsPort_toNat h hv]
    exact ⟨hv, rfl⟩
  have hdecode : ∀ v, v < 2 ^ (registry q).n →
      ResponseFits s.build q (decodeResponse s.build.hexOutCase (registry q) v) :=
    fun v hv => (decodePattern_fits h _ hv).1
  have hencode : ∀ o, CodecFits s.build.hexOutCase (registry q) (encodeOperand s.build q o).result
      ∧ ∀ a, (encodeOperand s.build q o).aux = some a → a.preM.toNat ≤ (registry q).fracMask :=
    fun o => ⟨encodeOperand_fits hb q o, encodeOperand_preM s.build q o⟩
  cases i with
  | configFor p => exact configGroup_toNat h
  | pack p => exact packResponse_fits s.build q s.cmd
  | classify p => exact classifyResponse_fits s.build q s.cmd
  | roundRational p => exact roundRationalResponse_fits s.build q s.cmd
  | roundPresplit p => exact roundResponse_fits s.build q _
  | unpackInt p => exact onPattern_fits hunpack
  | unpackStr p => exact onPattern_fits hunpack
  | formatInt p => exact onPattern_fits hformat
  | formatStr p => exact onPattern_fits hformat
  | decodeInt p => exact onPattern_fits hdecode
  | decodeStr p => exact onPattern_fits hdecode
  | encodeFinite p => exact hencode _
  | encodeInf p => exact hencode _
  | encodeNan p => exact hencode _
  | encodeInvalid p => exact hencode _
  | fpAdd p fa fb => exact onPattern_fits fun va _ => onPattern_fits fun vb _ => hencode _
  | fpMultiply p fa fb => exact onPattern_fits fun va _ => onPattern_fits fun vb _ => hencode _

/-- An error on the port keeps the invariant. -/
theorem inv_answer_error {s : State} (hb : s.build.wf = true) (k : ErrorKind) : Inv (s.answer (.error k)) :=
  ⟨hb, fun _ hr => .inl ⟨k, (Option.some.inj hr).symm⟩⟩

/-- An instruction keeps the invariant in every state of a well-formed build whose command port holds its word. -/
theorem inv_exec {s t : State} {i : Instr} (hb : s.build.wf = true) (hd : decode s.cmd.word = .ok i)
    (ht : exec i s = .next t) : Inv t := by
  rcases exec_cases i s with ⟨-, he⟩ | ⟨-, -, he⟩ | ⟨-, q, hq, he⟩ <;> rw [he] at ht <;> cases ht
  · exact inv_answer_error hb _
  · exact inv_answer_error hb _
  · refine ⟨hb, fun r hr => .inr ⟨q, ?_, ?_⟩⟩
    · rw [answer_cmd, decode_prec hd]
      exact hq
    · cases hr
      exact opResponse_fits hb i q

/-- Settles O17: an idle step changes nothing, an illegal word is answered an error, and an instruction answers a response
of the precision its word names (`inv_exec`). -/
theorem invariantKeptByEveryStep : Obligations.InvariantKeptByEveryStep := by
  intro s t hinv ht
  rcases step_cases s with ⟨-, hs⟩ | ⟨c, rest, e, -, -, hs⟩ | ⟨c, rest, i, -, hd, hs⟩ <;> rw [hs] at ht
  · cases ht
    exact hinv
  · cases ht
    exact inv_answer_error (s := s.take c rest) hinv.1 _
  · exact inv_exec (s := s.take c rest) hinv.1 hd ht

end Sys2Proof.Machine
end

section
/-! PROOFS. The rounding path in terms of the low `N-1` bits of its result (`44_encoder.md` R155 to R159): which end of the
bracket it takes, and what the thresholds of R164 and R166 say about the bracket. -/
namespace Sys2Proof.Machine

variable {c : PrecisionConfig} {car : Nat × Nat} {x y : ℚ} {r : Rounded} {k : Nat}

/-! ### The bracket and the thresholds -/

theorem RowFacts.pow_f_lt_infinity (h : RowFacts c) : 2 ^ c.f < c.expMax * 2 ^ c.f :=
  lt_mul_of_one_lt_left (Nat.two_pow_pos _) (by have := h.expMax_ge; omega)

theorem RoundSpec.lt_minNormal_iff (H : RoundSpec c car x r k) : x < minNormal c ↔ k < 2 ^ c.f := by
  rw [← patValue_two_pow_f]
  refine ⟨bracket_lt H.low, fun hk => H.high.trans_le ?_⟩
  exact patValue_strictMono.monotone (Nat.succ_le_of_lt hk)

/-- In the upper half of its bracket, the midpoint included where the lower end is odd. -/
theorem RoundSpec.roundUp_iff_of_odd (H : RoundSpec c car x r k) (hodd : k % 2 = 1) :
    roundUp r.split = true ↔ (patValue c k + patValue c (k + 1)) / 2 ≤ x := by
  rw [H.up_iff, and_iff_left hodd, eq_comm, ← le_iff_lt_or_eq]

/-- The clamp interval is the upper half of the last subnormal bracket (R166). -/
theorem RoundSpec.clamp_iff (h : RowFacts c) (H : RoundSpec c car x r k) :
    (clampFrom c ≤ x ∧ x < minNormal c) ↔ (k + 1 = 2 ^ c.f ∧ roundUp r.split = true) := by
  have heven := h.pow_f_even 1
  have hpos : 0 < 2 ^ c.f := Nat.two_pow_pos _
  have hlast : 2 ^ c.f - 1 + 1 = 2 ^ c.f := by omega
  have hmid : k + 1 = 2 ^ c.f → (roundUp r.split = true ↔ clampFrom c ≤ x) := fun hk => by
    rw [H.roundUp_iff_of_odd (by omega), clampFrom_eq, ← hk, Nat.add_sub_cancel]
  constructor
  · rintro ⟨hlow, hhigh⟩
    have hlt := H.lt_minNormal_iff.mp hhigh
    have hge : 2 ^ c.f - 1 ≤ k := le_bracket H.high <| by
      rw [clampFrom_eq] at hlow
      have := patValue_strictMono (c := c) (Nat.sub_one_lt hpos.ne')
      linarith
    have hk : k + 1 = 2 ^ c.f := by omega
    exact ⟨hk, (hmid hk).mpr hlow⟩
  · rintro ⟨hk, hup⟩
    exact ⟨(hmid hk).mp hup, H.lt_minNormal_iff.mpr (by omega)⟩

/-- Below the overflow threshold the chosen end lies below infinity (R164). -/
theorem RoundSpec.chosen_lt_infinity (h : RowFacts c) (H : RoundSpec c car x r k) (hx : x < infinityFrom c) :
    k + (roundUp r.split).toNat < c.expMax * 2 ^ c.f := by
  have hk := bracket_lt_infinity h H.low hx
  have heven := h.pow_f_even c.expMax
  have hle : (roundUp r.split).toNat ≤ 1 := Bool.toNat_le _
  by_contra hge
  have htop : k + 1 = c.expMax * 2 ^ c.f := by omega
  have hup : roundUp r.split = true := by
    rcases hb : roundUp r.split with _ | _
    · rw [hb] at hge
      exact absurd hk hge
    · rfl
  rw [H.roundUp_iff_of_odd (by omega)] at hup
  rw [infinityFrom_eq h, ← htop, Nat.add_sub_cancel] at hx
  exact absurd hx (not_lt.mpr hup)

/-- From the overflow threshold on the bracket lies at infinity or beyond, or its chosen upper end is infinity (R164). -/
theorem RoundSpec.chosen_ge_infinity (h : RowFacts c) (H : RoundSpec c car x r k) (hx : infinityFrom c ≤ x) :
    c.expMax * 2 ^ c.f ≤ k ∨ (k + 1 = c.expMax * 2 ^ c.f ∧ roundUp r.split = true) := by
  have heven := h.pow_f_even c.expMax
  have hpos : 0 < c.expMax * 2 ^ c.f := Nat.mul_pos h.expMax_pos (Nat.two_pow_pos _)
  rw [infinityFrom_eq h] at hx
  have hge : c.expMax * 2 ^ c.f - 1 ≤ k := le_bracket H.high <| by
    have := patValue_strictMono (c := c) (Nat.sub_one_lt hpos.ne')
    linarith
  refine or_iff_not_imp_left.mpr fun hk => ?_
  have htop : k + 1 = c.expMax * 2 ^ c.f := by omega
  rw [← htop, Nat.add_sub_cancel] at hx
  exact ⟨htop, (H.roundUp_iff_of_odd (by omega)).mpr hx⟩

/-- Up to half the smallest subnormal, a tie with the even pattern 0, the chosen end is 0 (R164). -/
theorem RoundSpec.chosen_eq_zero_iff (H : RoundSpec c car x r k) :
    x ≤ halfMinSubnormal c ↔ k + (roundUp r.split).toNat = 0 := by
  have hone := patValue_strictMono (c := c) Nat.zero_lt_one
  have hlow := H.low
  rw [halfMinSubnormal_eq]
  constructor
  · intro hx
    have hk : k = 0 := by
      have := bracket_lt H.low (m := 1) (by linarith)
      omega
    subst hk
    have hup : roundUp r.split = false := by
      rw [Bool.eq_false_iff, Ne, H.up_iff]
      rintro (hgt | ⟨-, hodd⟩)
      · exact absurd hx (not_le.mpr hgt)
      · cases hodd
    rw [hup]
    rfl
  · intro h0
    obtain ⟨rfl, hup⟩ : k = 0 ∧ (roundUp r.split).toNat = 0 := by omega
    by_contra hgt
    rw [H.up_iff.mpr (.inl (not_le.mp hgt))] at hup
    cases hup

/-- An exact magnitude is not rounded up. -/
theorem RoundSpec.roundUp_of_exact (H : RoundSpec c car (patValue c k) r k) : roundUp r.split = false := by
  have hlt := patValue_strictMono (c := c) (Nat.lt_succ_self k)
  rw [Bool.eq_false_iff, Ne, H.up_iff]
  rintro (hgt | ⟨heq, -⟩) <;> linarith

/-- The magnitude of a pattern is bracketed by that pattern. -/
theorem RoundSpec.bracket_of_patValue {l : Nat} (H : RoundSpec c car (patValue c l) r k) : k = l := by
  have hle : l ≤ k := le_bracket H.high le_rfl
  have hlt : k < l + 1 := bracket_lt H.low (patValue_strictMono (Nat.lt_succ_self l))
  omega

/-! ### The result's low bits -/

/-- The low `N-1` bits of a result of the rounding path. -/
def Rounded.low (c : PrecisionConfig) (r : Rounded) : Nat := r.exponent * 2 ^ c.f + r.fraction

/-- The low bits of ENCODE's result for the bracket of `k`: infinity where the bracket lies there, the largest subnormal
in the clamp interval, and the chosen end of the bracket elsewhere (R157, R159). -/
def clampedLow (c : PrecisionConfig) (k : Nat) (up : Bool) : Nat :=
  if c.expMax * 2 ^ c.f ≤ k then c.expMax * 2 ^ c.f else if k + 1 = 2 ^ c.f then k else k + up.toNat

/-- ENCODE's carried pair is the largest subnormal. -/
theorem RoundSpec.low_eq_clampedLow (h : RowFacts c) (H : RoundSpec c (0, c.fracMask) x r k) :
    r.low c = clampedLow c k (roundUp r.split) := by
  have hmask := h.fracMask_eq
  unfold Rounded.low clampedLow
  split_ifs with hinf hlast
  · obtain ⟨he, hf, -, -⟩ := H.overflow hinf
    rw [he, hf, Nat.add_zero]
  · rcases hup : roundUp r.split with _ | _
    · obtain ⟨hlow, -⟩ := H.plain (by omega) (by simp [hup])
      rw [hlow, hup, Bool.toNat_false, Nat.add_zero]
    · obtain ⟨he, hf, -, -⟩ := H.carry hlast hup
      rw [he, hf]
      omega
  · exact (H.plain (by omega) fun hc => hlast hc.1).1

/-- The host's carried pair is the smallest normal number, so its low bits are the chosen end up to infinity (R203). -/
theorem RoundSpec.low_promoted (H : RoundSpec c (1, 0) x r k) (hk : k < c.expMax * 2 ^ c.f) :
    r.low c = k + (roundUp r.split).toNat := by
  by_cases hc : k + 1 = 2 ^ c.f ∧ roundUp r.split = true
  · obtain ⟨he, hf, -, -⟩ := H.carry hc.1 hc.2
    rw [Rounded.low, he, hf, hc.2, Bool.toNat_true, hc.1, Nat.one_mul, Nat.add_zero]
  · exact (H.plain hk hc).1

theorem clampedLow_lt_infinity {up : Bool} (hk : k + up.toNat < c.expMax * 2 ^ c.f) :
    clampedLow c k up < c.expMax * 2 ^ c.f := by
  unfold clampedLow
  split_ifs <;> omega

/-- Outside the clamp the low bits below infinity are the chosen end. -/
theorem clampedLow_eq_chosen {up : Bool} (hk : k < c.expMax * 2 ^ c.f) (hclamp : ¬ (k + 1 = 2 ^ c.f ∧ up = true)) :
    clampedLow c k up = k + up.toNat := by
  unfold clampedLow
  rw [if_neg (by omega)]
  split_ifs with hlast
  · rw [Bool.eq_false_iff.mpr fun hup => hclamp ⟨hlast, hup⟩]
    rfl
  · rfl

/-- The low bits lie below `2^F` exactly for a bracket of subnormals: that is what the clamp is for. -/
theorem clampedLow_lt_pow_f_iff (h : RowFacts c) (up : Bool) : clampedLow c k up < 2 ^ c.f ↔ k < 2 ^ c.f := by
  have := h.pow_f_lt_infinity
  have hup : up.toNat ≤ 1 := Bool.toNat_le _
  unfold clampedLow
  split_ifs <;> omega

theorem clampedLow_eq_zero_iff (h : RowFacts c) (up : Bool) : clampedLow c k up = 0 ↔ k + up.toNat = 0 := by
  have := h.pow_f_lt_infinity
  have := h.two_le_pow_f
  have hup : up.toNat ≤ 1 := Bool.toNat_le _
  unfold clampedLow
  split_ifs <;> omega

theorem clampedLow_of_infinity {up : Bool} (h : RowFacts c)
    (hk : c.expMax * 2 ^ c.f ≤ k ∨ (k + 1 = c.expMax * 2 ^ c.f ∧ up = true)) :
    clampedLow c k up = c.expMax * 2 ^ c.f := by
  have := h.pow_f_lt_infinity
  unfold clampedLow
  rcases hk with hk | ⟨hk, rfl⟩
  · rw [if_pos hk]
  · rw [if_neg (by omega), if_neg (by omega), Bool.toNat_true, hk]

/-- A greater bracket, or the same one rounded up, never has smaller low bits. -/
theorem clampedLow_mono {l : Nat} {up up' : Bool} (hlt : k < l ∨ k = l ∧ (up = true → up' = true)) :
    clampedLow c k up ≤ clampedLow c l up' := by
  have hup : up.toNat ≤ 1 := Bool.toNat_le _
  unfold clampedLow
  rcases hlt with hlt | ⟨rfl, himp⟩
  · split_ifs <;> omega
  · have : up.toNat ≤ up'.toNat := by cases up <;> cases up' <;> simp_all
    split_ifs <;> omega

/-- Of two magnitudes the smaller has the smaller bracket, or the same one and is rounded up only with the greater. -/
theorem RoundSpec.bracket_mono {car' : Nat × Nat} {r' : Rounded} {l : Nat} (H : RoundSpec c car x r k)
    (H' : RoundSpec c car' y r' l) (hxy : x ≤ y) :
    k < l ∨ k = l ∧ (roundUp r.split = true → roundUp r'.split = true) := by
  have hle : k ≤ l := le_bracket H'.high (H.low.trans hxy)
  rcases hle.lt_or_eq with hlt | rfl
  · exact .inl hlt
  · refine .inr ⟨rfl, fun hup => ?_⟩
    rw [H'.up_iff]
    rcases H.up_iff.mp hup with hgt | ⟨heq, hodd⟩
    · exact .inl (hgt.trans_le hxy)
    · rw [heq] at hxy
      exact hxy.lt_or_eq.imp id fun heq' => ⟨heq'.symm, hodd⟩

/-- A result whose low bits are the chosen end of its bracket is a nearest value, ties to even (R165). -/
theorem RoundSpec.nearestValue (h : RowFacts c) (H : RoundSpec c car x r k) (hf : r.fraction < 2 ^ c.f)
    (hlow : r.low c = k + (roundUp r.split).toNat) : NearestValue c x r.exponent r.fraction := by
  intro e' f' _ hf'
  have hparity : r.low c % 2 = r.fraction % 2 := mod_two_of_band h r.exponent r.fraction
  rw [← patValue_fields hf, ← patValue_fields (hf'.trans_lt h.fracMask_lt), ← hparity]
  change |x - patValue c (r.low c)| ≤ _ ∧ (|x - patValue c (r.low c)| = _ → patValue c (r.low c) = _ ∨ _)
  rw [hlow]
  exact nearest_pattern H.low H.high H.up_iff _

end Sys2Proof.Machine
end

section
/-! PROOFS. ENCODE FINITE (`44_encoder.md` sections 3 and 4): its result by the magnitude of the operand (R164 to R166), and
what it reports of its rounding (R161, R162). -/
namespace Sys2Proof.Machine

variable {c : PrecisionConfig} {car : Nat × Nat} {r : Rounded} {k : Nat}

/-! ### The CodecResult of a triple -/

/-- Nothing of the packed fields is lost on their ports (R210). -/
theorem finish_fields_toNat (h : RowFacts c) (hx : HexCase) {sign : Bit} {e f : Nat}
    (ht : Fields.Fit c ⟨sign.toNat, e, f⟩) :
    (finish hx c sign.toNat e f).fields.sign = sign ∧ (finish hx c sign.toNat e f).fields.exponent.toNat = e
      ∧ (finish hx c sign.toNat e f).fields.fraction.toNat = f := by
  obtain ⟨hs, he, hf⟩ := Fields.toPorts_toNat h ht
  exact ⟨BitVec.eq_of_toNat_eq hs, he, hf⟩

/-- The value of finite fields: the sign they have, and the magnitude of their low bits (R181). -/
theorem finish_value_finite (h : RowFacts c) (hx : HexCase) {sign : Bit} {e f : Nat}
    (ht : Fields.Fit c ⟨sign.toNat, e, f⟩) (hfin : (classifyFields c.expMax e f).isFinite) :
    (finish hx c sign.toNat e f).value.kind = .finite
      ∧ (finish hx c sign.toNat e f).value.magnitude = patValue c (e * 2 ^ c.f + f) := by
  obtain ⟨m, x, hv, hmag, hm, -, hexp⟩ := valueOf_finite h ht hfin
  rw [finish_value, hv, toPorts_finite_magnitude (h.sig_lt hm) hexp]
  exact ⟨rfl, hmag⟩

/-! ### The class by the low bits -/

theorem classifyFields_zero_iff_low (h : RowFacts c) {e f : Nat} :
    classifyFields c.expMax e f = .zero ↔ e * 2 ^ c.f + f = 0 := by
  have hpos : 0 < 2 ^ c.f := Nat.two_pow_pos _
  rw [classifyFields_zero h.expMax_pos, Nat.add_eq_zero_iff, Nat.mul_eq_zero, or_iff_left hpos.ne']

/-- The pairs with exponent 0 are those below the smallest normal pattern. -/
theorem exponent_eq_zero_iff_low {e f : Nat} (hf : f < 2 ^ c.f) : e = 0 ↔ e * 2 ^ c.f + f < 2 ^ c.f := by
  obtain ⟨hdiv, -⟩ := fields_of_low (e := e) hf
  rw [← Nat.div_eq_zero_iff_lt (Nat.two_pow_pos _), ← hdiv]

theorem classifyFields_subnormal_iff_low (h : RowFacts c) {e f : Nat} (hf : f < 2 ^ c.f) :
    classifyFields c.expMax e f = .subnormal ↔ e * 2 ^ c.f + f ≠ 0 ∧ e * 2 ^ c.f + f < 2 ^ c.f := by
  rw [classifyFields_subnormal h.expMax_pos, ← exponent_eq_zero_iff_low hf, and_comm]
  refine and_congr_left fun he => ?_
  rw [he, Nat.zero_mul, Nat.zero_add]

theorem classifyFields_normal_iff_low {e f : Nat} (he : e ≤ c.expMax) (hf : f < 2 ^ c.f) :
    classifyFields c.expMax e f = .normal ↔ e * 2 ^ c.f + f < c.expMax * 2 ^ c.f ∧ 2 ^ c.f ≤ e * 2 ^ c.f + f := by
  rw [classifyFields_normal, ← not_lt (b := 2 ^ c.f), ← exponent_eq_zero_iff_low hf,
    ← classifyFields_isFinite_iff_low he hf, classifyFields_isFinite_iff]

theorem classifyFields_isFinite_of_ne_infinity {m e f : Nat} (hnan : e = m → f = 0)
    (hne : classifyFields m e f ≠ .infinity) : (classifyFields m e f).isFinite :=
  classifyFields_isFinite_iff.mpr fun he => hne (classifyFields_infinity.mpr ⟨he, hnan he⟩)

/-! ### The rounding path of ENCODE -/

/-- The rounding path of ENCODE FINITE, whose carry out of the subnormals is clamped (R157). -/
def encodeRounded (q : Precision) (coef : Nat) (exp10 : Int) : Rounded :=
  roundMagnitude (registry q) (0, (registry q).fracMask) (dec coef exp10)

theorem encodeOperand_nonzero (b : Build) (q : Precision) (sign : Bit) {coef : Nat} (hc : coef ≠ 0) (exp10 : Int) :
    encodeOperand b q (.finite sign coef exp10) =
      { result := finish b.hexOutCase (registry q) sign.toNat (encodeRounded q coef exp10).exponent
          (encodeRounded q coef exp10).fraction,
        aux := some (encodeRounded q coef exp10).toAux, reason := .none } := by
  rw [encodeOperand, if_neg hc]
  rfl

theorem encodeRounded_spec (q : Precision) {coef : Nat} (hc : coef ≠ 0) (exp10 : Int) :
    ∃ k, RoundSpec (registry q) (0, (registry q).fracMask) (decRat coef exp10) (encodeRounded q coef exp10) k := by
  rw [← dec_rat]
  exact roundMagnitude_spec (registry_facts q) _ (dec_num_pos hc exp10) (dec_den_pos coef exp10)

/-- The low bits of ENCODE's result, with its triple: one of the precision and no NaN (R167). -/
theorem RoundSpec.encode_fit {q : Precision} {x : ℚ}
    (H : RoundSpec (registry q) (0, (registry q).fracMask) x r k) (sign : Bit) :
    Fields.Fit (registry q) ⟨sign.toNat, r.exponent, r.fraction⟩ ∧ r.fraction < 2 ^ (registry q).f
      ∧ (r.exponent = (registry q).expMax → r.fraction = 0) := by
  have h := registry_facts q
  obtain ⟨ht, hnan⟩ := RoundSpec.fit h h.expMax_pos le_rfl H sign
  exact ⟨ht, ht.fraction_le.trans_lt h.fracMask_lt, hnan⟩

/-- ENCODE FINITE answers the rounding path's result, with the command's sign, form and decimal as the echo (R162). -/
theorem exec_encodeFinite_nonzero {s : State} {p : PrecCode} {q : Precision} (hq : precisionOf p = some q)
    (hc : s.cmd.coef ≠ 0) :
    exec (.encodeFinite p) s = .next (s.answer (.encoded
      { inSign := s.cmd.sign, inKind := .finite, inMagnitude := some (s.cmd.coef, s.cmd.exp10) }
      { result := finish s.build.hexOutCase (registry q) s.cmd.sign.toNat (encodeRounded q s.cmd.coef s.cmd.exp10).exponent
          (encodeRounded q s.cmd.coef s.cmd.exp10).fraction,
        aux := some (encodeRounded q s.cmd.coef s.cmd.exp10).toAux, reason := .none })) := by
  rw [exec_recognized (i := .encodeFinite p) rfl hq, opResponse, encodeOperand_nonzero _ _ _ hc]

/-- Settles O38: outside the clamp the result is the chosen end of the bracket (`clampedLow_eq_chosen`), a nearest value by
`RoundSpec.nearestValue`, and below the overflow threshold it lies below infinity (`RoundSpec.chosen_lt_infinity`). -/
theorem encodeRoundsToNearestValue : Obligations.EncodeRoundsToNearestValue := by
  intro s p q hq hc x hthreshold hclamp
  have h := registry_facts q
  obtain ⟨k, H⟩ := encodeRounded_spec q hc s.cmd.exp10
  obtain ⟨ht, hf, -⟩ := H.encode_fit s.cmd.sign
  obtain ⟨hsign, hexp, hfrac⟩ := finish_fields_toNat h s.build.hexOutCase ht
  have hchosen := H.chosen_lt_infinity h hthreshold
  have hlow := (H.low_eq_clampedLow h).trans
    (clampedLow_eq_chosen (by omega) fun hup => hclamp ((H.clamp_iff h).mpr hup))
  have hfin : (classifyFields (registry q).expMax _ _).isFinite :=
    (classifyFields_isFinite_iff_low ht.exponent_le hf).mpr (hlow.trans_lt hchosen)
  obtain ⟨hkind, hmag⟩ := finish_value_finite h s.build.hexOutCase ht hfin
  refine ⟨_, _, exec_encodeFinite_nonzero hq hc, hsign, ?_, hkind, ?_, ?_⟩
  · rw [hexp]
    exact ht.exponent_le.lt_of_ne (classifyFields_isFinite_iff.mp hfin)
  · rw [hmag, hexp, hfrac, patValue_fields hf]
  · rw [hexp, hfrac]
    exact H.nearestValue h hf hlow

/-- A carry-out without an exponent increment is the clamp: elsewhere the two bits are equal. -/
theorem RoundSpec.clamped_iff {x : ℚ} (H : RoundSpec c car x r k) :
    (k + 1 = 2 ^ c.f ∧ roundUp r.split = true) ↔ (r.roundCarry = true ∧ r.expCarry = false) := by
  constructor
  · rintro ⟨hlast, hup⟩
    exact (H.carry hlast hup).2.2
  · rintro ⟨hcarry, hexp⟩
    by_contra hc
    rcases Nat.lt_or_ge k (c.expMax * 2 ^ c.f) with hk | hk
    · obtain ⟨-, -, -, heq⟩ := H.plain hk hc
      rw [hcarry, hexp] at heq
      cases heq
    · obtain ⟨-, -, hno, -⟩ := H.overflow hk
      rw [hcarry] at hno
      cases hno

/-- Settles O39: the clamp interval is the bracket below the smallest normal, rounded up (`RoundSpec.clamp_iff`), which is
where the path carries without incrementing (`RoundSpec.clamped_iff`), and there the carried pair is the answer. -/
theorem encodeClampsInTheInterval : Obligations.EncodeClampsInTheInterval := by
  intro s p q hq hc x
  have h := registry_facts q
  obtain ⟨k, H⟩ := encodeRounded_spec q hc s.cmd.exp10
  obtain ⟨ht, -, -⟩ := H.encode_fit s.cmd.sign
  obtain ⟨hsign, hexp, hfrac⟩ := finish_fields_toNat h s.build.hexOutCase ht
  have hinterval := H.clamp_iff h
  refine ⟨_, _, _, exec_encodeFinite_nonzero hq hc, rfl, hinterval.trans H.clamped_iff, fun hin => ?_⟩
  obtain ⟨hlast, hup⟩ := hinterval.mp hin
  obtain ⟨he, hf, -, -⟩ := H.carry hlast hup
  have hmask : (registry q).fracMask ≠ 0 := by
    have := h.two_le_pow_f
    have := h.fracMask_eq
    omega
  exact ⟨hsign, BitVec.eq_of_toNat_eq (hexp.trans he), hfrac.trans hf,
    (classifyFields_subnormal h.expMax_pos).mpr ⟨he, hf.trans_ne hmask⟩⟩

/-- Settles O40: the class is read off the low bits of the result, which `clampedLow` gives for the bracket, and each
threshold says where the bracket and its chosen end lie. -/
theorem encodeClassByMagnitude : Obligations.EncodeClassByMagnitude := by
  intro s p q hq hc x
  have h := registry_facts q
  obtain ⟨k, H⟩ := encodeRounded_spec q hc s.cmd.exp10
  obtain ⟨ht, hf, hnan⟩ := H.encode_fit s.cmd.sign
  obtain ⟨hsign, hexp, hfrac⟩ := finish_fields_toNat h s.build.hexOutCase ht
  have hlow := H.low_eq_clampedLow h
  unfold Rounded.low at hlow
  refine ⟨_, _, exec_encodeFinite_nonzero hq hc, hsign, fun hsmall => ?_, fun hbig hsub => ?_, fun hnormal hbelow => ?_,
    fun hover => ?_⟩
  · have hcls := (classifyFields_zero_iff_low h).mpr
      (hlow.trans ((clampedLow_eq_zero_iff h _).mpr (H.chosen_eq_zero_iff.mp hsmall)))
    obtain ⟨he, hf0⟩ := (classifyFields_zero h.expMax_pos).mp hcls
    exact ⟨hcls, BitVec.eq_of_toNat_eq (hexp.trans he), BitVec.eq_of_toNat_eq (hfrac.trans hf0)⟩
  · have hcls := (classifyFields_subnormal_iff_low h hf).mpr (by
      rw [hlow, clampedLow_lt_pow_f_iff h, Ne, clampedLow_eq_zero_iff h, ← H.chosen_eq_zero_iff, ← H.lt_minNormal_iff]
      exact ⟨not_le.mpr hbig, hsub⟩)
    exact ⟨hcls, BitVec.eq_of_toNat_eq (hexp.trans ((classifyFields_subnormal h.expMax_pos).mp hcls).1)⟩
  · refine (classifyFields_normal_iff_low ht.exponent_le hf).mpr ?_
    rw [hlow, ← not_lt, clampedLow_lt_pow_f_iff h, ← H.lt_minNormal_iff]
    exact ⟨clampedLow_lt_infinity (H.chosen_lt_infinity h hbelow), not_lt.mpr hnormal⟩
  · have hcls := (classifyFields_infinity_iff_low hf).mpr
      (hlow.trans (clampedLow_of_infinity h (H.chosen_ge_infinity h hover)))
    obtain ⟨he, hf0⟩ := classifyFields_infinity.mp hcls
    exact ⟨hcls, hexp.trans he, BitVec.eq_of_toNat_eq (hfrac.trans hf0)⟩

/-! ### The metadata -/

theorem roundMagnitude_e (c : PrecisionConfig) (car : Nat × Nat) (x : Frac) :
    (roundMagnitude c car x).e = floorLog2 x := by
  simp only [roundMagnitude, subnormalPath, normalPath]
  split_ifs <;> rfl

/-- The mantissa that is split: scaled to the last subnormal place, or normalised and scaled to the last place (R157,
R158). -/
def scaledMantissa (c : PrecisionConfig) (x : Frac) : Frac :=
  if floorLog2 x < 1 - c.bias then x.scale2 (c.f + c.bias - 1) else (x.scale2 (-floorLog2 x)).minusOne.scale2 c.f

theorem roundMagnitude_split (c : PrecisionConfig) (car : Nat × Nat) (x : Frac) :
    (roundMagnitude c car x).split = grs (scaledMantissa c x) := by
  simp only [roundMagnitude, subnormalPath, normalPath, scaledMantissa]
  split_ifs <;> rfl

theorem scaledMantissa_den_pos (c : PrecisionConfig) {x : Frac} (hd : 0 < x.den) : 0 < (scaledMantissa c x).den := by
  unfold scaledMantissa
  split_ifs
  · exact Frac.scale2_den_pos hd _
  · exact Frac.scale2_den_pos (x := (x.scale2 (-floorLog2 x)).minusOne) (Frac.scale2_den_pos hd _) _

theorem scaledMantissa_rat (c : PrecisionConfig) {x : Frac} (hn : 0 < x.num) (hd : 0 < x.den) :
    (scaledMantissa c x).rat = if floorLog2 x < 1 - c.bias then x.rat * (2 : ℚ) ^ (c.f + c.bias - 1 : ℤ)
      else (x.rat / (2 : ℚ) ^ floorLog2 x - 1) * 2 ^ c.f := by
  have hnormal : (x.scale2 (-floorLog2 x)).rat = x.rat / (2 : ℚ) ^ floorLog2 x := by
    rw [Frac.scale2_rat, zpow_neg, div_eq_mul_inv]
  have hone : 1 ≤ (x.scale2 (-floorLog2 x)).rat := by
    rw [hnormal, le_div_iff₀ (by positivity), one_mul]
    exact (floorLog2_spec hn hd).1
  unfold scaledMantissa
  split_ifs
  · rw [Frac.scale2_rat]
  · rw [Frac.scale2_rat, Frac.minusOne_rat (Frac.scale2_den_pos hd _) hone, hnormal, zpow_natCast]

/-- The carry-out of the path: below the overflow exit, a full fraction that is rounded up (R132, R159). -/
theorem RoundSpec.roundCarry_iff (h : RowFacts c) {x : ℚ} (H : RoundSpec c car x r k) :
    r.roundCarry = true ↔ r.e + c.bias < c.expMax ∧ roundUp r.split = true ∧ r.split.m + 1 = 2 ^ c.f := by
  have hpos : 0 < 2 ^ c.f := Nat.two_pow_pos _
  have hexit : r.e + c.bias < c.expMax ↔ k < c.expMax * 2 ^ c.f := by
    by_cases he : 1 - (c.bias : ℤ) ≤ r.e
    · rw [H.biased he, Nat.cast_lt, Nat.div_lt_iff_lt_mul hpos]
    · have hsub := H.subnormal_iff.mp (not_le.mp he)
      have := h.pow_f_lt_infinity
      have := h.expMax_pos
      exact iff_of_true (by omega) (by omega)
  have hfull : k % 2 ^ c.f + 1 = 2 ^ c.f ↔ (k + 1) % 2 ^ c.f = 0 := by
    rw [← Nat.mod_add_mod]
    rcases (Nat.succ_le_of_lt (Nat.mod_lt k hpos)).lt_or_eq with hlt | heq
    · rw [Nat.mod_eq_of_lt hlt]
      omega
    · exact iff_of_true heq ((congrArg (· % 2 ^ c.f) heq).trans (Nat.mod_self _))
  rw [hexit, H.split_m]
  rcases Nat.lt_or_ge k (c.expMax * 2 ^ c.f) with hk | hk
  · by_cases hc : k + 1 = 2 ^ c.f ∧ roundUp r.split = true
    · exact iff_of_true (H.carry hc.1 hc.2).2.2.1 ⟨hk, hc.2, hfull.mpr (by rw [hc.1, Nat.mod_self])⟩
    · rw [(H.plain hk hc).2.2.1, hfull, and_iff_right hk]
  · obtain ⟨-, -, hno, -⟩ := H.overflow hk
    rw [hno]
    exact iff_of_false (by decide) fun hlt => absurd hk (not_le.mpr hlt.1)

/-- A carry-out of the normal path increments the exponent, one of the subnormal path does not (R157, R159). -/
theorem RoundSpec.expCarry_iff {x : ℚ} (H : RoundSpec c car x r k) :
    r.expCarry = true ↔ r.roundCarry = true ∧ 1 - (c.bias : ℤ) ≤ r.e := by
  rcases Nat.lt_or_ge k (c.expMax * 2 ^ c.f) with hk | hk
  · by_cases hc : k + 1 = 2 ^ c.f ∧ roundUp r.split = true
    · obtain ⟨-, -, -, hno⟩ := H.carry hc.1 hc.2
      rw [hno]
      exact iff_of_false (by decide) fun hge => absurd (H.subnormal_iff.mpr (by omega)) (not_lt.mpr hge.2)
    · obtain ⟨-, -, hcarry, heq⟩ := H.plain hk hc
      rw [heq]
      refine (and_iff_left_of_imp fun hup => not_lt.mp fun hsub => hc ?_).symm
      obtain ⟨hround, hmod⟩ := hcarry.mp hup
      have hlt := H.subnormal_iff.mp hsub
      refine ⟨?_, hround⟩
      rcases (Nat.succ_le_of_lt hlt).lt_or_eq with hlt' | heq'
      · rw [Nat.mod_eq_of_lt hlt'] at hmod
        cases hmod
      · exact heq'
  · obtain ⟨-, -, hno, hno'⟩ := H.overflow hk
    rw [hno, hno']
    exact iff_of_false (by decide) fun hge => by cases hge.1

/-- Settles O41: the exponent is `floorLog2` of the operand, the split is that of the scaled mantissa
(`roundMagnitude_split`, `splitIsFloorAndBits`) and fits its port, and the two carries are `RoundSpec.roundCarry_iff` and
`RoundSpec.expCarry_iff`. -/
theorem encodeReportsItsRounding : Obligations.EncodeReportsItsRounding := by
  intro s p q hq hc x c
  have h := registry_facts q
  obtain ⟨k, H⟩ := encodeRounded_spec q hc s.cmd.exp10
  have hn := dec_num_pos hc s.cmd.exp10
  have hd := dec_den_pos s.cmd.coef s.cmd.exp10
  have he : (encodeRounded q s.cmd.coef s.cmd.exp10).toAux.preE = floorLog2 (dec s.cmd.coef s.cmd.exp10) :=
    roundMagnitude_e ..
  have hm : (encodeRounded q s.cmd.coef s.cmd.exp10).toAux.preM.toNat
      = (encodeRounded q s.cmd.coef s.cmd.exp10).split.m := by
    have hlt : k % 2 ^ c.f < 2 ^ c.f := Nat.mod_lt _ (Nat.two_pow_pos _)
    rw [Rounded.toAux, BitVec.toNat_ofNat, H.split_m, Nat.mod_eq_of_lt (hlt.trans_le h.pow_f_le)]
  have hbracket := floorLog2_spec hn hd
  have hsplit := splitIsFloorAndBits _ (scaledMantissa_den_pos c hd)
  rw [scaledMantissa_rat c hn hd, ← roundMagnitude_split c (0, c.fracMask)] at hsplit
  rw [dec_rat] at hbracket hsplit
  refine ⟨_, _, exec_encodeFinite_nonzero hq hc, rfl, rfl, ?_, ?_, ?_, ?_, H.expCarry_iff⟩
  · rw [he]; exact hbracket.1
  · rw [he]; exact hbracket.2
  · rw [he, hm]; exact hsplit
  · rw [hm]; exact (H.roundCarry_iff h).trans (by rw [roundUp_iff_roundsUp]; rfl)

/-- A magnitude of the precision is its own result, unrounded: no bit is left over and nothing carries (R168). -/
theorem RoundSpec.result_of_patValue (h : RowFacts c) {l : Nat} (H : RoundSpec c (0, c.fracMask) (patValue c l) r k)
    (hl : l < c.expMax * 2 ^ c.f) :
    r.low c = l ∧ r.split.g = false ∧ r.split.r = false ∧ r.split.s = false ∧ r.roundCarry = false := by
  obtain rfl := H.bracket_of_patValue
  have hup := H.roundUp_of_exact
  obtain ⟨hg, hr, hs⟩ := H.exact_iff.mpr rfl
  refine ⟨?_, hg, hr, hs, ?_⟩
  · rw [H.low_eq_clampedLow h, hup, clampedLow_eq_chosen hl (by simp), Bool.toNat_false, Nat.add_zero]
  · rw [Bool.eq_false_iff, Ne, H.roundCarry_iff h, hup]
    exact fun hc => Bool.false_ne_true hc.2.1

/-- The three bits are 0 exactly when the result is the operand: a bracket's lower end is its own result, and no other
operand of the bracket has that result or the upper end (R168). -/
theorem RoundSpec.exact_iff_low (h : RowFacts c) {x : ℚ} (H : RoundSpec c (0, c.fracMask) x r k)
    (hfin : r.low c < c.expMax * 2 ^ c.f) :
    (r.split.g = false ∧ r.split.r = false ∧ r.split.s = false) ↔ patValue c (r.low c) = x := by
  have hlow := H.low_eq_clampedLow h
  rw [H.exact_iff]
  constructor
  · rintro rfl
    rw [hlow, H.roundUp_of_exact] at hfin ⊢
    unfold clampedLow at hfin ⊢
    split_ifs at hfin ⊢
    · exact absurd hfin (lt_irrefl _)
    · rfl
    · rfl
  · intro heq
    rw [← heq] at H ⊢
    rw [H.bracket_of_patValue]

/-- Law (f): the bits are reported as they are, a result that is not infinity lies below it, and its magnitude is that of
its low bits; so `RoundSpec.exact_iff_low` decides. -/
theorem encodeOperand_exact_bits (b : Build) (q : Precision) (sign : Bit) {coef : Nat} (hc : coef ≠ 0) (exp10 : ℤ) :
    ∃ a, (encodeOperand b q (.finite sign coef exp10)).aux = some a
      ∧ ((encodeOperand b q (.finite sign coef exp10)).result.cls ≠ .infinity →
        ((a.g = false ∧ a.r = false ∧ a.s = false) ↔
          (encodeOperand b q (.finite sign coef exp10)).result.value.magnitude = decRat coef exp10)) := by
  have h := registry_facts q
  obtain ⟨k, H⟩ := encodeRounded_spec q hc exp10
  obtain ⟨ht, hf, hnan⟩ := H.encode_fit sign
  rw [encodeOperand_nonzero b q sign hc]
  refine ⟨_, rfl, fun hcls => ?_⟩
  have hfin := classifyFields_isFinite_of_ne_infinity hnan hcls
  rw [(finish_value_finite h b.hexOutCase ht hfin).2]
  exact H.exact_iff_low h ((classifyFields_isFinite_iff_low ht.exponent_le hf).mp hfin)

/-- Settles O42: `encodeOperand_exact_bits` of the command's decimal. -/
theorem encodeBitsTellExactness : Obligations.EncodeBitsTellExactness := by
  intro s p q hq hc
  obtain ⟨a, ha, hbits⟩ := encodeOperand_exact_bits s.build q s.cmd.sign hc s.cmd.exp10
  exact ⟨_, _, a, exec_recognized (i := .encodeFinite p) rfl hq, ha, hbits⟩

end Sys2Proof.Machine
end

section
/-! PROOFS. The laws of the encoder (`44_encoder.md` section 4, R168), over `encodeOperand`, and what they say of the
instructions. -/
namespace Sys2Proof.Machine

variable {c : PrecisionConfig} {q : Precision}

/-! ### The fields of an encoded decimal, zero included -/

/-- The exponent and fraction fields ENCODE FINITE packs (R151, R155 to R159). -/
def encodeFields (q : Precision) (coef : Nat) (exp10 : Int) : Nat × Nat :=
  if coef = 0 then (0, 0) else ((encodeRounded q coef exp10).exponent, (encodeRounded q coef exp10).fraction)

theorem encodeFields_zero (q : Precision) (exp10 : Int) : encodeFields q 0 exp10 = (0, 0) := rfl

theorem encodeFields_nonzero (q : Precision) {coef : Nat} (hc : coef ≠ 0) (exp10 : Int) :
    encodeFields q coef exp10 = ((encodeRounded q coef exp10).exponent, (encodeRounded q coef exp10).fraction) := by
  rw [encodeFields, if_neg hc]

theorem encodeOperand_finite_result (b : Build) (q : Precision) (sign : Bit) (coef : Nat) (exp10 : Int) :
    (encodeOperand b q (.finite sign coef exp10)).result =
      finish b.hexOutCase (registry q) sign.toNat (encodeFields q coef exp10).1 (encodeFields q coef exp10).2 := by
  by_cases hc : coef = 0
  · rw [hc, encodeOperand_zero, encodeFields_zero]
  · rw [encodeOperand_nonzero b q sign hc, encodeFields_nonzero q hc]

/-- Sign and magnitude do not meet before the fields are packed. -/
theorem encodeOperand_finite_aux_reason (b : Build) (q : Precision) (s t : Bit) (coef : Nat) (exp10 : Int) :
    (encodeOperand b q (.finite s coef exp10)).aux = (encodeOperand b q (.finite t coef exp10)).aux
      ∧ (encodeOperand b q (.finite s coef exp10)).reason = (encodeOperand b q (.finite t coef exp10)).reason := by
  by_cases hc : coef = 0
  · simp only [hc, encodeOperand_zero, and_self]
  · simp only [encodeOperand_nonzero b q _ hc, and_self]

/-- They are the fields of a number or an infinity of the precision (R167). -/
theorem encodeFields_fit (q : Precision) (sign : Bit) (coef : Nat) (exp10 : Int) :
    Fields.Fit (registry q) ⟨sign.toNat, (encodeFields q coef exp10).1, (encodeFields q coef exp10).2⟩
      ∧ ((encodeFields q coef exp10).1 = (registry q).expMax → (encodeFields q coef exp10).2 = 0) := by
  by_cases hc : coef = 0
  · rw [hc, encodeFields_zero]
    exact ⟨⟨bit_toNat_le sign, Nat.zero_le _, Nat.zero_le _⟩, fun _ => rfl⟩
  · obtain ⟨k, H⟩ := encodeRounded_spec q hc exp10
    obtain ⟨ht, -, hnan⟩ := H.encode_fit sign
    rw [encodeFields_nonzero q hc]
    exact ⟨ht, hnan⟩

/-! ### Law (a): round trip -/

theorem decodePattern_encodeOperand {b : Build} (hb : b.wf = true) (q : Precision) (o : EncodeOperand) :
    decodePattern b.hexOutCase (registry q) (encodeOperand b q o).result.bits.toNat = (encodeOperand b q o).result := by
  obtain ⟨-, -, hself⟩ := encodeOperand_fits hb q o
  exact hself.symm

/-- Settles O43: every form answers a pattern of the precision, and DECODE of it is `decodePattern_encodeOperand`. -/
theorem encodeThenDecode : Obligations.EncodeThenDecode := by
  intro s p q i hq hb hi
  have hdecode : ∀ o, exec (.decodeInt p)
      { s with cmd := { s.cmd with intIn := (encodeOperand s.build q o).result.bits.toNat } } =
        .next ({ s with cmd := { s.cmd with intIn := (encodeOperand s.build q o).result.bits.toNat } }.answer
          (.decoded (encodeOperand s.build q o).result)) := fun o => by
    obtain ⟨hlt, -, -⟩ := encodeOperand_fits hb q o
    rw [exec_decodeInt hq hlt, decodePattern_encodeOperand hb]
  rcases hi with rfl | rfl | rfl | rfl
  · exact ⟨_, _, exec_recognized (i := .encodeFinite p) rfl hq, hdecode _⟩
  · exact ⟨_, _, exec_recognized (i := .encodeInf p) rfl hq, hdecode _⟩
  · exact ⟨_, _, exec_recognized (i := .encodeNan p) rfl hq, hdecode _⟩
  · exact ⟨_, _, exec_recognized (i := .encodeInvalid p) rfl hq, hdecode _⟩

/-! ### Law (b): fixed points -/

theorem decRat_eq_zero_iff {coef : Nat} {exp10 : ℤ} : decRat coef exp10 = 0 ↔ coef = 0 := by
  rw [decRat, mul_eq_zero, or_iff_left (by positivity), Nat.cast_eq_zero]

/-- The decimal of a finite magnitude of the precision encodes to that magnitude's own fields, and rounds nothing. -/
theorem encodeFields_of_patValue (q : Precision) {coef : Nat} {exp10 : ℤ} {e f : Nat} (he : e < (registry q).expMax)
    (hf : f < 2 ^ (registry q).f) (hx : decRat coef exp10 = patValue (registry q) (e * 2 ^ (registry q).f + f)) :
    encodeFields q coef exp10 = (e, f) ∧ ∀ b sign a, (encodeOperand b q (.finite sign coef exp10)).aux = some a →
      a.g = false ∧ a.r = false ∧ a.s = false ∧ a.roundCarry = false := by
  by_cases hc : coef = 0
  · rw [decRat_eq_zero_iff.mpr hc, ← patValue_zero, patValue_strictMono.injective.eq_iff, eq_comm,
      Nat.add_eq_zero_iff, Nat.mul_eq_zero, or_iff_left (Nat.two_pow_pos _).ne'] at hx
    subst hc
    refine ⟨by rw [encodeFields_zero, hx.1, hx.2], fun b sign a ha => ?_⟩
    rw [encodeOperand_zero] at ha
    cases ha
  · obtain ⟨k, H⟩ := encodeRounded_spec q hc exp10
    obtain ⟨-, hfrac, -⟩ := H.encode_fit 0
    have hfin := (classifyFields_isFinite_iff_low he.le hf).mp (classifyFields_isFinite_iff.mpr he.ne)
    rw [hx] at H
    obtain ⟨hlow, hexact⟩ := H.result_of_patValue (registry_facts q) hfin
    refine ⟨?_, fun b sign a ha => ?_⟩
    · rw [encodeFields_nonzero q hc, Prod.mk.injEq]
      exact fields_eq_of_low_eq hfrac hf hlow
    · rw [encodeOperand_nonzero b q sign hc] at ha
      cases ha
      exact hexact

/-- A pattern is what its own triple packs to. -/
theorem finish_unpackFields (h : RowFacts c) (hx : HexCase) {v : Nat} (hv : v < 2 ^ c.n) :
    finish hx c (unpackFields c v).sign (unpackFields c v).exponent (unpackFields c v).fraction
      = decodePattern hx c v := by
  rw [finish_eq_decodePattern h hx (unpackFields_fit h hv), unpackFields_pattern h]

/-- What DECODE answers of a finite pattern: the sign of its triple, and the decimal of its magnitude. -/
theorem decodePattern_value_finite (h : RowFacts c) (hx : HexCase) {v : Nat} (hv : v < 2 ^ c.n)
    (hfin : (decodePattern hx c v).cls.isFinite) :
    (decodePattern hx c v).value.sign.toNat = (unpackFields c v).sign
      ∧ decRat (decodePattern hx c v).value.decCoef (decodePattern hx c v).value.decExp10
        = patValue c ((unpackFields c v).exponent * 2 ^ c.f + (unpackFields c v).fraction) := by
  have ht := unpackFields_fit h hv
  obtain ⟨hs, -, -⟩ := Fields.toPorts_toNat h ht
  obtain ⟨hexact, -, -⟩ := valueOf_toPorts_decimal h ht
  obtain ⟨m, e, hval, -⟩ := valueOf_finite h ht hfin
  refine ⟨?_, ?_⟩
  · change (valueOf c (unpackFields c v)).toPorts.sign.toNat = _
    rw [hval]
    exact hs
  · rw [← low_bits_eq h hv, ← decodePattern_magnitude h hx hv hfin]
    exact hexact

theorem encodeOperand_fixed_finite (b : Build) (q : Precision) {v : Nat} (hv : v < 2 ^ (registry q).n)
    (hfin : (decodePattern b.hexOutCase (registry q) v).cls.isFinite) :
    let r := decodePattern b.hexOutCase (registry q) v
    let e := encodeOperand b q (.finite r.value.sign r.value.decCoef r.value.decExp10)
    e.result = r ∧ ∀ a, e.aux = some a → a.g = false ∧ a.r = false ∧ a.s = false ∧ a.roundCarry = false := by
  have h := registry_facts q
  have ht := unpackFields_fit h hv
  obtain ⟨hsign, hdec⟩ := decodePattern_value_finite h b.hexOutCase hv hfin
  have hexp := ht.exponent_le.lt_of_ne (classifyFields_isFinite_iff.mp hfin)
  obtain ⟨hfields, haux⟩ := encodeFields_of_patValue q hexp (ht.fraction_le.trans_lt h.fracMask_lt) hdec
  refine ⟨?_, haux b _⟩
  rw [encodeOperand_finite_result, hsign, hfields, finish_unpackFields h _ hv]

theorem encodeOperand_fixed_infinity (b : Build) (q : Precision) {v : Nat} (hv : v < 2 ^ (registry q).n)
    (hinf : (decodePattern b.hexOutCase (registry q) v).cls = .infinity) :
    (encodeOperand b q (.inf (decodePattern b.hexOutCase (registry q) v).value.sign)).result
      = decodePattern b.hexOutCase (registry q) v := by
  have h := registry_facts q
  obtain ⟨hs, -, -⟩ := Fields.toPorts_toNat h (unpackFields_fit h hv)
  obtain ⟨he, hf⟩ := classifyFields_infinity.mp hinf
  have hsign : (decodePattern b.hexOutCase (registry q) v).value.sign.toNat = (unpackFields (registry q) v).sign := by
    change (valueOf (registry q) (unpackFields (registry q) v)).toPorts.sign.toNat = _
    rw [valueOf, classifyFields_infinity.mpr ⟨he, hf⟩]
    exact hs
  change finish _ _ _ (registry q).expMax 0 = _
  rw [hsign, ← he, ← hf, finish_unpackFields h _ hv]

/-- Settles O44: DECODE INT answers CodecResults of patterns of the precision only, and those are fixed by
`encodeOperand_fixed_finite`. -/
theorem decodeThenEncode : Obligations.DecodeThenEncode := by
  intro s p q r hq hdecode hfin s'
  rcases Nat.lt_or_ge s.cmd.intIn (2 ^ (registry q).n) with hlt | hge
  · rw [exec_decodeInt hq hlt, next_answer_inj] at hdecode
    cases hdecode
    exact ⟨_, _, exec_recognized (i := .encodeFinite p) rfl hq, encodeOperand_fixed_finite s.build q hlt hfin⟩
  · obtain ⟨-, -, hfail⟩ := exec_int_malformed hq (readInt_of_lt (Nat.sub_one_lt_of_le (Nat.two_pow_pos _) hge))
    rw [hfail, fail_eq_answer, next_answer_inj] at hdecode
    cases hdecode

/-! ### Law (c): sign symmetry -/

/-- The binary string after its first character does not depend on bit `N-1`. -/
theorem binText_drop_one (c : PrecisionConfig) (v : Nat) :
    (binText c (2 ^ (c.n - 1) + v)).drop 1 = (binText c v).drop 1 := by
  refine List.ext_getElem (by simp [binText_length]) fun i hi _ => ?_
  rw [List.length_drop, binText_length] at hi
  simp only [binText, List.getElem_drop, List.getElem_map, List.getElem_range]
  rw [Nat.testBit_two_pow_add_gt (by omega)]

/-- Fields that are no NaN, packed with either sign. -/
theorem signFlipped_finish (h : RowFacts c) (hx : HexCase) {e f : Nat} (ht : Fields.Fit c ⟨0, e, f⟩)
    (hnan : e = c.expMax → f = 0) (aux : Option AuxGroup) (reason : Reason) :
    SignFlipped c ⟨finish hx c 0 e f, aux, reason⟩ ⟨finish hx c 1 e f, aux, reason⟩ := by
  have ht1 : Fields.Fit c ⟨1, e, f⟩ := ⟨le_rfl, ht.exponent_le, ht.fraction_le⟩
  have hpattern : Fields.pattern c ⟨1, e, f⟩ = 2 ^ (c.n - 1) + Fields.pattern c ⟨0, e, f⟩ := by
    simp [Fields.pattern, Nat.add_assoc]
  have hfmt0 : (finish hx c 0 e f).fmt = formatGroup hx c (Fields.pattern c ⟨0, e, f⟩) := by
    rw [← packBits_eq h ht]; rfl
  have hfmt1 : (finish hx c 1 e f).fmt = formatGroup hx c (2 ^ (c.n - 1) + Fields.pattern c ⟨0, e, f⟩) := by
    rw [← hpattern, ← packBits_eq h ht1]; rfl
  have hdrop := binText_drop_one c (Fields.pattern c ⟨0, e, f⟩)
  refine ⟨?_, rfl, rfl, rfl, ?_, ?_, ?_, rfl, rfl⟩
  · simp only [finish_bits_toNat h hx ht, finish_bits_toNat h hx ht1, hpattern, Nat.add_comm]
  · simp only [finish_value, valueOf]
    cases hk : classifyFields c.expMax e f with
    | nan => exact absurd (hnan (classifyFields_nan.mp hk).1) (classifyFields_nan.mp hk).2
    | _ => rfl
  · simp only [hfmt0, hfmt1, formatGroup, hdrop]
  · simp only [hfmt0, hfmt1, formatGroup, Nat.add_comm c.eb, ← List.drop_drop, hdrop]

theorem encodeOperand_sign_finite (b : Build) (q : Precision) (coef : Nat) (exp10 : Int) :
    SignFlipped (registry q) (encodeOperand b q (.finite 0 coef exp10)) (encodeOperand b q (.finite 1 coef exp10)) := by
  obtain ⟨ht, hnan⟩ := encodeFields_fit q 0 coef exp10
  obtain ⟨haux, hreason⟩ := encodeOperand_finite_aux_reason b q 0 1 coef exp10
  have hflip := signFlipped_finish (registry_facts q) b.hexOutCase ht hnan
    (encodeOperand b q (.finite 1 coef exp10)).aux (encodeOperand b q (.finite 1 coef exp10)).reason
  unfold SignFlipped at hflip ⊢
  rw [encodeOperand_finite_result, encodeOperand_finite_result, haux, hreason]
  exact hflip

theorem encodeOperand_sign_infinity (b : Build) (q : Precision) :
    SignFlipped (registry q) (encodeOperand b q (.inf 0)) (encodeOperand b q (.inf 1)) :=
  signFlipped_finish (registry_facts q) _ ⟨Nat.zero_le _, le_rfl, Nat.zero_le _⟩ (fun _ => rfl) none .none

/-- Settles O45: the two answers differ by `SignFlipped`, and the echo by the sign it repeats. -/
theorem encodeSignSymmetry : Obligations.EncodeSignSymmetry := by
  intro s p q i hq hi sp sn
  have hanswers : ∃ echo enc enc', exec i sp = .next (sp.answer (.encoded echo enc))
      ∧ exec i sn = .next (sn.answer (.encoded { echo with inSign := 1 } enc')) ∧ SignFlipped (registry q) enc enc' := by
    rcases hi with rfl | rfl
    · exact ⟨_, _, _, exec_recognized (i := .encodeFinite p) rfl hq, exec_recognized (i := .encodeFinite p) rfl hq,
        encodeOperand_sign_finite s.build q s.cmd.coef s.cmd.exp10⟩
    · exact ⟨_, _, _, exec_recognized (i := .encodeInf p) rfl hq, exec_recognized (i := .encodeInf p) rfl hq,
        encodeOperand_sign_infinity s.build q⟩
  obtain ⟨echo, enc, enc', hp, hn, hbits, hsign, hfields, hcls, hvalue, hexp, hfrac, haux, hreason⟩ := hanswers
  exact ⟨echo, enc, _, enc', hp, hn, hbits, hfields, hsign, hcls, hvalue, hexp, hfrac, haux, hreason, rfl⟩

/-! ### Law (d): monotonicity -/

/-- Without a sign the pattern is the low bits. -/
theorem encodeOperand_finite_bits (b : Build) (q : Precision) (coef : Nat) (exp10 : Int) :
    (encodeOperand b q (.finite 0 coef exp10)).result.bits.toNat
      = (encodeFields q coef exp10).1 * 2 ^ (registry q).f + (encodeFields q coef exp10).2 := by
  rw [encodeOperand_finite_result, finish_bits_toNat (registry_facts q) _ (encodeFields_fit q 0 coef exp10).1]
  simp [Fields.pattern]

/-- The bracket is monotone in the operand, and the low bits in the bracket; zero is below every bracket. -/
theorem encodeOperand_monotone (b : Build) (q : Precision) {k l : Nat} {x y : ℤ} (hle : decRat k x ≤ decRat l y) :
    (encodeOperand b q (.finite 0 k x)).result.bits.toNat ≤ (encodeOperand b q (.finite 0 l y)).result.bits.toNat := by
  have h := registry_facts q
  rw [encodeOperand_finite_bits, encodeOperand_finite_bits]
  by_cases hk : k = 0
  · rw [hk, encodeFields_zero, Nat.zero_mul]
    exact Nat.zero_le _
  · have hl : l ≠ 0 := by
      rintro rfl
      rw [decRat_eq_zero_iff.mpr rfl] at hle
      have hpos : 0 < decRat k x := mul_pos (by exact_mod_cast Nat.pos_of_ne_zero hk) (by positivity)
      exact absurd hle (not_le.mpr hpos)
    obtain ⟨i, H⟩ := encodeRounded_spec q hk x
    obtain ⟨j, H'⟩ := encodeRounded_spec q hl y
    rw [encodeFields_nonzero q hk, encodeFields_nonzero q hl]
    exact (H.low_eq_clampedLow h).trans_le
      ((clampedLow_mono (H.bracket_mono H' hle)).trans_eq (H'.low_eq_clampedLow h).symm)

/-- Settles O46: both commands have sign 0, and `encodeOperand_monotone` compares their patterns; the pattern does not
depend on the build. -/
theorem encodeIsMonotone : Obligations.EncodeIsMonotone := by
  intro s t p q hq hs ht hle
  refine ⟨_, _, _, _, exec_recognized (i := .encodeFinite p) rfl hq, exec_recognized (i := .encodeFinite p) rfl hq, ?_⟩
  rw [hs, ht, encodeOperand_finite_bits s.build, ← encodeOperand_finite_bits t.build]
  exact encodeOperand_monotone t.build q hle

/-! ### Law (e): the class by the form -/

theorem encodeOperand_finite_cls_ne_nan (b : Build) (q : Precision) (sign : Bit) (coef : Nat) (exp10 : Int) :
    (encodeOperand b q (.finite sign coef exp10)).result.cls ≠ .nan := by
  rw [encodeOperand_finite_result, finish_cls, Ne, classifyFields_nan]
  exact fun ⟨he, hf⟩ => hf ((encodeFields_fit q sign coef exp10).2 he)

theorem encodeOperand_inf_cls (b : Build) (q : Precision) (sign : Bit) :
    (encodeOperand b q (.inf sign)).result.cls = .infinity :=
  classifyFields_infinity.mpr ⟨rfl, rfl⟩

/-- Settles O60: one lemma a law, (f) being `encodeOperand_exact_bits`. -/
theorem encoderLawsHold : Obligations.EncoderLawsHold := fun b q hb =>
  { round_trip := decodePattern_encodeOperand hb q
    fixed_finite := fun _ => encodeOperand_fixed_finite b q
    fixed_infinity := fun _ => encodeOperand_fixed_infinity b q
    sign_finite := encodeOperand_sign_finite b q
    sign_infinity := encodeOperand_sign_infinity b q
    monotone := fun _ _ _ _ => encodeOperand_monotone b q
    cls_number := ⟨encodeOperand_finite_cls_ne_nan b q, fun sign => by
      rw [encodeOperand_inf_cls]
      decide⟩
    cls_nan := ⟨finishNan_cls hb q, finishNan_cls hb q⟩
    exact_bits := fun sign _ exp10 hc hcls => by
      obtain ⟨a, ha, hbits⟩ := encodeOperand_exact_bits b q sign hc exp10
      exact ⟨a, ha, hbits hcls⟩ }

end Sys2Proof.Machine
end

section
/-! PROOFS. The Arithmetic Layer (`46_arith.md`): the operands as the host sees them (R201, R202), the host's two operations
(R203, R204), and the encoding of their result (R205, R206). -/
namespace Sys2Proof.Machine

variable {c : PrecisionConfig} {q : Precision} {s : State} {p : PrecCode} {a b : OperandForm} {va vb : Nat}

/-! ### The operands -/

theorem toHost_of_nan (q : Precision) {hx : HexCase} {v : Nat} (hk : (decodePattern hx c v).cls = .nan) :
    toHost q (valueOf c (unpackFields c v)) = .nan := by
  rw [valueOf, show classifyFields _ _ _ = _ from hk]
  exact toHost_id _ (.inr (by simp))

theorem toHost_of_infinity (q : Precision) {hx : HexCase} {v : Nat} (hk : (decodePattern hx c v).cls = .infinity) :
    toHost q (valueOf c (unpackFields c v)) = .inf (decodePattern hx c v).fields.sign := by
  rw [valueOf, show classifyFields _ _ _ = _ from hk]
  exact toHost_id _ (.inr (by simp))

/-- A finite operand below quad as the sign of its fields, a significand and an exponent: its real number, and when it is
zero. -/
theorem toHost_of_finite (hquad : q ≠ .quad) (h : RowFacts c) {hx : HexCase} {v : Nat} (hv : v < 2 ^ c.n)
    (hfin : (decodePattern hx c v).cls.isFinite) :
    ∃ m e, toHost q (valueOf c (unpackFields c v)) = .finite (decodePattern hx c v).fields.sign m e
      ∧ (decodePattern hx c v).value.real = (-1) ^ (decodePattern hx c v).fields.sign.toNat * (m * (2 : ℚ) ^ e)
      ∧ (m = 0 ↔ (decodePattern hx c v).cls = .zero) := by
  have ht := unpackFields_fit h hv
  obtain ⟨m, e, hval, -, hm, hzero, hexp⟩ := valueOf_finite h ht hfin
  have hvalue : (decodePattern hx c v).value = (Value.finite (decodePattern hx c v).fields.sign m e).toPorts := by
    change (valueOf c (unpackFields c v)).toPorts = _
    rw [hval]
    rfl
  refine ⟨m, e, (toHost_id _ (.inl hquad)).trans hval, ?_, hzero.trans (classifyFields_zero_iff_low h).symm⟩
  rw [ValueGroup.real, hvalue, toPorts_finite_magnitude (h.sig_lt hm) hexp]
  rfl

/-! ### The host's operations -/

theorem hostOp_nan_left (op : ArithOp) (x : Value) : hostOp op .nan x = .nan := by cases op <;> rfl
theorem hostOp_nan_right (op : ArithOp) (x : Value) : hostOp op x .nan = .nan := by cases op <;> cases x <;> rfl

/-- A NaN operand makes the host's result a NaN, whatever the other operand is. -/
theorem hostOp_of_nan_operand (op : ArithOp) (q : Precision) {hx : HexCase}
    (hn : (decodePattern hx c va).cls = .nan ∨ (decodePattern hx c vb).cls = .nan) :
    hostOp op (toHost q (valueOf c (unpackFields c va))) (toHost q (valueOf c (unpackFields c vb))) = .nan := by
  rcases hn with hA | hB
  · rw [toHost_of_nan q hA, hostOp_nan_left]
  · rw [toHost_of_nan q hB, hostOp_nan_right]

theorem hostAdd_inf_same (sign : Bit) : hostAdd (.inf sign) (.inf sign) = .inf sign := if_pos rfl

theorem hostAdd_inf_opposite {s t : Bit} (hne : s ≠ t) : hostAdd (.inf s) (.inf t) = .nan := if_neg hne

theorem hostMul_inf_finite (s t : Bit) {n : Nat} (hn : n ≠ 0) (k : ℤ) :
    hostMul (.inf s) (.finite t n k) = .inf (s ^^^ t) := if_neg hn

theorem hostMul_finite_inf (s t : Bit) {m : Nat} (hm : m ≠ 0) (e : ℤ) :
    hostMul (.finite s m e) (.inf t) = .inf (s ^^^ t) := if_neg hm

/-- The exact result of an operation. -/
def exactResult (op : ArithOp) (x y : ℚ) : ℚ :=
  match op with
  | .add      => x + y
  | .multiply => x * y

/-- The sign of a result that is zero: of equal signs their sign and else `+0` for a sum, the exclusive-or for a product
(R204). -/
def zeroSign (op : ArithOp) (s t : Bit) : Bit :=
  match op with
  | .add      => if s = t then s else 0
  | .multiply => s ^^^ t

/-- `host_add` of two finite values, by their real sum (R204). -/
theorem hostAdd_finite (s t : Bit) (m n : Nat) (e k : ℤ) {x : ℚ}
    (hx : x = (-1) ^ s.toNat * (m * (2 : ℚ) ^ e) + (-1) ^ t.toNat * (n * (2 : ℚ) ^ k)) :
    (x = 0 → hostAdd (.finite s m e) (.finite t n k) = .finite (zeroSign .add s t) 0 0)
      ∧ (x ≠ 0 → ∃ y : Frac, 0 < y.num ∧ 0 < y.den ∧ y.rat = |x|
        ∧ hostAdd (.finite s m e) (.finite t n k) = rn64 (if x < 0 then 1 else 0) y) := by
  obtain ⟨sum, hsum⟩ : ∃ sum : ℤ, sum = signed s (m * 2 ^ (e - min e k).toNat) + signed t (n * 2 ^ (k - min e k).toNat) :=
    ⟨_, rfl⟩
  have hdef : hostAdd (.finite s m e) (.finite t n k) = if sum = 0 then .finite (zeroSign .add s t) 0 0
      else rn64 (if sum < 0 then 1 else 0) (dyadic sum.natAbs (min e k)) := by
    rw [hsum]
    rfl
  rw [← hostAdd_sum, ← hsum] at hx
  have hpos : (0 : ℚ) < 2 ^ min e k := by positivity
  have hzero : x = 0 ↔ sum = 0 := by rw [hx, mul_eq_zero, or_iff_left hpos.ne', Int.cast_eq_zero]
  have hneg : x < 0 ↔ sum < 0 := by simp [hx, mul_neg_iff, hpos, hpos.not_gt]
  rw [hdef, Ne, hzero]
  refine ⟨fun h0 => if_pos h0, fun h0 => ⟨dyadic sum.natAbs (min e k), ?_, ?_, ?_, ?_⟩⟩
  · exact Frac.scale2_num_pos (Int.natAbs_pos.mpr h0) _
  · exact Frac.scale2_den_pos Nat.one_pos _
  · rw [dyadic_rat, hx, abs_mul, abs_of_pos hpos, Nat.cast_natAbs, Int.cast_abs]
  · simp only [if_neg h0, hneg]

/-- `host_mul` of two finite values, by their real product (R204). -/
theorem hostMul_finite (s t : Bit) (m n : Nat) (e k : ℤ) {x : ℚ}
    (hx : x = ((-1) ^ s.toNat * (m * (2 : ℚ) ^ e)) * ((-1) ^ t.toNat * (n * (2 : ℚ) ^ k))) :
    (x = 0 → hostMul (.finite s m e) (.finite t n k) = .finite (zeroSign .multiply s t) 0 0)
      ∧ (x ≠ 0 → ∃ y : Frac, 0 < y.num ∧ 0 < y.den ∧ y.rat = |x|
        ∧ hostMul (.finite s m e) (.finite t n k) = rn64 (if x < 0 then 1 else 0) y) := by
  have hdef : hostMul (.finite s m e) (.finite t n k) =
      if m * n = 0 then .finite (s ^^^ t) 0 0 else rn64 (s ^^^ t) (dyadic (m * n) (e + k)) := rfl
  have hmag : ((m * n : ℕ) : ℚ) * 2 ^ (e + k) = m * (2 : ℚ) ^ e * (n * (2 : ℚ) ^ k) := by
    rw [zpow_add₀ (by norm_num : (2 : ℚ) ≠ 0)]
    push_cast
    ring
  have hx' : x = (-1) ^ (s ^^^ t).toNat * ((m * n : ℕ) * (2 : ℚ) ^ (e + k)) := by
    rw [hmag, hx]
    rcases bit_cases s with rfl | rfl <;> rcases bit_cases t with rfl | rfl <;> simp
  have hpow : (0 : ℚ) < 2 ^ (e + k) := by positivity
  have hzero : x = 0 ↔ m * n = 0 := by
    rw [hx', mul_eq_zero, or_iff_right (by simp), mul_eq_zero, or_iff_left hpow.ne', Nat.cast_eq_zero]
  rw [hdef, Ne, hzero]
  refine ⟨fun h0 => if_pos h0, fun h0 => ⟨dyadic (m * n) (e + k), ?_, ?_, ?_, ?_⟩⟩
  · exact Frac.scale2_num_pos (Nat.pos_of_ne_zero h0) _
  · exact Frac.scale2_den_pos Nat.one_pos _
  · rw [dyadic_rat, hx', abs_mul, abs_pow, abs_neg, abs_one, one_pow, one_mul, abs_of_nonneg (by positivity)]
  · have hprod : (0 : ℚ) < (m * n : ℕ) * (2 : ℚ) ^ (e + k) := mul_pos (by exact_mod_cast Nat.pos_of_ne_zero h0) hpow
    rw [if_neg h0]
    congr 1
    rcases bit_cases (s ^^^ t) with hsign | hsign <;> rw [hx', hsign]
    · simpa using hprod.le
    · simpa using hprod

/-- Both operations on two finite operands, by the exact result. -/
theorem hostOp_finite (op : ArithOp) (s t : Bit) (m n : Nat) (e k : ℤ) {x : ℚ}
    (hx : x = exactResult op ((-1) ^ s.toNat * (m * (2 : ℚ) ^ e)) ((-1) ^ t.toNat * (n * (2 : ℚ) ^ k))) :
    (x = 0 → hostOp op (.finite s m e) (.finite t n k) = .finite (zeroSign op s t) 0 0)
      ∧ (x ≠ 0 → ∃ y : Frac, 0 < y.num ∧ 0 < y.den ∧ y.rat = |x|
        ∧ hostOp op (.finite s m e) (.finite t n k) = rn64 (if x < 0 then 1 else 0) y) := by
  cases op with
  | add => exact hostAdd_finite s t m n e k hx
  | multiply => exact hostMul_finite s t m n e k hx

/-- `rn64` gives a double: a nearest one below the overflow threshold, and infinity from there on (R203). -/
theorem rn64_spec (sign : Bit) {y : Frac} (hn : 0 < y.num) (hd : 0 < y.den) :
    ∃ e f, Fields.Fit (registry .double) ⟨sign.toNat, e, f⟩ ∧ (e = (registry .double).expMax → f = 0)
      ∧ rn64 sign y = valueOf (registry .double) ⟨sign.toNat, e, f⟩
      ∧ (y.rat < infinityFrom (registry .double) →
        e < (registry .double).expMax ∧ NearestValue (registry .double) y.rat e f)
      ∧ (infinityFrom (registry .double) ≤ y.rat → e = (registry .double).expMax) := by
  have h := registry_facts .double
  obtain ⟨k, H⟩ := roundMagnitude_spec h (1, 0) hn hd
  obtain ⟨ht, hnan⟩ := RoundSpec.fit h (by decide) (Nat.zero_le _) H sign
  have hf := ht.fraction_le.trans_lt h.fracMask_lt
  refine ⟨_, _, ht, hnan, rfl, fun hbelow => ?_, fun hover => ?_⟩
  · have hchosen := H.chosen_lt_infinity h hbelow
    have hlow := H.low_promoted (by omega)
    have hfin := (classifyFields_isFinite_iff_low ht.exponent_le hf).mpr (hlow.trans_lt hchosen)
    exact ⟨ht.exponent_le.lt_of_ne (classifyFields_isFinite_iff.mp hfin), H.nearestValue h hf hlow⟩
  · rcases H.chosen_ge_infinity h hover with hk | ⟨hk, hup⟩
    · exact (H.overflow hk).1
    · have hlow := H.low_promoted (by omega)
      rw [hup, Bool.toNat_true, hk] at hlow
      exact (classifyFields_infinity.mp ((classifyFields_infinity_iff_low hf).mpr hlow)).1

/-! ### The encoding of the host's result -/

/-- The response that encodes a host result (R205, R206). -/
def hostResponse (op : ArithOp) (bd : Build) (q : Precision) (va vb : Nat) (host : Value) : Response :=
  .arith (hostEcho op q va vb host) (encodeOperand bd q (hostOperand host))
    (exactMatch (valueOfPorts (registry q) (encodeOperand bd q (hostOperand host)).result.fields) host)

theorem arithResponse_eq (op : ArithOp) (bd : Build) (q : Precision) (va vb : Nat) :
    arithResponse op bd q va vb = hostResponse op bd q va vb
      (hostOp op (toHost q (valueOf (registry q) (unpackFields (registry q) va)))
        (toHost q (valueOf (registry q) (unpackFields (registry q) vb)))) := rfl

/-- The two values `exact_match` compares stand for one real number exactly when their signed magnitudes agree (R206). -/
theorem sameReal_iff (s t : Bit) (m n : Nat) (e k : ℤ) :
    sameReal s m e t n k = true
      ↔ (-1) ^ s.toNat * (m * (2 : ℚ) ^ e) = (-1) ^ t.toNat * (n * (2 : ℚ) ^ k) := by
  have hpos : (2 : ℚ) ^ min e k ≠ 0 := by positivity
  rw [sameReal, decide_eq_true_eq, ← Int.cast_inj (α := ℚ), signed_rat, signed_rat,
    ← shift_to_low m (min_le_left e k), ← shift_to_low n (min_le_right e k), ← mul_assoc, ← mul_assoc,
    mul_left_inj' hpos]

theorem exactMatch_self {v : Value} (hv : v ≠ .nan) : exactMatch v v = true := by
  cases v with
  | finite sign m e => exact (sameReal_iff sign sign m m e e).mpr rfl
  | inf sign => exact decide_eq_true rfl
  | nan => exact absurd rfl hv

theorem exactMatch_nan (v : Value) : exactMatch v .nan = false := by cases v <;> rfl

/-- The value of packed fields, taken from their ports. -/
theorem valueOfPorts_finish (h : RowFacts c) (hx : HexCase) {sign e f : Nat} (ht : Fields.Fit c ⟨sign, e, f⟩) :
    valueOfPorts c (finish hx c sign e f).fields = valueOf c ⟨sign, e, f⟩ :=
  congrArg (valueOf c) (Fields.ofPorts_toPorts h ht)

theorem valueOf_ne_nan {t : Fields} (hnan : t.exponent = c.expMax → t.fraction = 0) : valueOf c t ≠ .nan := by
  unfold valueOf
  cases hk : classifyFields c.expMax t.exponent t.fraction with
  | nan => exact absurd (hnan (classifyFields_nan.mp hk).1) (classifyFields_nan.mp hk).2
  | _ => exact nofun

theorem ofNat_bit_toNat (sign : Bit) : BitVec.ofNat 1 sign.toNat = sign := by simp

/-- A number or infinity of the precision itself is encoded unchanged, and matches. -/
theorem hostOperand_own_value (bd : Build) (q : Precision) {sign : Bit} {e f : Nat}
    (ht : Fields.Fit (registry q) ⟨sign.toNat, e, f⟩) (hnan : e = (registry q).expMax → f = 0) {host : Value}
    (hhost : host = valueOf (registry q) ⟨sign.toNat, e, f⟩) :
    (encodeOperand bd q (hostOperand host)).result = finish bd.hexOutCase (registry q) sign.toNat e f
      ∧ exactMatch (valueOfPorts (registry q) (encodeOperand bd q (hostOperand host)).result.fields) host = true := by
  have h := registry_facts q
  have hresult : (encodeOperand bd q (hostOperand host)).result = finish bd.hexOutCase (registry q) sign.toNat e f := by
    by_cases he : e = (registry q).expMax
    · obtain rfl := hnan he
      rw [hhost, he, valueOf_infinity, ofNat_bit_toNat]
      rfl
    · obtain ⟨m, x, hval, hmag, -⟩ := valueOf_finite h ht (classifyFields_isFinite_iff.mpr he)
      obtain ⟨hexact, -⟩ := shortestDecimal_spec m x
      obtain ⟨hfields, -⟩ := encodeFields_of_patValue q (ht.exponent_le.lt_of_ne he)
        (ht.fraction_le.trans_lt h.fracMask_lt) (hexact.trans hmag)
      rw [hhost, hval, ofNat_bit_toNat, hostOperand, encodeOperand_finite_result, hfields]
  refine ⟨hresult, ?_⟩
  rw [hresult, valueOfPorts_finish h _ ht, ← hhost]
  exact exactMatch_self (hhost ▸ valueOf_ne_nan hnan)

/-- A NaN is encoded as the build's NaN, and matches nothing. -/
theorem hostOperand_nan {bd : Build} (hb : bd.wf = true) (q : Precision) {host : Value} (hhost : host = .nan) :
    (encodeOperand bd q (hostOperand host)).result.cls = .nan
      ∧ exactMatch (valueOfPorts (registry q) (encodeOperand bd q (hostOperand host)).result.fields) host = false := by
  subst hhost
  exact ⟨finishNan_cls hb q, exactMatch_nan _⟩

/-- An infinity is encoded as the infinity of its sign, and matches. -/
theorem hostOperand_inf (bd : Build) (q : Precision) {host : Value} {sign : Bit} (hhost : host = .inf sign) :
    (encodeOperand bd q (hostOperand host)).result.cls = .infinity
      ∧ (encodeOperand bd q (hostOperand host)).result.fields.sign = sign
      ∧ exactMatch (valueOfPorts (registry q) (encodeOperand bd q (hostOperand host)).result.fields) host = true := by
  have h := registry_facts q
  have ht : Fields.Fit (registry q) ⟨sign.toNat, (registry q).expMax, 0⟩ := ⟨bit_toNat_le sign, le_rfl, Nat.zero_le _⟩
  obtain ⟨hresult, hmatch⟩ := hostOperand_own_value bd q ht (fun _ => rfl)
    (hhost.trans (by rw [valueOf_infinity, ofNat_bit_toNat]))
  rw [hresult] at hmatch ⊢
  exact ⟨classifyFields_infinity.mpr ⟨rfl, rfl⟩, (finish_fields_toNat h _ ht).1, hmatch⟩

/-- A zero is encoded as the zero of its sign, and matches. -/
theorem hostOperand_zero (bd : Build) (q : Precision) {host : Value} {sign : Bit} (hhost : host = .finite sign 0 0) :
    (encodeOperand bd q (hostOperand host)).result.cls = .zero
      ∧ (encodeOperand bd q (hostOperand host)).result.fields.sign = sign
      ∧ exactMatch (valueOfPorts (registry q) (encodeOperand bd q (hostOperand host)).result.fields) host = true := by
  have h := registry_facts q
  have hzero : classifyFields (registry q).expMax 0 0 = .zero := (classifyFields_zero h.expMax_pos).mpr ⟨rfl, rfl⟩
  have ht : Fields.Fit (registry q) ⟨sign.toNat, 0, 0⟩ := ⟨bit_toNat_le sign, Nat.zero_le _, Nat.zero_le _⟩
  obtain ⟨hresult, hmatch⟩ := hostOperand_own_value bd q ht (fun _ => rfl)
    (hhost.trans (by rw [valueOf, hzero, ofNat_bit_toNat]))
  rw [hresult] at hmatch ⊢
  exact ⟨hzero, (finish_fields_toNat h _ ht).1, hmatch⟩

/-! ### What the instructions answer -/

/-- An operation on readable operands answers the encoding of the host's result. -/
theorem exec_arith_host (op : ArithOp) (hq : precisionOf p = some q) (ha : s.build.hasArith = true)
    (h1 : readPattern (registry q) a s.cmd.intIn s.cmd.strIn = .ok va)
    (h2 : readPattern (registry q) b s.cmd.intInB s.cmd.strInB = .ok vb) :
    exec (arithInstr op p a b) s = .next (s.answer (hostResponse op s.build q va vb
      (hostOp op (toHost q (valueOf (registry q) (unpackFields (registry q) va)))
        (toHost q (valueOf (registry q) (unpackFields (registry q) vb)))))) := by
  rw [exec_arith hq ha h1 h2, arithResponse_eq]

/-- Settles O52: whatever the host's result is, it is encoded without form INVALID (`encodeOperand_fits`,
`encodeOperand_reason`), and a NaN matches nothing while any other result encodes to no NaN. -/
theorem arithmeticAnswers : Obligations.ArithmeticAnswers := by
  intro s p q a b va vb i hq ha hb h1 h2 hi
  obtain ⟨op, rfl⟩ : ∃ op, i = arithInstr op p a b := by
    rcases hi with rfl | rfl
    · exact ⟨.add, rfl⟩
    · exact ⟨.multiply, rfl⟩
  refine ⟨_, _, _, exec_arith_host op hq ha h1 h2, encodeOperand_fits hb q _, ?_, ?_⟩ <;>
    generalize hostOp op _ _ = host
  · exact encodeOperand_reason (by cases host <;> simp [hostOperand])
  · intro hmatch
    cases host with
    | finite sign m e => exact encodeOperand_finite_cls_ne_nan s.build q sign _ _
    | inf sign => rw [(hostOperand_inf s.build q rfl).1]; decide
    | nan => rw [exactMatch_nan] at hmatch; cases hmatch

/-- Settles O53: each clause gives `host_add` its operands (`toHost_of_finite` and its like) and encodes what it
answers (`hostOperand_nan`, `hostOperand_inf`, `hostOperand_zero`). -/
theorem addSpecialResults : Obligations.AddSpecialResults := by
  intro s p q a b va vb hq ha hb h1 h2 A B
  have h := registry_facts q
  refine ⟨_, _, _, exec_arith_host .add hq ha h1 h2, fun hn => ?_, fun hA hB hne => ?_, fun hA hB heq => ?_,
    fun hquad hA hB => ?_, fun hquad hA hB => ?_, fun hquad hA hB hsum => ?_⟩
  · exact hostOperand_nan hb q (hostOp_of_nan_operand _ q hn)
  · refine hostOperand_nan hb q ?_
    rw [toHost_of_infinity q hA, toHost_of_infinity q hB]
    exact hostAdd_inf_opposite hne
  · refine hostOperand_inf s.build q ?_
    rw [toHost_of_infinity q hA, toHost_of_infinity q hB, ← heq]
    exact hostAdd_inf_same _
  · obtain ⟨n, k, hvB, -, -⟩ := toHost_of_finite hquad h (readPattern_lt h2) hB
    refine hostOperand_inf s.build q ?_
    rw [toHost_of_infinity q hA, hvB]
    rfl
  · obtain ⟨m, e, hvA, -, -⟩ := toHost_of_finite hquad h (readPattern_lt h1) hA
    refine hostOperand_inf s.build q ?_
    rw [hvA, toHost_of_infinity q hB]
    rfl
  · obtain ⟨m, e, hvA, hrA, -⟩ := toHost_of_finite hquad h (readPattern_lt h1) hA
    obtain ⟨n, k, hvB, hrB, -⟩ := toHost_of_finite hquad h (readPattern_lt h2) hB
    rw [hrA, hrB] at hsum
    have hhost : hostOp .add (toHost q (valueOf (registry q) (unpackFields (registry q) va)))
        (toHost q (valueOf (registry q) (unpackFields (registry q) vb)))
          = .finite (zeroSign .add A.fields.sign B.fields.sign) 0 0 := by
      rw [hvA, hvB]
      exact (hostAdd_finite _ _ m n e k hsum.symm).1 rfl
    obtain ⟨hcls, hsign, hmatch⟩ := hostOperand_zero s.build q hhost
    exact ⟨hcls, hmatch, hsign⟩

/-- Subnormal and normal numbers are finite and not zero. -/
theorem isFinite_and_ne_zero {k : Class} (hk : k = .subnormal ∨ k = .normal) : k.isFinite ∧ k ≠ .zero := by
  rcases hk with rfl | rfl
  · exact ⟨.inr (.inl rfl), by decide⟩
  · exact ⟨.inr (.inr rfl), by decide⟩

/-- Settles O54: as `addSpecialResults`, with `host_mul`, where a zero's significand is 0 and that of a subnormal or normal
number is not. -/
theorem multiplySpecialResults : Obligations.MultiplySpecialResults := by
  intro s p q a b va vb hq ha hb h1 h2 A B
  have h := registry_facts q
  refine ⟨_, _, _, exec_arith_host .multiply hq ha h1 h2, fun hn => ?_, fun hA hB => ?_, fun hquad hA hB => ?_,
    fun hquad hA hB => ?_, fun hquad hA hB => ?_, fun hquad hA hB => ?_, fun hquad hA hB hprod => ?_⟩
  · exact hostOperand_nan hb q (hostOp_of_nan_operand _ q hn)
  · refine hostOperand_inf s.build q ?_
    rw [toHost_of_infinity q hA, toHost_of_infinity q hB]
    rfl
  · obtain ⟨n, k, hvB, -, hzero⟩ := toHost_of_finite hquad h (readPattern_lt h2) (.inl hB)
    refine hostOperand_nan hb q ?_
    rw [toHost_of_infinity q hA, hvB, hzero.mpr hB]
    rfl
  · obtain ⟨m, e, hvA, -, hzero⟩ := toHost_of_finite hquad h (readPattern_lt h1) (.inl hA)
    refine hostOperand_nan hb q ?_
    rw [hvA, toHost_of_infinity q hB, hzero.mpr hA]
    rfl
  · obtain ⟨hfin, hne⟩ := isFinite_and_ne_zero hB
    obtain ⟨n, k, hvB, -, hzero⟩ := toHost_of_finite hquad h (readPattern_lt h2) hfin
    refine hostOperand_inf s.build q ?_
    rw [toHost_of_infinity q hA, hvB]
    exact hostMul_inf_finite _ _ (mt hzero.mp hne) k
  · obtain ⟨hfin, hne⟩ := isFinite_and_ne_zero hA
    obtain ⟨m, e, hvA, -, hzero⟩ := toHost_of_finite hquad h (readPattern_lt h1) hfin
    refine hostOperand_inf s.build q ?_
    rw [hvA, toHost_of_infinity q hB]
    exact hostMul_finite_inf _ _ (mt hzero.mp hne) e
  · obtain ⟨m, e, hvA, hrA, -⟩ := toHost_of_finite hquad h (readPattern_lt h1) hA
    obtain ⟨n, k, hvB, hrB, -⟩ := toHost_of_finite hquad h (readPattern_lt h2) hB
    rw [hrA, hrB] at hprod
    refine hostOperand_zero s.build q ?_
    rw [hvA, hvB]
    exact (hostMul_finite _ _ m n e k hprod.symm).1 rfl

/-! ### Finite operands with a result that is not zero -/

/-- The operands are readable and finite, in a build with the layer. -/
structure FiniteOperands (s : State) (q : Precision) (a b : OperandForm) (va vb : Nat) : Prop where
  hasArith : s.build.hasArith = true
  read_a : readPattern (registry q) a s.cmd.intIn s.cmd.strIn = .ok va
  read_b : readPattern (registry q) b s.cmd.intInB s.cmd.strInB = .ok vb
  finite_a : (decodePattern s.build.hexOutCase (registry q) va).cls.isFinite
  finite_b : (decodePattern s.build.hexOutCase (registry q) vb).cls.isFinite

/-- The exact result of an operation on two patterns. -/
def exactOn (op : ArithOp) (hx : HexCase) (c : PrecisionConfig) (va vb : Nat) : ℚ :=
  exactResult op (decodePattern hx c va).value.real (decodePattern hx c vb).value.real

variable {x : ℚ}

/-- At half, single and double an operation on two finite operands, whose exact result `x` is not zero, answers the encoding
of a double: a nearest one to `|x|` below the overflow threshold, infinity from there on, with the sign of `x`. -/
theorem exec_arith_finite (op : ArithOp) (hq : precisionOf p = some q) (hquad : q ≠ .quad)
    (hops : FiniteOperands s q a b va vb) (hx : x = exactOn op s.build.hexOutCase (registry q) va vb) (hne : x ≠ 0) :
    let sign : Bit := if x < 0 then 1 else 0
    ∃ e f, Fields.Fit (registry .double) ⟨sign.toNat, e, f⟩ ∧ (e = (registry .double).expMax → f = 0)
      ∧ exec (arithInstr op p a b) s = .next (s.answer (hostResponse op s.build q va vb
        (valueOf (registry .double) ⟨sign.toNat, e, f⟩)))
      ∧ (|x| < infinityFrom (registry .double) →
        e < (registry .double).expMax ∧ NearestValue (registry .double) |x| e f)
      ∧ (infinityFrom (registry .double) ≤ |x| → e = (registry .double).expMax) := by
  have h := registry_facts q
  obtain ⟨ha, h1, h2, hA, hB⟩ := hops
  obtain ⟨m, e, hvA, hrA, -⟩ := toHost_of_finite hquad h (readPattern_lt h1) hA
  obtain ⟨n, k, hvB, hrB, -⟩ := toHost_of_finite hquad h (readPattern_lt h2) hB
  rw [exactOn, hrA, hrB] at hx
  obtain ⟨y, hn, hd, hy, hhost⟩ := (hostOp_finite op _ _ m n e k hx).2 hne
  obtain ⟨e', f', ht, hnan, hrn, hbelow, hover⟩ := rn64_spec (if x < 0 then 1 else 0) hn hd
  rw [hy] at hbelow hover
  refine ⟨e', f', ht, hnan, ?_, hbelow, hover⟩
  rw [exec_arith_host op hq ha h1 h2, hvA, hvB, hhost, hrn]

/-- One operation at double: the host's result is a value of the precision itself, so it is encoded unchanged
(`hostOperand_own_value`). -/
theorem exec_arith_double (op : ArithOp) (hops : FiniteOperands s .double a b va vb)
    (hx : x = exactOn op s.build.hexOutCase (registry .double) va vb) (hne : x ≠ 0) :
    ∃ echo enc, exec (arithInstr op .double a b) s = .next (s.answer (.arith echo enc true))
      ∧ enc.result.fields.sign = (if x < 0 then 1 else 0)
      ∧ (|x| < infinityFrom (registry .double) → enc.result.fields.exponent.toNat < (registry .double).expMax
          ∧ NearestValue (registry .double) |x| enc.result.fields.exponent.toNat enc.result.fields.fraction.toNat)
      ∧ (infinityFrom (registry .double) ≤ |x| → enc.result.cls = .infinity) := by
  obtain ⟨e, f, ht, hnan, hexec, hbelow, hover⟩ :=
    exec_arith_finite op (p := .double) rfl (by decide) hops hx hne
  obtain ⟨hresult, hmatch⟩ := hostOperand_own_value s.build .double ht hnan rfl
  obtain ⟨hsign, hexp, hfrac⟩ := finish_fields_toNat (registry_facts .double) s.build.hexOutCase ht
  rw [hostResponse, hmatch] at hexec
  refine ⟨_, _, hexec, ?_, ?_, fun hge => ?_⟩ <;> rw [hresult]
  · exact hsign
  · rw [hexp, hfrac]
    exact hbelow
  · exact classifyFields_infinity.mpr ⟨hover hge, hnan (hover hge)⟩

/-- Settles O55: `exec_arith_double` for each operation. -/
theorem doubleArithmeticRoundsOnce : Obligations.DoubleArithmeticRoundsOnce := by
  intro s a b va vb op ha hb h1 h2 A B x i hA hB hne
  cases op with
  | add => exact exec_arith_double .add ⟨ha, h1, h2, hA, hB⟩ rfl hne
  | multiply => exact exec_arith_double .multiply ⟨ha, h1, h2, hA, hB⟩ rfl hne

/-- `exact_match` with a finite host value: the encoding is finite and kept the magnitude; its sign it has anyway (R206). -/
theorem exactMatch_encoded_iff (bd : Build) (q : Precision) (sign : Bit) (m : Nat) (e : ℤ) :
    let enc := encodeOperand bd q (hostOperand (.finite sign m e))
    exactMatch (valueOfPorts (registry q) enc.result.fields) (.finite sign m e) = true
      ↔ enc.result.cls.isFinite ∧ enc.result.value.magnitude = m * (2 : ℚ) ^ e := by
  have h := registry_facts q
  obtain ⟨ht, hnan⟩ := encodeFields_fit q sign (shortestDecimal m e).1 (shortestDecimal m e).2
  simp only [hostOperand, encodeOperand_finite_result, valueOfPorts_finish h _ ht, finish_cls]
  generalize encodeFields q (shortestDecimal m e).1 (shortestDecimal m e).2 = t at ht hnan
  by_cases he : t.1 = (registry q).expMax
  · rw [he, hnan he, valueOf_infinity, classifyFields_isFinite_iff]
    exact iff_of_false Bool.false_ne_true fun hfin => hfin.1 rfl
  · have hfin := (classifyFields_isFinite_iff (f := t.2)).mpr he
    obtain ⟨n, k, hval, hmag, -⟩ := valueOf_finite h ht hfin
    rw [hval, (finish_value_finite h _ ht hfin).2, ← hmag, and_iff_right hfin, exactMatch, sameReal_iff]
    simp only [ofNat_bit_toNat]
    exact mul_right_inj' (by simp)

/-- One operation at half, single or double: the double is that of `exec_arith_finite`, written as its significand and
exponent. -/
theorem exec_arith_encodes_double (op : ArithOp) (hq : precisionOf p = some q) (hquad : q ≠ .quad)
    (hops : FiniteOperands s q a b va vb) (hx : x = exactOn op s.build.hexOutCase (registry q) va vb) (hne : x ≠ 0)
    (hlt : |x| < infinityFrom (registry .double)) :
    ∃ (e f sig : Nat) (exp2 : ℤ) (echo : EchoGroup) (enc : EncodeResult) (m : Bool),
      e < (registry .double).expMax ∧ f ≤ (registry .double).fracMask ∧ NearestValue (registry .double) |x| e f
      ∧ sig * (2 : ℚ) ^ exp2 = fieldsMagnitude (registry .double) e f
      ∧ exec (arithInstr op p a b) s = .next (s.answer (.arith echo enc m))
      ∧ enc = encodeOperand s.build q
          (.finite (if x < 0 then 1 else 0) (shortestDecimal sig exp2).1 (shortestDecimal sig exp2).2)
      ∧ (m = true ↔ enc.result.cls.isFinite ∧ enc.result.value.magnitude = fieldsMagnitude (registry .double) e f) := by
  have h := registry_facts .double
  obtain ⟨e, f, ht, -, hexec, hbelow, -⟩ := exec_arith_finite op hq hquad hops hx hne
  obtain ⟨hexp, hnearest⟩ := hbelow hlt
  obtain ⟨sig, exp2, hval, hmag, -⟩ := valueOf_finite h ht (classifyFields_isFinite_iff.mpr hexp.ne)
  rw [patValue_fields (ht.fraction_le.trans_lt h.fracMask_lt)] at hmag
  rw [hval, ofNat_bit_toNat] at hexec
  refine ⟨e, f, sig, exp2, _, _, _, hexp, ht.fraction_le, hnearest, hmag, hexec, rfl, ?_⟩
  rw [← hmag]
  exact exactMatch_encoded_iff s.build q _ sig exp2

/-- Settles O56: `exec_arith_encodes_double` for each operation. -/
theorem arithmeticEncodesTheHostResult : Obligations.ArithmeticEncodesTheHostResult := by
  intro s p q a b va vb op hq hquad ha hb h1 h2 A B x i hA hB hne hlt
  cases op with
  | add => exact exec_arith_encodes_double .add hq hquad ⟨ha, h1, h2, hA, hB⟩ rfl hne hlt
  | multiply => exact exec_arith_encodes_double .multiply hq hquad ⟨ha, h1, h2, hA, hB⟩ rfl hne hlt

end Sys2Proof.Machine
end
